-- ==== Sys2Proof/Word.lean ====
section
/-! DEFINITION. The word types of the block (R8, R10, R16): bytes, 32-bit words, pixels. Everything the block
computes with is an unsigned number or a sequence; nothing is signed (R10). -/

namespace Sys2Proof

/-- A byte of a cursor buffer: 8 bits (R10, R61). -/
abbrev Byte := BitVec 8

/-- A 32-bit register: `OPD`, `RES`, `W`, `H`, `SC`, `LCH`, `LCN`, `LCT` (R25, R26, R32). -/
abbrev Word := BitVec 32

/-- A Pixel is "a 32-bit unsigned color value"; the block compares whole words only (R16, R65). -/
abbrev Pixel := BitVec 32

end Sys2Proof
end

