-- ==== Sys2Proof/Config.lean ====
section
/-! DEFINITION. The fixed constants of R8, the open parameters of R9 as plain data, and the one free value. -/

namespace Sys2Proof.Config

/-- `SENTINEL`: the transparent pixel word (R8, R164). -/
def sentinel : Pixel := 0#32
/-- `PAL_MAX`: the most distinct non-zero colours of a palette (R8, R163). -/
def palMax : Nat := 256
/-- `FAV_MAX`: the most favourites (R8, R30). -/
def favMax : Nat := 16
/-- `FAV_IDX_BITS`: width of a favourite index in the body (R8, R103). -/
def favIdxBits : Nat := 4
/-- `PAL_IDX_BITS`: width of a non-favourite index in the body (R8, R104). -/
def palIdxBits : Nat := 8
/-- `RUN_MAX`: the longest streak (R8, R186). -/
def runMax : Nat := 256
/-- `LEN_BITS`: width of the length payload in the body (R8, R102). -/
def lenBits : Nat := 8
/-- `DIM_MAX`: the largest width or height (R8, R232, R240). -/
def dimMax : Nat := 8192
/-- `MIN_FILE`: a shorter file is rejected with `ImageSize` (R8, R237). -/
def minFile : Nat := 19
/-- `N_FRAME_MAX`: the largest palette the count byte of the container can express (R8, R115). -/
def frameMax : Nat := 255
/-- `NBITS_MAX`: the largest bit count of one `RDBITS` or `WRBITS` (R9). -/
def nbitsMax : Nat := 32
/-- `SIGNATURE` as bytes (R3, R8). -/
def signature : List Byte := [0x08#8, 0x09#8, 0x03#8]
/-- `VERSION` (R3, R8). -/
def version : Byte := 0x01#8

/-- One point of the parameter `NONFAV_INDEX`: for this palette and colour the written index is `index` (R104). -/
structure NonfavEntry where
  pal : List Pixel
  colour : Pixel
  index : Byte
  deriving DecidableEq, Repr

/-- The open parameters of R9 that some rule depends on, as plain data so that a state can be written out.
`bufCap` is `BUF_CAP` (`none` is unbounded, the default of R9). `nonfav` is `NONFAV_INDEX` as a finite table over the
default function, the colour's position in the palette; the empty table is the default of R9. DESIGN CHOICE for
the form, log 4 and log 5. `PIXEL_PACKING` and `REG_MAP` have no rule that depends on them (log 17). -/
structure Params where
  bufCap : Option Nat := none
  nonfav : List NonfavEntry := []
  deriving DecidableEq, Repr

/-- FREE VALUE (log 6): what `SC` holds when `RLE_ENCODE` increments it from 2^32 - 1. R32 gives `SC` 32 bits and R185
increments it once per record, and no rule states that sum; R188 makes it a function of the raster and the palette.
Its arguments are `PIX`, `PAL` and `SI`. -/
opaque scPastRange : List Pixel → List Pixel → Nat → Word

end Sys2Proof.Config
end

