-- ==== Sys2Proof/Syntax.lean ====
section
/-! DEFINITION. The instructions: one constructor per row of spec/opcode_table.json, eighteen commands (R93) and six
streak-record forms (R101). -/

namespace Sys2Proof

/-- The five cursor contexts by their aliases (R23): `ch` is context 0 (chroma field), `cn` 1 (count field), `ct` 2
(colour-type field), `bd` 3 (body), `fr` 4 (container file bytes). -/
inductive CurId where
  | ch | cn | ct | bd | fr
  deriving DecidableEq, Repr

/-- The block's instructions. A command's `n` is the raw six-bit `NB` field (R90); its range is WellFormed's check. -/
inductive Instr where
  /-- `RESET` (R275) -/
  | reset
  /-- `CUR_OPEN_R k` (R141) -/
  | curOpenR (k : CurId)
  /-- `CUR_OPEN_W k` (R140) -/
  | curOpenW (k : CurId)
  /-- `RDBIT k` (R132) -/
  | rdbit (k : CurId)
  /-- `RDBITS k, n` (R133) -/
  | rdbits (k : CurId) (n : BitVec 6)
  /-- `RDBYTE k` (R134) -/
  | rdbyte (k : CurId)
  /-- `RDBYTES k` (R135) -/
  | rdbytes (k : CurId)
  /-- `WRBIT k, v` (R136) -/
  | wrbit (k : CurId) (v : Bool)
  /-- `WRBITS k, n` (R137) -/
  | wrbits (k : CurId) (n : BitVec 6)
  /-- `WRBYTE k, b` (R138) -/
  | wrbyte (k : CurId) (b : Byte)
  /-- `WRBYTES k` (R139) -/
  | wrbytes (k : CurId)
  /-- `PAL_BUILD` (R161) -/
  | palBuild
  /-- `RLE_ENCODE` (R176) -/
  | rleEncode
  /-- `RLE_DECODE` (R201) -/
  | rleDecode
  /-- `TAL_SERIALIZE` (R231) -/
  | talSerialize
  /-- `TAL_PARSE` (R236) -/
  | talParse
  /-- `TAL_ENCODE` (R250) -/
  | talEncode
  /-- `TAL_DECODE` (R251) -/
  | talDecode
  /-- `ST.T1`: one transparent pixel (R206) -/
  | stT1
  /-- `ST.TR L`: a run of transparent pixels (R207) -/
  | stTR (len : BitVec 8)
  /-- `ST.F1 I`: one pixel of a favourite colour (R208) -/
  | stF1 (idx : BitVec 4)
  /-- `ST.FR L I`: a run of a favourite colour (R209) -/
  | stFR (len : BitVec 8) (idx : BitVec 4)
  /-- `ST.P1 J`: one pixel of a non-favourite palette colour (R210) -/
  | stP1 (idx : BitVec 8)
  /-- `ST.PR L J`: a run of a non-favourite palette colour (R211) -/
  | stPR (len : BitVec 8) (idx : BitVec 8)
  deriving DecidableEq, Repr

end Sys2Proof
end

