-- ==== Sys2Proof/WellFormed.lean ====
section
/-! DEFINITION. Which instructions are legal (R92). The context number, the immediate bit and byte and the record
payloads are in range by their types; the one operand whose field is wider than its range is the bit count `NB`. -/

namespace Sys2Proof

/-- R92: every field an instruction uses is in range. `NB` of `RDBITS` and `WRBITS` must be 0..32. -/
def Instr.wellFormed : Instr → Bool
  | .rdbits _ n => decide (n.toNat ≤ 32)
  | .wrbits _ n => decide (n.toNat ≤ 32)
  | .reset | .curOpenR _ | .curOpenW _ | .rdbit _ | .rdbyte _ | .rdbytes _ | .wrbit _ _ | .wrbyte _ _ | .wrbytes _
  | .palBuild | .rleEncode | .rleDecode | .talSerialize | .talParse | .talEncode | .talDecode
  | .stT1 | .stTR _ | .stF1 _ | .stFR _ _ | .stP1 _ | .stPR _ _ => true

end Sys2Proof
end

