-- ==== Sys2Proof/Decode.lean ====
section
/-! DEFINITION. The decoder and, after it, the encoder (R90 to R95 for commands, R100 to R106 for streak records), with
the bit-sequence helpers of R12 that they and the machine use. -/

namespace Sys2Proof

/-! ### Bit sequences (R12) -/

/-- `bits_n(v)` of R12: the low `n` bits of `v`, most significant first. -/
def bitsOf : Nat → Nat → List Bool
  | 0, _ => []
  | n + 1, v => v.testBit n :: bitsOf n v

/-- `val(s)` of R12 with an accumulator: the number whose bits, most significant first, are those of `r` then `s`. -/
def valFrom (r : Nat) : List Bool → Nat
  | [] => r
  | b :: s => valFrom (2 * r + b.toNat) s

/-- `val(s)` of R12. -/
def valOf (s : List Bool) : Nat := valFrom 0 s

/-! ### Encoded forms -/

/-- The bits one streak contributes to the four streams (R100): `ct` is `none` when the record puts no bit there. -/
structure RecordBits where
  ch : Bool
  cn : Bool
  ct : Option Bool
  bd : List Bool
  deriving DecidableEq, Repr

/-- What an instruction is encoded as: a 32-bit command word (R90) or the bits of a streak record (R100). -/
inductive Encoded where
  | command (cw : Word)
  | record (r : RecordBits)
  deriving DecidableEq, Repr

/-- Why an encoding is no instruction (R92, R94, R106). -/
inductive DecodeError where
  /-- `OP` is none of the 18 opcodes of R93. -/
  | reservedOpcode
  /-- `RSV` is not 0. -/
  | reservedFieldSet
  /-- A field the command does not use is not 0. -/
  | unusedFieldSet
  /-- `K` is 5, 6 or 7. -/
  | contextOutOfRange
  /-- `NB` is 33 or more. -/
  | bitCountOutOfRange
  /-- `IMM8` of `WRBIT` is 2 or more. -/
  | bitValueOutOfRange
  /-- The bits are not exactly those of one of the six record forms of R101. -/
  | notARecord
  deriving DecidableEq, Repr

/-! ### Decoding a command word -/

/-- The context a `K` field names (R23, R91): 0 to 4. -/
def CurId.ofField (f : BitVec 3) : Option CurId :=
  match f.toNat with
  | 0 => some .ch
  | 1 => some .cn
  | 2 => some .ct
  | 3 => some .bd
  | 4 => some .fr
  | _ => none

/-- The operand shapes of R92's table, with the instruction each shape builds. -/
inductive Shape where
  /-- no field used -/
  | plain (i : Instr)
  /-- `K` -/
  | ctx (mk : CurId → Instr)
  /-- `K` and `NB` -/
  | ctxCount (mk : CurId → BitVec 6 → Instr)
  /-- `K` and `IMM8[0]` -/
  | ctxBit (mk : CurId → Bool → Instr)
  /-- `K` and `IMM8` -/
  | ctxByte (mk : CurId → Byte → Instr)

/-- The opcode map of R93. -/
def opcodeShape (op : BitVec 8) : Option Shape :=
  match op.toNat with
  | 0x01 => some (.plain .reset)
  | 0x10 => some (.ctx .curOpenR)
  | 0x11 => some (.ctx .curOpenW)
  | 0x12 => some (.ctx .rdbit)
  | 0x13 => some (.ctxCount .rdbits)
  | 0x14 => some (.ctx .rdbyte)
  | 0x15 => some (.ctx .rdbytes)
  | 0x16 => some (.ctxBit .wrbit)
  | 0x17 => some (.ctxCount .wrbits)
  | 0x18 => some (.ctxByte .wrbyte)
  | 0x19 => some (.ctx .wrbytes)
  | 0x20 => some (.plain .palBuild)
  | 0x30 => some (.plain .rleEncode)
  | 0x40 => some (.plain .rleDecode)
  | 0x50 => some (.plain .talSerialize)
  | 0x51 => some (.plain .talParse)
  | 0x60 => some (.plain .talEncode)
  | 0x61 => some (.plain .talDecode)
  | _ => none

/-- The context operand, or the error of R94 for `K >= 5`. -/
def withContext (f : BitVec 3) (mk : CurId → Instr) : Except DecodeError Instr :=
  match CurId.ofField f with
  | some k => .ok (mk k)
  | none => .error .contextOutOfRange

/-- R90 to R94: the command a 32-bit word encodes, or why it is illegal. -/
def decodeCommand (cw : Word) : Except DecodeError Instr :=
  let op := cw.extractLsb' 24 8
  let k := cw.extractLsb' 21 3
  let nb := cw.extractLsb' 15 6
  let rsv := cw.extractLsb' 8 7
  let imm := cw.extractLsb' 0 8
  match opcodeShape op with
  | none => .error .reservedOpcode
  | some shape =>
    if rsv ≠ 0#7 then .error .reservedFieldSet
    else match shape with
      | .plain i => if k = 0#3 ∧ nb = 0#6 ∧ imm = 0#8 then .ok i else .error .unusedFieldSet
      | .ctx mk => if nb = 0#6 ∧ imm = 0#8 then withContext k mk else .error .unusedFieldSet
      | .ctxCount mk =>
        if imm ≠ 0#8 then .error .unusedFieldSet
        else if 32 < nb.toNat then .error .bitCountOutOfRange
        else withContext k (fun c => mk c nb)
      | .ctxBit mk =>
        if nb ≠ 0#6 then .error .unusedFieldSet
        else if 1 < imm.toNat then .error .bitValueOutOfRange
        else withContext k (fun c => mk c (imm.getLsbD 0))
      | .ctxByte mk => if nb ≠ 0#6 then .error .unusedFieldSet else withContext k (fun c => mk c imm)

/-! ### Decoding a streak record -/

/-- R101: the record form selected by the flag bits, its payloads taken from the body bits (length before index, R100). -/
def decodeRecord (r : RecordBits) : Except DecodeError Instr :=
  match r.ch, r.cn, r.ct with
  | false, false, none => if r.bd.length = 0 then .ok .stT1 else .error .notARecord
  | false, true, none =>
    if r.bd.length = 8 then .ok (.stTR (BitVec.ofNat 8 (valOf r.bd))) else .error .notARecord
  | true, false, some true =>
    if r.bd.length = 4 then .ok (.stF1 (BitVec.ofNat 4 (valOf r.bd))) else .error .notARecord
  | true, true, some true =>
    if r.bd.length = 12 then
      .ok (.stFR (BitVec.ofNat 8 (valOf (r.bd.take 8))) (BitVec.ofNat 4 (valOf (r.bd.drop 8))))
    else .error .notARecord
  | true, false, some false =>
    if r.bd.length = 8 then .ok (.stP1 (BitVec.ofNat 8 (valOf r.bd))) else .error .notARecord
  | true, true, some false =>
    if r.bd.length = 16 then
      .ok (.stPR (BitVec.ofNat 8 (valOf (r.bd.take 8))) (BitVec.ofNat 8 (valOf (r.bd.drop 8))))
    else .error .notARecord
  | false, _, some _ => .error .notARecord
  | true, _, none => .error .notARecord

/-- The decoder, total: every encoded form is one instruction or is rejected by name (R95, R106). -/
def decode : Encoded → Except DecodeError Instr
  | .command cw => decodeCommand cw
  | .record r => decodeRecord r

/-! ### A table row's bits as one number (log 8) -/

/-- The record whose bits, written in the table's order (chroma, count, colour-type if any, body) as one number
with the last body bit as bit 0, are `w` in `nbits` bits: 8 for `ST.T1` and `ST.F1`, 16 for `ST.TR`, `ST.P1` and
`ST.FR`, 24 for `ST.PR`. DESIGN CHOICE, log 8: the spec gives a record no such number. -/
def recordOfNumber (nbits w : Nat) : Option RecordBits :=
  match nbits with
  | 8 =>
    if w = 0 then some ⟨false, false, none, []⟩
    else if w / 2 ^ 4 = 0b101 then some ⟨true, false, some true, bitsOf 4 w⟩
    else none
  | 16 =>
    if w / 2 ^ 8 = 0b01 then some ⟨false, true, none, bitsOf 8 w⟩
    else if w / 2 ^ 8 = 0b100 then some ⟨true, false, some false, bitsOf 8 w⟩
    else if w / 2 ^ 12 = 0b111 then some ⟨true, true, some true, bitsOf 12 w⟩
    else none
  | 24 => if w / 2 ^ 16 = 0b110 then some ⟨true, true, some false, bitsOf 16 w⟩ else none
  | _ => none

/-- The encoded form of a table row's bits: a record by `recordOfNumber`, else the 32-bit command word they are. -/
def encodedOfNumber (nbits w : Nat) : Encoded :=
  match recordOfNumber nbits w with
  | some r => .record r
  | none => .command (BitVec.ofNat 32 w)

/-- The instruction this decoder reads from a table row's bits; `none` where it refuses. -/
def decodeTableWord (nbits w : Nat) : Option Instr :=
  if 2 ^ nbits ≤ w ∨ 32 < nbits then none
  else match decode (encodedOfNumber nbits w) with
    | .ok i => some i
    | .error _ => none

/-! ### The encoder -/

/-- The `K` field of a context (R23, R91). -/
def CurId.field : CurId → BitVec 3
  | .ch => 0#3
  | .cn => 1#3
  | .ct => 2#3
  | .bd => 3#3
  | .fr => 4#3

/-- The context's number, as `INFO.sub` of an `OutOfRange` gives it (R262). -/
def CurId.num (k : CurId) : Nat := k.field.toNat

/-- R90: a command word from its fields, `RSV` zero. -/
def commandWord (op : BitVec 8) (k : BitVec 3) (nb : BitVec 6) (imm : BitVec 8) : Word :=
  op ++ k ++ nb ++ 0#7 ++ imm

/-- The encoded form of an instruction (R93 and R101, each row written from the spec's tables). -/
def encode : Instr → Encoded
  | .reset => .command (commandWord 0x01#8 0#3 0#6 0#8)
  | .curOpenR k => .command (commandWord 0x10#8 k.field 0#6 0#8)
  | .curOpenW k => .command (commandWord 0x11#8 k.field 0#6 0#8)
  | .rdbit k => .command (commandWord 0x12#8 k.field 0#6 0#8)
  | .rdbits k n => .command (commandWord 0x13#8 k.field n 0#8)
  | .rdbyte k => .command (commandWord 0x14#8 k.field 0#6 0#8)
  | .rdbytes k => .command (commandWord 0x15#8 k.field 0#6 0#8)
  | .wrbit k v => .command (commandWord 0x16#8 k.field 0#6 (if v then 1#8 else 0#8))
  | .wrbits k n => .command (commandWord 0x17#8 k.field n 0#8)
  | .wrbyte k b => .command (commandWord 0x18#8 k.field 0#6 b)
  | .wrbytes k => .command (commandWord 0x19#8 k.field 0#6 0#8)
  | .palBuild => .command (commandWord 0x20#8 0#3 0#6 0#8)
  | .rleEncode => .command (commandWord 0x30#8 0#3 0#6 0#8)
  | .rleDecode => .command (commandWord 0x40#8 0#3 0#6 0#8)
  | .talSerialize => .command (commandWord 0x50#8 0#3 0#6 0#8)
  | .talParse => .command (commandWord 0x51#8 0#3 0#6 0#8)
  | .talEncode => .command (commandWord 0x60#8 0#3 0#6 0#8)
  | .talDecode => .command (commandWord 0x61#8 0#3 0#6 0#8)
  | .stT1 => .record ⟨false, false, none, []⟩
  | .stTR l => .record ⟨false, true, none, bitsOf 8 l.toNat⟩
  | .stF1 i => .record ⟨true, false, some true, bitsOf 4 i.toNat⟩
  | .stFR l i => .record ⟨true, true, some true, bitsOf 8 l.toNat ++ bitsOf 4 i.toNat⟩
  | .stP1 j => .record ⟨true, false, some false, bitsOf 8 j.toNat⟩
  | .stPR l j => .record ⟨true, true, some false, bitsOf 8 l.toNat ++ bitsOf 8 j.toNat⟩

/-- The command word `CW` of a command, which a `Refused` fault records (R262); 0 for a streak record, which has none
and is never refused. -/
def Instr.word (i : Instr) : Word :=
  match encode i with
  | .command cw => cw
  | .record _ => 0#32

end Sys2Proof
end

