-- ==== Sys2Proof/Machine/Operands.lean ====
section
/-! DEFINITION. Operand forms: results and write values (R91), big-endian integers (R12, R64), the length payload
(R102), and the two colour indices (R103, R104). -/

namespace Sys2Proof.Machine

/-- `ceil8(n) = (n + 7) div 8` (R10). -/
def ceil8 (n : Nat) : Nat := (n + 7) / 8

/-- `zext_32(val(bits read))`: what a read command puts into `RES` (R91). -/
def resultWord (v : Nat) : Word := BitVec.ofNat 32 v

/-- `be32(v)`: the four bytes of a word, most significant first (R12, R64). -/
def be32 (v : Word) : List Byte :=
  [v.extractLsb' 24 8, v.extractLsb' 16 8, v.extractLsb' 8 8, v.extractLsb' 0 8]

/-- `B[a..a+n)` (R12). -/
def slice (b : List Byte) (a n : Nat) : List Byte := (b.drop a).take n

/-- The byte at offset `a`, 0 where there is none; used only at offsets a test has shown to exist (R237). -/
def byteAt (b : List Byte) (a : Nat) : Byte := b.getD a 0#8

/-- `BE32(B[a..a+4))` as a word (R12, R64). -/
def be32At (b : List Byte) (a : Nat) : Word :=
  byteAt b a ++ byteAt b (a + 1) ++ byteAt b (a + 2) ++ byteAt b (a + 3)

/-- The length payload written for a streak of length `l` in 2..256: its low eight bits (R102). -/
def payloadOfLength (l : Nat) : Nat := l % 256

/-- The length a payload stands for: 0 means 256 (R102, R214). -/
def lengthOfPayload (p : Nat) : Nat := if p = 0 then Config.runMax else p

/-- `FAVN = min(N, 16)` (R30). -/
def favCount (pal : List Pixel) : Nat := min pal.length Config.favMax

/-- The least position of a colour in the palette (R181, R182). -/
def palPos (col : Pixel) : List Pixel → Option Nat
  | [] => none
  | x :: xs => if x = col then some 0 else (palPos col xs).map (· + 1)

/-- The parameter `NONFAV_INDEX(PAL, col)` (R104, R183): the table's entry, else the default, `col`'s position `j`
(log 4; a position above 255 needs a palette R30 excludes, log 14). -/
def nonfavIndex (table : List Config.NonfavEntry) (pal : List Pixel) (col : Pixel) (j : Nat) : Byte :=
  match table.find? (fun e => e.pal = pal ∧ e.colour = col) with
  | some e => e.index
  | none => BitVec.ofNat 8 j

end Sys2Proof.Machine
end

