-- ==== Sys2Proof/Machine/Flags.lean ====
section
/-! DEFINITION. The flags: the three record flags (R33(a), R181) and the two writes of `NF` (R33(b)). The block has no
arithmetic condition codes. -/

namespace Sys2Proof.Machine

/-- `c`, the chroma flag: the streak's colour is not the sentinel (R33, R181). -/
def chromaFlag (col : Pixel) : Bool := decide (col ≠ Config.sentinel)

/-- `m`, the count flag: the streak is longer than one pixel (R33, R181). -/
def countFlag (len : Nat) : Bool := decide (1 < len)

/-- `f`, the colour-type flag: the colour stands at a palette position below 16 (R33, R182). -/
def favouriteFlag (pos : Nat) : Bool := decide (pos < Config.favMax)

/-- Body bits of a record, from its flags (R105): `8*m + c*(4 if f = 1 else 8)`. -/
def recordBodyBits (c m f : Bool) : Nat :=
  (if m then Config.lenBits else 0) + (if c then (if f then Config.favIdxBits else Config.palIdxBits) else 0)

end Sys2Proof.Machine
end

