-- ==== Sys2Proof/Machine/State.lean ====
section
/-! DEFINITION. The state of the block (R21 to R34), every field of it, plus the model's own three: the open parameters
(`params`) and what the host is about to do (`inbox`). Reset values are those of R37. -/

namespace Sys2Proof.Machine

/-- The mode of a cursor context (R22): which commands it accepts. -/
inductive Mode where
  | closed | reading | writing
  deriving DecidableEq, Repr

/-- A cursor context (R22): a byte buffer and a bit position in it. `bit` counts from the most significant bit (R11(b)). -/
structure Cursor where
  buf : List Byte
  byte : Nat
  bit : Fin 8
  mode : Mode
  deriving DecidableEq, Repr

/-- An entry of `TALLY` (R31). -/
structure TallyEntry where
  colour : Pixel
  count : Nat
  deriving DecidableEq, Repr

/-- `INFO` (R34, R262). -/
structure Info where
  sub : Nat
  expected : Nat
  actual : Nat
  deriving DecidableEq, Repr

/-- A host write (R40): exactly the pieces of state the host may write. -/
inductive HostWrite where
  | opd (v : Word)
  | xb (bytes : List Byte)
  | w (v : Word)
  | h (v : Word)
  | pix (pixels : List Pixel)
  | pal (pixels : List Pixel)
  | sc (v : Word)
  /-- `cur[k].buf`, which also rewinds and closes the context (R40) -/
  | buf (k : CurId) (bytes : List Byte)
  deriving DecidableEq, Repr

/-- What reaches the block from outside, one item between any two commands (R20, R40, R300). Log 1. -/
inductive HostAction where
  /-- the host issues a command word (R90) -/
  | command (cw : Word)
  /-- the host writes a piece of state (R40) -/
  | write (w : HostWrite)
  /-- the hardware reset input (R300) -/
  | hardReset
  /-- one record step of R205 as a step of its own; the model's, not the host's: log 7 -/
  | record
  deriving DecidableEq, Repr

/-- The whole state. Field names are the spec's (R21) in lower case; `out` is `OUT`, the contexts are `cur[0..4]`. -/
structure State where
  /-- `cur[0]`, alias CH -/
  ch : Cursor
  /-- `cur[1]`, alias CN -/
  cn : Cursor
  /-- `cur[2]`, alias CT -/
  ct : Cursor
  /-- `cur[3]`, alias BD -/
  bd : Cursor
  /-- `cur[4]`, alias FR -/
  fr : Cursor
  opd : Word
  res : Word
  xb : List Byte
  w : Word
  h : Word
  pix : List Pixel
  out : List Pixel
  si : Nat
  ri : Nat
  cc : Pixel
  rl : BitVec 9
  pal : List Pixel
  tally : List TallyEntry
  sc : Word
  lch : Word
  lcn : Word
  lct : Word
  nf : Bool
  fk : BitVec 4
  info : Info
  /-- the open parameters of R9; no step writes them (log 4, log 5) -/
  params : Config.Params
  /-- what the host is about to do, in order; the model's own field (log 1) -/
  inbox : List HostAction
  deriving DecidableEq, Repr

/-- Why a step stops with a fault. The block's own faults (R262) are NOT here: they are next states with `FK` set. -/
inductive Fault where
  /-- Raised by the four cursor write commands on a context in mode W with `byte > len`. No run reaches such a state
  (R24), and the spec gives the write no effect there (N9 of 91_not_in_source.md). Safe. Log 9. -/
  | writePastEnd
  deriving DecidableEq, Repr

/-- Why a step is refused. The block's own outcome `Refused` (R264) is NOT here: it is a next state with `FK = 8`. -/
inductive Refusal where
  /-- Raised by an arm of `exec` whose instruction has no meaning yet: none at present. Safe. -/
  | notModelled (mnemonic : String)
  /-- Raised by a host write of more than 256 palette entries, which R40 forbids the host and gives no effect. Safe. Log 10. -/
  | hostPaletteTooLong
  deriving DecidableEq, Repr

/-- A context after reset (R37): empty, rewound, closed. -/
def Cursor.reset : Cursor := ⟨[], 0, 0, .closed⟩

/-- The machine right after reset: every value from R37; the parameters at the defaults of R9; no host action pending. -/
def State.reset : State where
  ch := Cursor.reset
  cn := Cursor.reset
  ct := Cursor.reset
  bd := Cursor.reset
  fr := Cursor.reset
  opd := 0
  res := 0
  xb := []
  w := 0
  h := 0
  pix := []
  out := []
  si := 0
  ri := 0
  cc := 0
  rl := 0
  pal := []
  tally := []
  sc := 0
  lch := 0
  lcn := 0
  lct := 0
  nf := false
  fk := 0
  info := ⟨0, 0, 0⟩
  params := ⟨none, []⟩
  inbox := []

/-- `cur[k]` (R22, R23). -/
def State.cur (s : State) : CurId → Cursor
  | .ch => s.ch
  | .cn => s.cn
  | .ct => s.ct
  | .bd => s.bd
  | .fr => s.fr

/-- `cur[k] <- c`. -/
def State.setCur (s : State) (k : CurId) (c : Cursor) : State :=
  match k with
  | .ch => { s with ch := c }
  | .cn => { s with cn := c }
  | .ct => { s with ct := c }
  | .bd => { s with bd := c }
  | .fr => { s with fr := c }

/-- The byte at address `a` of `BUF[k]`; `none` at or past the end (R60, R61, R75). -/
def State.readByte (s : State) (k : CurId) (a : Nat) : Option Byte := (s.cur k).buf[a]?

end Sys2Proof.Machine
end

