-- ==== Sys2Proof/Machine/Ops.lean ====
section
/-! DEFINITION. The named operations: bit access to a buffer (R131 to R142), taking a fault (R270) and the way out of it
(R275), the command prologue (R130, R271), and the canonical form of the stored buffers (R24). -/

namespace Sys2Proof.Machine

/-! ### Cursor operations: one context by itself (R312 allows a cursor to be a value) -/

/-- `pos = byte*8 + bit` (R22). -/
def Cursor.pos (c : Cursor) : Nat := c.byte * 8 + c.bit.val

/-- `Adv` (R131). -/
def Cursor.adv (c : Cursor) : Cursor :=
  if c.bit.val = 7 then { c with bit := 0, byte := c.byte + 1 } else { c with bit := c.bit + 1 }

/-- `OpenW` (R140). -/
def Cursor.openW : Cursor := ⟨[], 0, 0, .writing⟩

/-- `OpenR` (R141): the buffer is kept. -/
def Cursor.openR (c : Cursor) : Cursor := { c with byte := 0, bit := 0, mode := .reading }

/-- A context loaded with bytes, rewound, in mode R (R236 commit, R245). -/
def Cursor.loaded (bytes : List Byte) : Cursor := ⟨bytes, 0, 0, .reading⟩

/-- Stream bit `i` of a byte is register bit `7 - i` (R11(b), R62). -/
def streamBit (b : Byte) (i : Fin 8) : Bool := b.getLsbD (7 - i.val)

/-- Set or clear stream bit `i` of a byte, the other seven kept (R136). -/
def setStreamBit (b : Byte) (i : Fin 8) (v : Bool) : Byte :=
  if v then b ||| (1#8 <<< (7 - i.val)) else b &&& ~~~(1#8 <<< (7 - i.val))

/-- `RdBit` (R132) on one context: `none` when `byte >= len`. -/
def Cursor.rdBit (c : Cursor) : Option (Bool × Cursor) :=
  match c.buf[c.byte]? with
  | none => none
  | some b => some (streamBit b c.bit, c.adv)

/-- `RdBits` (R133) from the value `r` read so far: the value, or `none` when a bit was missing, and the context with
every bit read before that consumed. -/
def Cursor.rdBitsFrom (r : Nat) : Nat → Cursor → Option Nat × Cursor
  | 0, c => (some r, c)
  | n + 1, c =>
    match c.rdBit with
    | none => (none, c)
    | some (b, c') => Cursor.rdBitsFrom (2 * r + b.toNat) n c'

/-- `RdBits(k, n)` (R133) on one context. -/
def Cursor.rdBits (n : Nat) (c : Cursor) : Option Nat × Cursor := Cursor.rdBitsFrom 0 n c

/-- The reads of `RDBYTES` (R135): `m` bytes after those of `t`. -/
def Cursor.rdBytesFrom (t : List Byte) : Nat → Cursor → Option (List Byte) × Cursor
  | 0, c => (some t, c)
  | m + 1, c =>
    match c.rdBits 8 with
    | (none, c') => (none, c')
    | (some v, c') => Cursor.rdBytesFrom (t ++ [BitVec.ofNat 8 v]) m c'

/-- No byte may be appended: the buffer is at capacity (R146; log 15). -/
def atCapacity (cap : Option Nat) (len : Nat) : Bool :=
  match cap with
  | none => false
  | some n => decide (n ≤ len)

/-- Write stream bit `bit` of byte `byte` of the buffer as it now stands, then advance (the last four lines of R136). -/
def Cursor.putBit (c : Cursor) (v : Bool) : Cursor :=
  { c with buf := c.buf.modify c.byte (fun b => setStreamBit b c.bit v) }.adv

/-- `WrBit` (R136) on one context: a zero byte is appended first when `byte >= len`; `none` when that byte does not fit
(R146). -/
def Cursor.wrBit (cap : Option Nat) (v : Bool) (c : Cursor) : Option Cursor :=
  if c.byte < c.buf.length then some (c.putBit v)
  else if atCapacity cap c.buf.length then none
  else some ({ c with buf := c.buf ++ [0#8] }.putBit v)

/-- Write a bit sequence in order (R137: "repeated application of the bit/byte primitives"): whether every bit fitted,
and the context with the bits before the refused one written. -/
def Cursor.wrSeq (cap : Option Nat) : List Bool → Cursor → Bool × Cursor
  | [], c => (true, c)
  | v :: vs, c =>
    match c.wrBit cap v with
    | none => (false, c)
    | some c' => Cursor.wrSeq cap vs c'

/-- The bits of a sequence of groups `(n, x)`, each `bits_n(x)` (R137, R138, R139). -/
def groupBits (gs : List (Nat × Nat)) : List Bool := gs.flatMap (fun g => bitsOf g.1 g.2)

/-- A byte sequence as groups of eight bits (R138, R139). -/
def byteGroups (bytes : List Byte) : List (Nat × Nat) := bytes.map (fun b => (8, b.toNat))

/-! ### Taking a fault (R270) -/

/-- The fault kinds of R262. -/
inductive FaultKind where
  | tooManyColors
  | fileAlreadyExists
  | unrecognizedSignature
  | versionMismatch
  | imageSize
  | corruptStream
  | outOfRange
  | refused
  deriving DecidableEq, Repr

/-- `code(K)` (R262). -/
def FaultKind.code : FaultKind → BitVec 4
  | .tooManyColors => 1
  | .fileAlreadyExists => 2
  | .unrecognizedSignature => 3
  | .versionMismatch => 4
  | .imageSize => 5
  | .corruptStream => 6
  | .outOfRange => 7
  | .refused => 8

/-- Fault entry (R270): `FK` and `INFO` are written and nothing else; no control is transferred. -/
def State.takeFault (s : State) (kind : FaultKind) (sub expected actual : Nat) : State :=
  { s with fk := kind.code, info := ⟨sub, expected, actual⟩ }

/-- The way out of a fault (R275, R300): every piece of the block's state takes its reset value. The open parameters
and the host's coming actions are not state of the block (R21) and stay (log 16). -/
def State.leaveFault (s : State) : State :=
  { State.reset with params := s.params, inbox := s.inbox }

/-- How a part of a command ends: it goes on with a value, or a fault was taken and the command stops (R270: "no
statement after the raise is executed"). -/
inductive Res (α : Type) where
  | ok (a : α) (s : State)
  | raised (s : State)
  deriving DecidableEq, Repr

/-- The state a part of a command leaves, whichever way it ended. -/
def Res.state {α : Type} : Res α → State
  | .ok _ s => s
  | .raised s => s

/-- Go on with `f` unless a fault was taken. -/
def Res.bind {α β : Type} (r : Res α) (f : α → State → Res β) : Res β :=
  match r with
  | .ok a s => f a s
  | .raised s => .raised s

/-- `raise K(sub, expected, actual)` (R270). -/
def raise {α : Type} (kind : FaultKind) (sub expected actual : Nat) (s : State) : Res α :=
  .raised (s.takeFault kind sub expected actual)

/-- `raise Refused(...)`: `INFO = (0, 0, CW)` (R262, R264). DEDUCED, log 3: a next state, not the model's refusal. -/
def refuse {α : Type} (cw : Word) (s : State) : Res α := raise .refused 0 0 cw.toNat s

/-! ### Cursor operations inside a command (R142: no prologue, no transfer register) -/

/-- `RdBits(k, n)` (R133), `RdBit(k)` being `n = 1`; `OutOfRange` names the context, the bits available and the
position of the missing bit (R132, R262, R269). -/
def rdBits (k : CurId) (n : Nat) (s : State) : Res Nat :=
  match (s.cur k).rdBits n with
  | (some v, c) => .ok v (s.setCur k c)
  | (none, c) => raise .outOfRange k.num (c.buf.length * 8) c.pos (s.setCur k c)

/-- The reads of `RDBYTES k` (R135). -/
def rdBytes (k : CurId) (m : Nat) (s : State) : Res (List Byte) :=
  match (s.cur k).rdBytesFrom [] m with
  | (some t, c) => .ok t (s.setCur k c)
  | (none, c) => raise .outOfRange k.num (c.buf.length * 8) c.pos (s.setCur k c)

/-- Write a bit sequence through context `k` (R136 to R139); `Refused` where a byte does not fit (R146). -/
def wrSeq (cw : Word) (k : CurId) (bits : List Bool) (s : State) : Res Unit :=
  match (s.cur k).wrSeq s.params.bufCap bits with
  | (true, c) => .ok () (s.setCur k c)
  | (false, c) => refuse cw (s.setCur k c)

/-- `WrBits(k, n, x)` (R137), `WrBit(k, v)` being `n = 1`. -/
def wrBits (cw : Word) (k : CurId) (n x : Nat) (s : State) : Res Unit := wrSeq cw k (bitsOf n x) s

/-- `OpenW(k)` (R140). -/
def openW (k : CurId) (s : State) : State := s.setCur k Cursor.openW

/-- `OpenR(k)` (R141). -/
def openR (k : CurId) (s : State) : State := s.setCur k (s.cur k).openR

/-! ### The command prologue (R130, R271) -/

/-- What a command answers. -/
abbrev Out := Host.Outcome State Fault Refusal

/-- R271: with `FK != 0` a command does nothing at all; else its body runs, and a fault it takes is a next state (R270). -/
def command (body : State → Res Unit) (s : State) : Out :=
  if s.fk ≠ 0 then .next s else .next (body s).state

/-- R130 steps (2) and (3): legality of the operands, then the mode of the context. -/
def checked (cw : Word) (legal : Bool) (k : CurId) (mode : Mode) (body : State → Res Unit) (s : State) : Res Unit :=
  if legal = false then refuse cw s
  else if (s.cur k).mode ≠ mode then refuse cw s
  else body s

/-- A cursor read command: prologue with mode R (R130). -/
def readCommand (cw : Word) (legal : Bool) (k : CurId) (body : State → Res Unit) (s : State) : Out :=
  command (checked cw legal k .reading body) s

/-- A cursor write command: prologue with mode W (R130). With `byte > len` in mode W, which no run reaches (R24) and
for which the spec gives a write no effect, it stops (log 9). -/
def writeCommand (cw : Word) (legal : Bool) (k : CurId) (body : State → Res Unit) (s : State) : Out :=
  if s.fk = 0 ∧ legal = true ∧ (s.cur k).mode = .writing ∧ (s.cur k).buf.length < (s.cur k).byte then
    .fault .writePastEnd
  else command (checked cw legal k .writing body) s

/-- R94, R130 (2): an illegal word is `Refused` with `FK = 0` and ignored otherwise. -/
def illegalWord (cw : Word) (s : State) : Out := command (refuse cw) s

/-! ### Bits of a buffer, and the canonical form (R24, R35(a), R62) -/

/-- The stream bits of a byte sequence, first bit first (R62). -/
def bytesBits (bytes : List Byte) : List Bool := bytes.flatMap (fun b => bitsOf 8 b.toNat)

/-- The byte whose stream bits 0 to 7 are `f 0` to `f 7`. -/
def packByte (f : Nat → Bool) : Byte :=
  BitVec.ofBool (f 0) ++ BitVec.ofBool (f 1) ++ BitVec.ofBool (f 2) ++ BitVec.ofBool (f 3) ++
  BitVec.ofBool (f 4) ++ BitVec.ofBool (f 5) ++ BitVec.ofBool (f 6) ++ BitVec.ofBool (f 7)

/-- A bit sequence as bytes, the last byte filled up with zero bits (R35(a), R69). -/
def packBits (bits : List Bool) : List Byte :=
  (List.range (ceil8 bits.length)).map (fun a => packByte (fun i => bits.getD (8 * a + i) false))

/-- The context after `CUR_OPEN_W` and writes of exactly these bits (R24, R144(a)). -/
def writeCursor (bits : List Bool) : Cursor :=
  ⟨packBits bits, bits.length / 8, ⟨bits.length % 8, Nat.mod_lt _ (by decide)⟩, .writing⟩

/-- The bits before the position: in mode W, everything written since the context was opened (R144(a)). -/
def Cursor.written (c : Cursor) : List Bool := (bytesBits c.buf).take c.pos

/-- R24 for one context: the position is inside the buffer or at its very end (so `byte <= len`), and a context in mode
W is exactly what its written bits make it: `len = ceil8(pos)` and every stream bit at or after `pos` is 0 (log 13). -/
def Cursor.wf (c : Cursor) : Bool :=
  decide (c.pos ≤ 8 * c.buf.length) && (decide (c.mode ≠ .writing) || decide (c = writeCursor c.written))

/-- The stored data has its canonical form (log 13): R24 for the five buffers. The word memories `PIX`, `OUT` and `PAL`
are sequences with no form to keep but the bound of R30. -/
def Memory.wf (s : State) : Bool :=
  s.ch.wf && s.cn.wf && s.ct.wf && s.bd.wf && s.fr.wf && decide (s.pal.length ≤ Config.palMax)

end Sys2Proof.Machine
end

