-- ==== Sys2Proof/Machine/Bitstream.lean ====
section
/-! DEFINITION. The `bitstream_cursor` unit: the ten cursor commands (R130 to R141), and `RESET` (R275). -/

namespace Sys2Proof.Machine

/-- `RES <- v` (R25). -/
def State.setRes (s : State) (v : Word) : State := { s with res := v }

/-- `XB <- t` (R25). -/
def State.setXb (s : State) (t : List Byte) : State := { s with xb := t }

/-- The range of the `NB` field (R92); no decoded instruction fails it (log 19). -/
def bitCountLegal (n : BitVec 6) : Bool := decide (n.toNat ≤ Config.nbitsMax)

/-- `RESET` (R275): executed whether or not `FK = 0`. -/
def execReset (s : State) : Out := .next s.leaveFault

/-- `CUR_OPEN_R k` (R141): any mode is accepted (R130). -/
def execCurOpenR (k : CurId) (s : State) : Out := command (fun s => .ok () (openR k s)) s

/-- `CUR_OPEN_W k` (R140): any mode is accepted (R130). -/
def execCurOpenW (k : CurId) (s : State) : Out := command (fun s => .ok () (openW k s)) s

/-- `n` bits of context `k` into `RES` (R91, R133). -/
def readIntoRes (k : CurId) (n : Nat) (s : State) : Res Unit :=
  (rdBits k n s).bind fun v s => .ok () (s.setRes (resultWord v))

/-- `RDBIT k` (R132). -/
def execRdbit (k : CurId) (s : State) : Out :=
  readCommand (Instr.rdbit k).word true k (readIntoRes k 1) s

/-- `RDBITS k, n` (R133). -/
def execRdbits (k : CurId) (n : BitVec 6) (s : State) : Out :=
  readCommand (Instr.rdbits k n).word (bitCountLegal n) k (readIntoRes k n.toNat) s

/-- `RDBYTE k` (R134): eight bit reads. -/
def execRdbyte (k : CurId) (s : State) : Out :=
  readCommand (Instr.rdbyte k).word true k (readIntoRes k 8) s

/-- `RDBYTES k` (R135): `OPD` bytes into `XB`. -/
def execRdbytes (k : CurId) (s : State) : Out :=
  readCommand (Instr.rdbytes k).word true k
    (fun s => (rdBytes k s.opd.toNat s).bind fun t s => .ok () (s.setXb t)) s

/-- `WRBIT k, v` (R136). -/
def execWrbit (k : CurId) (v : Bool) (s : State) : Out :=
  writeCommand (Instr.wrbit k v).word true k (wrBits (Instr.wrbit k v).word k 1 v.toNat) s

/-- `WRBITS k, n` (R137): the low `n` bits of `OPD`, most significant first. -/
def execWrbits (k : CurId) (n : BitVec 6) (s : State) : Out :=
  writeCommand (Instr.wrbits k n).word (bitCountLegal n) k
    (fun s => wrBits (Instr.wrbits k n).word k n.toNat s.opd.toNat s) s

/-- `WRBYTE k, b` (R138): no alignment check. -/
def execWrbyte (k : CurId) (b : Byte) (s : State) : Out :=
  writeCommand (Instr.wrbyte k b).word true k (wrBits (Instr.wrbyte k b).word k 8 b.toNat) s

/-- `WRBYTES k` (R139): the bytes of `XB` in order; `XB` is kept. -/
def execWrbytes (k : CurId) (s : State) : Out :=
  writeCommand (Instr.wrbytes k).word true k
    (fun s => wrSeq (Instr.wrbytes k).word k (groupBits (byteGroups s.xb)) s) s

end Sys2Proof.Machine
end

