-- ==== Sys2Proof/Machine/Palette.lean ====
section
/-! DEFINITION. The `palette_analyzer` unit: `PAL_BUILD` (R160 to R169). -/

namespace Sys2Proof.Machine

/-- `TALLY[j].count + 1` for the entry of colour `p`, if there is one (R161). -/
def bumpTally (p : Pixel) : List TallyEntry → Option (List TallyEntry)
  | [] => none
  | e :: es =>
    if e.colour = p then some ({ e with count := e.count + 1 } :: es)
    else (bumpTally p es).map (e :: ·)

/-- The scan loop of R161 over the pixels still to come, from `TALLY` and `SI`: whether it ran to its end, and the
`TALLY` and `SI` it leaves. It stops at the pixel that would create the 257th entry (R163). -/
def tallyScan : List Pixel → List TallyEntry → Nat → Bool × List TallyEntry × Nat
  | [], t, si => (true, t, si)
  | p :: ps, t, si =>
    if p = Config.sentinel then tallyScan ps t (si + 1)
    else match bumpTally p t with
      | some t' => tallyScan ps t' (si + 1)
      | none => if t.length = Config.palMax then (false, t, si) else tallyScan ps (t ++ [⟨p, 1⟩]) (si + 1)

/-- Put an entry behind every entry whose count is at least its own (R162). -/
def insertByCount (e : TallyEntry) : List TallyEntry → List TallyEntry
  | [] => [e]
  | x :: xs => if x.count < e.count then e :: x :: xs else x :: insertByCount e xs

/-- `StableSortDescendingByCount` (R162): descending count, equal counts in their order in `TALLY`. -/
def sortByCount (t : List TallyEntry) : List TallyEntry := t.foldl (fun acc e => insertByCount e acc) []

/-- `PalBuild()` (R161). `PIX` is scanned whole: its length is `W*H` wherever this is called (R26). -/
def palBuild (s : State) : Res Unit :=
  match tallyScan s.pix [] 0 with
  | (true, t, si) => .ok () { s with tally := t, si := si, pal := (sortByCount t).map (·.colour) }
  | (false, t, si) => raise .tooManyColors si Config.palMax (Config.palMax + 1) { s with tally := t, si := si }

/-- `W*H` as a natural number, never wrapped (R202, D17). -/
def State.area (s : State) : Nat := s.w.toNat * s.h.toNat

/-- `PAL_BUILD` (R161): `Refused` when `|PIX| != W*H` (R26). -/
def execPalBuild (s : State) : Out :=
  command (fun s => if s.pix.length ≠ s.area then refuse Instr.palBuild.word s else palBuild s) s

end Sys2Proof.Machine
end

