-- ==== Sys2Proof/Machine/Decoder.lean ====
section
/-! DEFINITION. The `run_length_decoder` unit: `RLE_DECODE` (R200 to R221) and the six streak-record forms it interprets
(R206 to R211). -/

namespace Sys2Proof.Machine

/-- `OUT <- OUT ++ [col repeated l times]` (R205). -/
def appendRun (l : Nat) (col : Pixel) (s : State) : Res Unit :=
  .ok () { s with out := s.out ++ List.replicate l col }

/-- A run of a favourite colour: `CorruptStream` sub-code 1 when `I >= FAVN` (R205, R213). -/
def favouriteRun (i l : Nat) (s : State) : Res Unit :=
  if favCount s.pal ≤ i then raise .corruptStream 1 (favCount s.pal) i s
  else appendRun l (s.pal.getD i 0) s

/-- A run of a palette colour by its 8-bit index: `CorruptStream` sub-code 2 when `J >= N` (R205, R213). -/
def paletteRun (j l : Nat) (s : State) : Res Unit :=
  if s.pal.length ≤ j then raise .corruptStream 2 s.pal.length j s
  else appendRun l (s.pal.getD j 0) s

/-- The colour of a record and its run: R205 from the line `if c = 1 then`. -/
def recordColour (c f : Bool) (l : Nat) (s : State) : Res Unit :=
  if c then
    if f then (rdBits .bd Config.favIdxBits s).bind fun i s => favouriteRun i l s
    else (rdBits .bd Config.palIdxBits { s with nf := true }).bind fun j s => paletteRun j l s
  else appendRun l Config.sentinel s

/-- `Record()` (R205): count bit, chroma bit, colour-type bit, length, index, in that order (R204, R216). -/
def record (s : State) : Res Unit :=
  (rdBits .cn 1 s).bind fun m s =>
  (rdBits .ch 1 s).bind fun c s =>
  (if c = 1 then rdBits .ct 1 s else .ok 0 s).bind fun f s =>
  (if m = 1 then (rdBits .bd Config.lenBits s).bind fun p s => .ok (lengthOfPayload p) s else .ok 1 s).bind fun l s =>
  recordColour (c == 1) (f == 1) l s

/-- The loop of R201: `n` records, each followed by `RI <- RI + 1`. -/
def decodeLoop : Nat → State → Res Unit
  | 0, s => .ok () s
  | n + 1, s => (record s).bind fun _ s => decodeLoop n { s with ri := s.ri + 1 }

/-- The assignments before the loop (R201, R203): the four streams rewound for reading, `OUT`, `RI`, `NF`. -/
def decodeStart (s : State) : State :=
  { openR .bd (openR .ct (openR .cn (openR .ch s))) with out := [], ri := 0, nf := false }

/-- The terminal condition (R215). -/
def decodeEnd (s : State) : Res Unit :=
  if s.out.length ≠ s.area then raise .corruptStream 0 s.area s.out.length s else .ok () s

/-- `RleDecode()` (R201). -/
def rleDecode (s : State) : Res Unit :=
  (decodeLoop s.sc.toNat (decodeStart s)).bind fun _ s => decodeEnd s

/-- `RLE_DECODE` (R201). -/
def execRleDecode (s : State) : Out := command rleDecode s

/-! ### The record forms as instructions (log 7)

Each form reads exactly the bits R206 to R211 list for it, in the order of R204, and uses the payloads its operands
carry; when the instruction was decoded from the streams (`fetchRecord`) the bits read are those payloads. The
advance of `RI` belongs to the loop of R201, not to the form. -/

/-- Read `n` bits of a stream for their advance and their possible `OutOfRange`. -/
def consume (k : CurId) (n : Nat) (s : State) : Res Unit := (rdBits k n s).bind fun _ s => .ok () s

/-- The field bits of a record: count, chroma, and colour-type when the record is coloured (R204, R212). -/
def consumeFlags (coloured : Bool) (s : State) : Res Unit :=
  (consume .cn 1 s).bind fun _ s =>
  (consume .ch 1 s).bind fun _ s =>
  if coloured then consume .ct 1 s else .ok () s

/-- `ST.T1` (R206). -/
def execStT1 (s : State) : Out :=
  command (fun s => (consumeFlags false s).bind fun _ s => appendRun 1 Config.sentinel s) s

/-- `ST.TR L` (R207). -/
def execStTR (len : BitVec 8) (s : State) : Out :=
  command (fun s => (consumeFlags false s).bind fun _ s => (consume .bd 8 s).bind fun _ s =>
    appendRun (lengthOfPayload len.toNat) Config.sentinel s) s

/-- `ST.F1 I` (R208). -/
def execStF1 (idx : BitVec 4) (s : State) : Out :=
  command (fun s => (consumeFlags true s).bind fun _ s => (consume .bd 4 s).bind fun _ s =>
    favouriteRun idx.toNat 1 s) s

/-- `ST.FR L I` (R209): the length is read before the index. -/
def execStFR (len : BitVec 8) (idx : BitVec 4) (s : State) : Out :=
  command (fun s => (consumeFlags true s).bind fun _ s => (consume .bd 8 s).bind fun _ s =>
    (consume .bd 4 s).bind fun _ s => favouriteRun idx.toNat (lengthOfPayload len.toNat) s) s

/-- `ST.P1 J` (R210): `NF` is set before the index is read, as in R205 (log 20). -/
def execStP1 (idx : BitVec 8) (s : State) : Out :=
  command (fun s => (consumeFlags true s).bind fun _ s => (consume .bd 8 { s with nf := true }).bind fun _ s =>
    paletteRun idx.toNat 1 s) s

/-- `ST.PR L J` (R211): length, then `NF`, then index, as in R205 (log 20). -/
def execStPR (len : BitVec 8) (idx : BitVec 8) (s : State) : Out :=
  command (fun s => (consumeFlags true s).bind fun _ s => (consume .bd 8 s).bind fun _ s =>
    (consume .bd 8 { s with nf := true }).bind fun _ s => paletteRun idx.toNat (lengthOfPayload len.toNat) s) s

/-! ### Fetching a record from the streams (R28, R105) -/

/-- The next `n` bits of a context without moving it; `none` when it holds fewer. -/
def Cursor.peek (n : Nat) (c : Cursor) : Option (List Bool) := (c.rdBits n).1.map (bitsOf n)

/-- The bits of the record that begins at the positions of the four streams (R28); the body width follows from the
flags (R105). `none` when a stream holds fewer bits than the record needs. -/
def nextRecordBits (s : State) : Option RecordBits := do
  let m ← s.cn.peek 1
  let c ← s.ch.peek 1
  if c = [true] then
    let f ← s.ct.peek 1
    let body ← s.bd.peek (recordBodyBits true (m == [true]) (f == [true]))
    return ⟨true, m == [true], some (f == [true]), body⟩
  else
    let body ← s.bd.peek (recordBodyBits false (m == [true]) false)
    return ⟨false, m == [true], none, body⟩

/-- The record instruction at the positions of the four streams. -/
def fetchRecord (s : State) : Option Instr :=
  match nextRecordBits s with
  | none => none
  | some r => (decodeRecord r).toOption

/-- A record whose bits the streams do not all hold: R205 as it stands, which takes `OutOfRange` at the first missing
bit (R216) and keeps the bits before it consumed. -/
def truncatedRecord (s : State) : Out := command record s

end Sys2Proof.Machine
end

