-- ==== Sys2Proof/Machine/Encoder.lean ====
section
/-! DEFINITION. The `run_length_encoder` unit: `RLE_ENCODE` (R175 to R192). -/

namespace Sys2Proof.Machine

/-- `SC <- SC + 1` (R181, R185). From 2^32 - 1 the spec states no result for the 32-bit register: a free value (log 6). -/
def nextStreakCount (s : State) : Word :=
  if s.sc.toNat + 1 < 2 ^ 32 then s.sc + 1 else Config.scPastRange s.pix s.pal s.si

/-- The colour-type bit and the index of a coloured streak (R181 step 3, R182 to R184). -/
def emitColour (cw : Word) (col : Pixel) (s : State) : Res Unit :=
  match palPos col s.pal with
  | none => refuse cw s
  | some j =>
    (wrBits cw .ct 1 (favouriteFlag j).toNat s).bind fun _ s =>
      if favouriteFlag j then wrBits cw .bd Config.favIdxBits j s
      else wrBits cw .bd Config.palIdxBits (nonfavIndex s.params.nonfav s.pal col j).toNat { s with nf := true }

/-- `Emit(col, l)` (R181). -/
def emit (cw : Word) (col : Pixel) (l : Nat) (s : State) : Res Unit :=
  (wrBits cw .ch 1 (chromaFlag col).toNat s).bind fun _ s =>
  (wrBits cw .cn 1 (countFlag l).toNat s).bind fun _ s =>
  (if countFlag l then wrBits cw .bd Config.lenBits (payloadOfLength l) s else .ok () s).bind fun _ s =>
  (if chromaFlag col then emitColour cw col s else .ok () s).bind fun _ s =>
  .ok () { s with sc := nextStreakCount s }

/-- The scan loop of R176 over the pixels still to come. -/
def encodeScan (cw : Word) : List Pixel → State → Res Unit
  | [], s => .ok () s
  | p :: ps, s =>
    if p = s.cc ∧ s.rl.toNat < Config.runMax then
      encodeScan cw ps { s with rl := s.rl + 1, si := s.si + 1 }
    else
      (emit cw s.cc s.rl.toNat s).bind fun _ s =>
        encodeScan cw ps { s with cc := p, rl := 1, si := s.si + 1 }

/-- The assignments before the scan (R176, R38): the four streams opened for writing, `SC`, `NF`, `CC`, `RL`, `SI`. -/
def encodeStart (s : State) : State :=
  { openW .bd (openW .ct (openW .cn (openW .ch s))) with
    sc := 0, nf := false, cc := s.pix.headD 0, rl := 0, si := 0 }

/-- `RleEncode()` (R176), with the checks of R177 and the final flush of R179. -/
def rleEncode (cw : Word) (s : State) : Res Unit :=
  if s.pix.length ≠ s.area ∨ s.area = 0 then refuse cw s
  else (encodeScan cw s.pix (encodeStart s)).bind fun _ t =>
    emit cw (s.pix.getLastD 0) t.rl.toNat t

/-- `RLE_ENCODE` (R176). -/
def execRleEncode (s : State) : Out := command (rleEncode Instr.rleEncode.word) s

end Sys2Proof.Machine
end

