-- ==== Sys2Proof/Machine/Container.lean ====
section
/-! DEFINITION. The `tal_container_framer` unit, `TAL_SERIALIZE` and `TAL_PARSE` (R225 to R246), and the pipelines
`TAL_ENCODE` and `TAL_DECODE` (R250 to R254). -/

namespace Sys2Proof.Machine

/-! ### Serialising -/

/-- A stream buffer of 2^32 bytes or more (R232(c)). -/
def streamTooLong (s : State) : Bool :=
  decide (2 ^ 32 ≤ s.ch.buf.length) || decide (2 ^ 32 ≤ s.cn.buf.length) ||
  decide (2 ^ 32 ≤ s.ct.buf.length) || decide (2 ^ 32 ≤ s.bd.buf.length)

/-- The groups `TalSerialize` writes before it sets the length registers (R231): signature, version, `W`, `H`, `N`, `PAL`. -/
def headerGroups (s : State) : List (Nat × Nat) :=
  byteGroups Config.signature ++ byteGroups [Config.version] ++
  [(32, s.w.toNat), (32, s.h.toNat), (8, s.pal.length)] ++ s.pal.map (fun p => (32, p.toNat))

/-- `LCH <- |cur[0].buf|`, `LCN <- |cur[1].buf|`, `LCT <- |cur[2].buf|` (R231). -/
def State.setLengths (s : State) : State :=
  { s with
    lch := BitVec.ofNat 32 s.ch.buf.length
    lcn := BitVec.ofNat 32 s.cn.buf.length
    lct := BitVec.ofNat 32 s.ct.buf.length }

/-- The groups `TalSerialize` writes after the length registers are set (R231): `LCH`, `LCN`, `LCT`, `SC` and the four
streams' bytes. -/
def payloadGroups (s : State) : List (Nat × Nat) :=
  [(32, s.lch.toNat), (32, s.lcn.toNat), (32, s.lct.toNat), (32, s.sc.toNat)] ++
  byteGroups s.ch.buf ++ byteGroups s.cn.buf ++ byteGroups s.ct.buf ++ byteGroups s.bd.buf

/-- `TalSerialize()` (R231), checks in the order of R253. -/
def talSerialize (cw : Word) (s : State) : Res Unit :=
  if Config.dimMax < s.w.toNat then raise .imageSize 1 Config.dimMax s.w.toNat s
  else if Config.dimMax < s.h.toNat then raise .imageSize 2 Config.dimMax s.h.toNat s
  else if Config.frameMax < s.pal.length then refuse cw s
  else if streamTooLong s then refuse cw s
  else
    (wrSeq cw .fr (groupBits (headerGroups s)) (openW .fr s)).bind fun _ s =>
      wrSeq cw .fr (groupBits (payloadGroups s.setLengths)) s.setLengths

/-- `TAL_SERIALIZE` (R231). -/
def execTalSerialize (s : State) : Out := command (talSerialize Instr.talSerialize.word) s

/-! ### Parsing -/

/-- The palette entries of a container (R236): `n` colours from offset 13. -/
def parsePalette (b : List Byte) (n : Nat) : List Pixel := (List.range n).map (fun j => be32At b (13 + 4 * j))

/-- `TalParse()` (R236), checks in the order of R253; the commit comes last. -/
def talParse (s0 : State) : Res Unit :=
  let s := openR .fr s0
  let b := s.fr.buf
  let f := b.length
  if f < Config.minFile then raise .imageSize 0 Config.minFile f s
  else if slice b 0 3 ≠ Config.signature then
    raise .unrecognizedSignature 0 0x080903
      ((byteAt b 0).toNat * 65536 + (byteAt b 1).toNat * 256 + (byteAt b 2).toNat) s
  else if byteAt b 3 ≠ Config.version then raise .versionMismatch 0 1 (byteAt b 3).toNat s
  else
    let w := be32At b 4
    let h := be32At b 8
    if Config.dimMax < w.toNat then raise .imageSize 1 Config.dimMax w.toNat s
    else if Config.dimMax < h.toNat then raise .imageSize 2 Config.dimMax h.toNat s
    else
      let n := (byteAt b 12).toNat
      let o0 := 29 + 4 * n
      if f < o0 then raise .corruptStream 3 o0 f s
      else
        let lch := be32At b (13 + 4 * n)
        let lcn := be32At b (17 + 4 * n)
        let lct := be32At b (21 + 4 * n)
        let sc := be32At b (25 + 4 * n)
        let o1 := o0 + lch.toNat
        let o2 := o1 + lcn.toNat
        let o3 := o2 + lct.toNat
        if f < o3 then raise .corruptStream 4 o3 f s
        else if lch.toNat < ceil8 sc.toNat then raise .corruptStream 5 (ceil8 sc.toNat) lch.toNat s
        else if lcn.toNat < ceil8 sc.toNat then raise .corruptStream 6 (ceil8 sc.toNat) lcn.toNat s
        else
          .ok () { s with
            w := w, h := h, pal := parsePalette b n, lch := lch, lcn := lcn, lct := lct, sc := sc
            ch := Cursor.loaded (slice b o0 lch.toNat)
            cn := Cursor.loaded (slice b o1 lcn.toNat)
            ct := Cursor.loaded (slice b o2 lct.toNat)
            bd := Cursor.loaded (b.drop o3) }

/-- `TAL_PARSE` (R236). -/
def execTalParse (s : State) : Out := command talParse s

/-! ### The pipelines -/

/-- The body of `TAL_ENCODE` (R250), checks in the order of R253. -/
def talEncode (cw : Word) (s : State) : Res Unit :=
  if Config.dimMax < s.w.toNat then raise .imageSize 1 Config.dimMax s.w.toNat s
  else if Config.dimMax < s.h.toNat then raise .imageSize 2 Config.dimMax s.h.toNat s
  else if s.pix.length ≠ s.area ∨ s.area = 0 then refuse cw s
  else
    (palBuild { s with nf := false }).bind fun _ s =>
    (rleEncode cw s).bind fun _ s =>
    talSerialize cw s

/-- `TAL_ENCODE` (R250). -/
def execTalEncode (s : State) : Out := command (talEncode Instr.talEncode.word) s

/-- The body of `TAL_DECODE` (R251). -/
def talDecode (s : State) : Res Unit :=
  (talParse { s with nf := false }).bind fun _ s => rleDecode s

/-- `TAL_DECODE` (R251). -/
def execTalDecode (s : State) : Out := command talDecode s

end Sys2Proof.Machine
end

