-- ==== Sys2Proof/Machine/Dispatch.lean ====
section
/-! DEFINITION. One arm per instruction: each a direct call of its own meaning. -/

namespace Sys2Proof.Machine

def exec (i : Instr) (s : State) : Host.Outcome State Fault Refusal :=
  match i with
  | .reset => Sys2Proof.Machine.execReset s
  | .curOpenR k => Sys2Proof.Machine.execCurOpenR k s
  | .curOpenW k => Sys2Proof.Machine.execCurOpenW k s
  | .rdbit k => Sys2Proof.Machine.execRdbit k s
  | .rdbits k n => Sys2Proof.Machine.execRdbits k n s
  | .rdbyte k => Sys2Proof.Machine.execRdbyte k s
  | .rdbytes k => Sys2Proof.Machine.execRdbytes k s
  | .wrbit k v => Sys2Proof.Machine.execWrbit k v s
  | .wrbits k n => Sys2Proof.Machine.execWrbits k n s
  | .wrbyte k b => Sys2Proof.Machine.execWrbyte k b s
  | .wrbytes k => Sys2Proof.Machine.execWrbytes k s
  | .palBuild => Sys2Proof.Machine.execPalBuild s
  | .rleEncode => Sys2Proof.Machine.execRleEncode s
  | .rleDecode => Sys2Proof.Machine.execRleDecode s
  | .talSerialize => Sys2Proof.Machine.execTalSerialize s
  | .talParse => Sys2Proof.Machine.execTalParse s
  | .talEncode => Sys2Proof.Machine.execTalEncode s
  | .talDecode => Sys2Proof.Machine.execTalDecode s
  | .stT1 => Sys2Proof.Machine.execStT1 s
  | .stTR len => Sys2Proof.Machine.execStTR len s
  | .stF1 idx => Sys2Proof.Machine.execStF1 idx s
  | .stFR len idx => Sys2Proof.Machine.execStFR len idx s
  | .stP1 idx => Sys2Proof.Machine.execStP1 idx s
  | .stPR len idx => Sys2Proof.Machine.execStPR len idx s

end Sys2Proof.Machine
end

