-- ==== Sys2Proof/Machine/HostSide.lean ====
section
/-! DEFINITION. The host's side of the interface: its writes (R40) and the hardware reset input (R300). -/

namespace Sys2Proof.Machine

/-- A host write to `cur[k].buf` also rewinds and closes the context (R40). -/
def hostBuffer (k : CurId) (bytes : List Byte) (s : State) : State := s.setCur k ⟨bytes, 0, 0, .closed⟩

/-- A host write (R40; the writes R40 forbids have no form, log 12). It takes effect whatever `FK` holds (log 11). More than 256 palette entries the host may not
supply, and no effect is given: refused (log 10). -/
def hostWrite (w : HostWrite) (s : State) : Out :=
  match w with
  | .opd v => .next { s with opd := v }
  | .xb bytes => .next { s with xb := bytes }
  | .w v => .next { s with w := v }
  | .h v => .next { s with h := v }
  | .pix pixels => .next { s with pix := pixels }
  | .pal pixels =>
    if Config.palMax < pixels.length then .refused .hostPaletteTooLong else .next { s with pal := pixels }
  | .sc v => .next { s with sc := v }
  | .buf k bytes => .next (hostBuffer k bytes s)

/-- The hardware reset input: the same reset state as `RESET` (R300). -/
def hardReset (s : State) : Out := .next s.leaveFault

end Sys2Proof.Machine
end

