-- ==== Sys2Proof/Machine/Fetch.lean ====
section
/-! DEFINITION. From an item of the inbox to a transition: a command word is decoded and run, a record is fetched from the
four streams and run, a host write or a reset is performed. -/

namespace Sys2Proof.Machine

/-- Issue a command word (R90, R95): run the command it encodes, or treat it as illegal (R94). -/
def issue (cw : Word) (s : State) : Out :=
  match decode (.command cw) with
  | .ok i => exec i s
  | .error _ => illegalWord cw s

/-- Run the record at the positions of the four streams (log 7). -/
def runRecord (s : State) : Out :=
  match fetchRecord s with
  | some i => exec i s
  | none => truncatedRecord s

/-- What one item of the inbox does (R20, R40, R300). -/
def perform (a : HostAction) (s : State) : Out :=
  match a with
  | .command cw => issue cw s
  | .write w => hostWrite w s
  | .hardReset => hardReset s
  | .record => runRecord s

/-- The four streams holding exactly one record's bits, rewound (log 8); a stream the record gives no bit is empty. -/
def loadRecord (r : RecordBits) (s : State) : State :=
  { s with
    ch := Cursor.loaded (packBits [r.ch])
    cn := Cursor.loaded (packBits [r.cn])
    ct := Cursor.loaded (packBits r.ct.toList)
    bd := Cursor.loaded (packBits r.bd) }

/-- Place an encoded instruction where the next step takes it from: a command word at the head of the inbox, a record
in the streams with a record step at the head of the inbox. -/
def placeNext (e : Encoded) (s : State) : State :=
  match e with
  | .command cw => { s with inbox := .command cw :: s.inbox }
  | .record r => { loadRecord r s with inbox := .record :: s.inbox }

end Sys2Proof.Machine
end

