-- ==== Sys2Proof/Machine/Step.lean ====
section
/-! DEFINITION. One step of the machine, and where a test places its next instruction. -/

namespace Sys2Proof.Machine

/-- One step: the first item of the inbox is taken off and performed, as one atomic transition (R14, R20). With nothing
in the inbox the block is idle and keeps its state (R301; log 2). There is no time in the model (log 18). -/
def step (s : State) : Host.Outcome State Fault Refusal :=
  match s.inbox with
  | [] => .next s
  | a :: rest => perform a { s with inbox := rest }

/-- `s` with a table row's bits placed so that the next step runs exactly that instruction (log 1, log 8). -/
def State.withFetchWord (s : State) (nbits w : Nat) : State := placeNext (encodedOfNumber nbits w) s

end Sys2Proof.Machine
end

