-- ==== Sys2Proof/Safety.lean ====
section
/-! DEFINITION. What counts as a safe state, and the vocabulary the claims use: positions and bits of a context, the
invariant, the table of legal words, streaks and their records, and the container layout. -/

namespace Sys2Proof.Machine

/-! ### Contexts -/

/-- The bits of a context's buffer from its position on. -/
def Cursor.rest (c : Cursor) : List Bool := (bytesBits c.buf).drop c.pos

/-- `c` with the position moved to `p`. -/
def Cursor.at (c : Cursor) (p : Nat) : Cursor :=
  { c with byte := p / 8, bit := ⟨p % 8, Nat.mod_lt _ (by decide)⟩ }

/-- How many of `m` more bits fit behind `n` written bits (R146): all of them when the capacity is unbounded. -/
def roomFor (cap : Option Nat) (n m : Nat) : Nat :=
  match cap with
  | none => m
  | some b => min m (8 * max b (ceil8 n) - n)

/-! ### The invariant -/

/-- What every reachable state satisfies: the stored data has its canonical form (R24, R30), `TALLY` holds at most 256
entries, of distinct non-zero colours with positive counts (R31), `RL <= 256` (R29), `FK` holds a code the block can
raise (R262, R263), and `INFO` is the reset value while no fault has been taken (R34, R37). -/
structure StateInv (s : State) : Prop where
  memory : Memory.wf s = true
  tallySize : s.tally.length ≤ 256
  tallyEntries : ∀ e ∈ s.tally, e.colour ≠ 0 ∧ 0 < e.count
  tallyDistinct : (s.tally.map (·.colour)).Nodup
  runLength : s.rl.toNat ≤ 256
  faultCode : s.fk.toNat ≤ 8 ∧ s.fk ≠ 2
  infoAtReset : s.fk = 0 → s.info = ⟨0, 0, 0⟩

/-- R37's table: the value every piece of the spec's state has after reset. -/
def resetValues (s : State) : Prop :=
  (∀ k, (s.cur k).buf = [] ∧ (s.cur k).byte = 0 ∧ (s.cur k).bit = 0 ∧ (s.cur k).mode = .closed) ∧
  s.opd = 0 ∧ s.res = 0 ∧ s.xb = [] ∧ s.w = 0 ∧ s.h = 0 ∧ s.pix = [] ∧ s.out = [] ∧ s.si = 0 ∧ s.ri = 0 ∧ s.cc = 0 ∧
  s.rl = 0 ∧ s.pal = [] ∧ s.tally = [] ∧ s.sc = 0 ∧ s.lch = 0 ∧ s.lcn = 0 ∧ s.lct = 0 ∧ s.nf = false ∧ s.fk = 0 ∧
  s.info = ⟨0, 0, 0⟩

/-! ### Legal command words (R92, R93) -/

/-- The rows of R93 as (match, mask). -/
def commandRows : List (Word × Word) :=
  [(0x01000000#32, 0xFFFFFFFF#32), (0x10000000#32, 0xFF1FFFFF#32), (0x11000000#32, 0xFF1FFFFF#32),
   (0x12000000#32, 0xFF1FFFFF#32), (0x13000000#32, 0xFF007FFF#32), (0x14000000#32, 0xFF1FFFFF#32),
   (0x15000000#32, 0xFF1FFFFF#32), (0x16000000#32, 0xFF1FFFFE#32), (0x17000000#32, 0xFF007FFF#32),
   (0x18000000#32, 0xFF1FFF00#32), (0x19000000#32, 0xFF1FFFFF#32), (0x20000000#32, 0xFFFFFFFF#32),
   (0x30000000#32, 0xFFFFFFFF#32), (0x40000000#32, 0xFFFFFFFF#32), (0x50000000#32, 0xFFFFFFFF#32),
   (0x51000000#32, 0xFFFFFFFF#32), (0x60000000#32, 0xFFFFFFFF#32), (0x61000000#32, 0xFFFFFFFF#32)]

/-- A word selects a row when `CW & mask = match` (R93). -/
def selects (w : Word) (row : Word × Word) : Bool := decide (w &&& row.2 = row.1)

/-- R92, R93: a legal word selects a row and has `K <= 4` and `NB <= 32` (both 0 in a row that does not use them). -/
def legalWord (w : Word) : Bool :=
  commandRows.any (selects w) && decide ((w >>> 21).toNat % 8 ≤ 4) && decide ((w >>> 15).toNat % 64 ≤ 32)

/-- R92's table, field by field: `OP` one of the 18, every unused field 0, every used field in range. -/
def legalFields (w : Word) : Bool :=
  let op := (w >>> 24).toNat
  let k := (w >>> 21).toNat % 8
  let nb := (w >>> 15).toNat % 64
  let rsv := (w >>> 8).toNat % 128
  let imm := w.toNat % 256
  decide (rsv = 0 ∧
    (op ∈ [0x01, 0x20, 0x30, 0x40, 0x50, 0x51, 0x60, 0x61] ∧ k = 0 ∧ nb = 0 ∧ imm = 0 ∨
     op ∈ [0x10, 0x11, 0x12, 0x14, 0x15, 0x19] ∧ k ≤ 4 ∧ nb = 0 ∧ imm = 0 ∨
     op ∈ [0x13, 0x17] ∧ k ≤ 4 ∧ nb ≤ 32 ∧ imm = 0 ∨
     op = 0x16 ∧ k ≤ 4 ∧ nb = 0 ∧ imm ≤ 1 ∨
     op = 0x18 ∧ k ≤ 4 ∧ nb = 0))

/-! ### What commands may do (R39, R262) -/

/-- The capacity is unbounded or at least `n` bytes (R146). -/
def capAtLeast (s : State) (n : Nat) : Prop := ∀ b, s.params.bufCap = some b → n ≤ b

/-- The fault codes an instruction can leave, by R262's column "raised by"; 8 where R264 names the command. -/
def faultsOf : Instr → List (BitVec 4)
  | .reset | .curOpenR _ | .curOpenW _ => []
  | .rdbit _ | .rdbits _ _ | .rdbyte _ | .rdbytes _ => [7, 8]
  | .wrbit _ _ | .wrbits _ _ | .wrbyte _ _ | .wrbytes _ => [8]
  | .palBuild => [1, 8]
  | .rleEncode => [8]
  | .rleDecode => [6, 7]
  | .talSerialize => [5, 8]
  | .talParse => [3, 4, 5, 6]
  | .talEncode => [1, 5, 8]
  | .talDecode => [3, 4, 5, 6, 7]
  | .stT1 | .stTR _ => [7]
  | .stF1 _ | .stFR _ _ | .stP1 _ | .stPR _ _ => [6, 7]

/-- The context a cursor write command writes to, and how many bits (R72). -/
def writeExtent (s : State) : Instr → Option (CurId × Nat)
  | .wrbit k _ => some (k, 1)
  | .wrbits k n => some (k, n.toNat)
  | .wrbyte k _ => some (k, 8)
  | .wrbytes k => some (k, 8 * s.xb.length)
  | .reset | .curOpenR _ | .curOpenW _ | .rdbit _ | .rdbits _ _ | .rdbyte _ | .rdbytes _ | .palBuild | .rleEncode
  | .rleDecode | .talSerialize | .talParse | .talEncode | .talDecode | .stT1 | .stTR _ | .stF1 _ | .stFR _ _
  | .stP1 _ | .stPR _ _ => none

/-- The instructions that only read the byte buffers (R39, R74, R82). -/
def readsBuffersOnly : Instr → Bool
  | .curOpenR _ | .rdbit _ | .rdbits _ _ | .rdbyte _ | .rdbytes _ | .palBuild | .rleDecode | .stT1 | .stTR _ | .stF1 _
  | .stFR _ _ | .stP1 _ | .stPR _ _ => true
  | .reset | .curOpenW _ | .wrbit _ _ | .wrbits _ _ | .wrbyte _ _ | .wrbytes _ | .rleEncode | .talSerialize | .talParse
  | .talEncode | .talDecode => false

/-- Issue `RDBITS k, n` for each `n` in turn and collect the bits each leaves in `RES` (R144(b): "in any grouping"). -/
def readGroups (k : CurId) : List (BitVec 6) → State → Option (List Bool × State)
  | [], s => some ([], s)
  | n :: ns, s =>
    match exec (.rdbits k n) s with
    | .next t => (readGroups k ns t).map (fun r => (bitsOf n.toNat t.res.toNat ++ r.1, r.2))
    | .fault _ => none
    | .refused _ => none

/-! ### Rasters, streaks and records -/

/-- The number of distinct non-zero colours of a raster (R163). -/
def colourCount (pix : List Pixel) : Nat := (pix.filter (fun p => decide (p ≠ 0))).dedup.length

/-- The pixels a sequence of streaks stands for (R16, R189(b)). -/
def expand (streaks : List (Pixel × Nat)) : List Pixel := streaks.flatMap (fun r => List.replicate r.2 r.1)

/-- Lengths 1 to 256, and two neighbours share a colour only when the first has length 256 (R100, R187, R189(c)). -/
def MaximalStreaks (streaks : List (Pixel × Nat)) : Prop :=
  (∀ r ∈ streaks, 1 ≤ r.2 ∧ r.2 ≤ 256) ∧ streaks.IsChain (fun a b => a.1 = b.1 → a.2 = 256)

/-- The record form of a streak against a palette, by R101's table: transparent, favourite (position below 16) or
non-favourite with the index `NONFAV_INDEX` gives (R102 to R104). -/
def streakRecord (table : List Config.NonfavEntry) (pal : List Pixel) (streak : Pixel × Nat) : Instr :=
  let l := BitVec.ofNat 8 streak.2
  let j := pal.idxOf streak.1
  if streak.1 = 0 then (if streak.2 = 1 then .stT1 else .stTR l)
  else if j < 16 then (if streak.2 = 1 then .stF1 (BitVec.ofNat 4 j) else .stFR l (BitVec.ofNat 4 j))
  else
    let x := nonfavIndex table pal streak.1 j
    if streak.2 = 1 then .stP1 x else .stPR l x

/-- The record bits of a sequence of record instructions, in order (R100, R101). -/
def recordBitsOf (records : List Instr) : List RecordBits :=
  records.filterMap (fun i => match encode i with | .record r => some r | .command _ => none)

/-- The chroma field of a sequence of records (R100). -/
def chromaBits (records : List Instr) : List Bool := (recordBitsOf records).map (·.ch)
/-- The count field of a sequence of records (R100). -/
def countBits (records : List Instr) : List Bool := (recordBitsOf records).map (·.cn)
/-- The colour-type field of a sequence of records: a bit per coloured record (R100). -/
def colourTypeBits (records : List Instr) : List Bool := (recordBitsOf records).filterMap (·.ct)
/-- The body of a sequence of records (R100). -/
def bodyBits (records : List Instr) : List Bool := (recordBitsOf records).flatMap (·.bd)

/-- A streak record whose index addresses a colour of the palette (R213); false for a command. -/
def recordFits (pal : List Pixel) : Instr → Bool
  | .stT1 | .stTR _ => true
  | .stF1 i | .stFR _ i => decide (i.toNat < favCount pal)
  | .stP1 j | .stPR _ j => decide (j.toNat < pal.length)
  | .reset | .curOpenR _ | .curOpenW _ | .rdbit _ | .rdbits _ _ | .rdbyte _ | .rdbytes _ | .wrbit _ _ | .wrbits _ _
  | .wrbyte _ _ | .wrbytes _ | .palBuild | .rleEncode | .rleDecode | .talSerialize | .talParse | .talEncode
  | .talDecode => false

/-- The pixels a record stands for (R206 to R211); none for a command. -/
def recordPixels (pal : List Pixel) : Instr → List Pixel
  | .stT1 => [0]
  | .stTR l => List.replicate (lengthOfPayload l.toNat) 0
  | .stF1 i => [pal.getD i.toNat 0]
  | .stFR l i => List.replicate (lengthOfPayload l.toNat) (pal.getD i.toNat 0)
  | .stP1 j => [pal.getD j.toNat 0]
  | .stPR l j => List.replicate (lengthOfPayload l.toNat) (pal.getD j.toNat 0)
  | .reset | .curOpenR _ | .curOpenW _ | .rdbit _ | .rdbits _ _ | .rdbyte _ | .rdbytes _ | .wrbit _ _ | .wrbits _ _
  | .wrbyte _ _ | .wrbytes _ | .palBuild | .rleEncode | .rleDecode | .talSerialize | .talParse | .talEncode
  | .talDecode => []

/-- A record of a non-favourite colour, the kind that sets `NF` (R33(b), R221). -/
def isNonFavourite : Instr → Bool
  | .stP1 _ | .stPR _ _ => true
  | .reset | .curOpenR _ | .curOpenW _ | .rdbit _ | .rdbits _ _ | .rdbyte _ | .rdbytes _ | .wrbit _ _ | .wrbits _ _
  | .wrbyte _ _ | .wrbytes _ | .palBuild | .rleEncode | .rleDecode | .talSerialize | .talParse | .talEncode
  | .talDecode | .stT1 | .stTR _ | .stF1 _ | .stFR _ _ => false

/-! ### The container (R110) -/

/-- `BE32(B[a..a+4))` as the number of R12. -/
def be32Nat (b : List Byte) (a : Nat) : Nat :=
  (b.getD a 0).toNat * 2 ^ 24 + (b.getD (a + 1) 0).toNat * 2 ^ 16 + (b.getD (a + 2) 0).toNat * 2 ^ 8 +
  (b.getD (a + 3) 0).toNat

/-- The bytes of a container, field by field in the layout of R110. -/
def containerBytes (w h : Word) (pal : List Pixel) (sc : Word) (ch cn ct bd : List Byte) : List Byte :=
  [0x08#8, 0x09#8, 0x03#8, 0x01#8] ++ be32 w ++ be32 h ++ [BitVec.ofNat 8 pal.length] ++ pal.flatMap be32 ++
  be32 (BitVec.ofNat 32 ch.length) ++ be32 (BitVec.ofNat 32 cn.length) ++ be32 (BitVec.ofNat 32 ct.length) ++
  be32 sc ++ ch ++ cn ++ ct ++ bd

end Sys2Proof.Machine
end

