-- ==== Sys2Proof/Certificates/Slice0/Obligations.lean ====
section
/-! DEFINITION. The statements for the provers. `R<n>` are the numbered rules of spec/; "log <n>" is a row of the
assumption log. A fault of the block (R262) is a next state with `FK` set; the codes are written as numbers here. -/

open Sys2Proof Sys2Proof.Machine

/-! ### Encoding -/

/-- Decode and encode agree on every well-formed instruction, commands and records, at every operand value (R90 to R93, R101). -/
def Obligations.DecodeUndoesEncode : Prop :=
  ∀ i : Instr, i.wellFormed = true → decode (encode i) = .ok i

/-- R95: every word is exactly one command or illegal, and no word matches two rows of R93. -/
def Obligations.CommandWordsDecodeUniquely : Prop :=
  (∀ w : Word,
    (legalWord w = true → ∃ i, decode (.command w) = .ok i ∧ i.wellFormed = true ∧ encode i = .command w ∧
      ∀ j, j.wellFormed = true → encode j = .command w → j = i) ∧
    (legalWord w = false → ∃ e, decode (.command w) = .error e) ∧
    (∀ r ∈ commandRows, ∀ q ∈ commandRows, selects w r = true → selects w q = true → r = q)) ∧
  (commandRows.map (fun r : Word × Word => r.1 >>> (24 : Nat))).Nodup

/-- R100, R101, R105, R106: exactly the bit patterns with a colour-type bit when coloured and the body width of R105 are
records, and each is one form with its payloads kept. -/
def Obligations.RecordFormsDecodeUniquely : Prop :=
  ∀ r : RecordBits,
    (r.ct.isSome = r.ch → r.bd.length = recordBodyBits r.ch r.cn (r.ct.getD false) →
      ∃ i, decode (.record r) = .ok i) ∧
    (∀ i, decode (.record r) = .ok i →
      encode i = .record r ∧ r.ct.isSome = r.ch ∧ r.bd.length = recordBodyBits r.ch r.cn (r.ct.getD false))

/-- A few words written out from R90 and R93, and two records from R101 (a sanity statement). -/
def Obligations.WrittenOutWordsDecode : Prop :=
  decode (.command 0x01000000#32) = .ok .reset ∧
  decode (.command 0x10600000#32) = .ok (.curOpenR .bd) ∧
  decode (.command 0x138C0000#32) = .ok (.rdbits .fr 24#6) ∧
  decode (.command 0x16600001#32) = .ok (.wrbit .bd true) ∧
  decode (.command 0x1880002C#32) = .ok (.wrbyte .fr 0x2C#8) ∧
  decode (.command 0x20000000#32) = .ok .palBuild ∧
  decode (.command 0x61000000#32) = .ok .talDecode ∧
  decode (.command 0x11A00000#32) = .error .contextOutOfRange ∧
  decode (.record ⟨true, true, some true,
    [false, false, false, false, true, false, false, false, false, false, false, true]⟩) = .ok (.stFR 8#8 1#4) ∧
  decode (.record ⟨true, false, some false, [false, false, false, true, false, false, false, false]⟩) =
    .ok (.stP1 16#8)

/-! ### Steps -/

/-- A step runs the decoded instruction, with the item taken off the inbox (the model's own interface, log 1, log 2 and
log 7): a command word at the head of the inbox, or the record at the positions of the four streams. -/
def Obligations.StepRunsTheDecodedInstruction : Prop :=
  (∀ (s : State) (cw : Word) (i : Instr) (rest : List HostAction), s.inbox = .command cw :: rest → decode (.command cw) = .ok i →
    step s = exec i { s with inbox := rest }) ∧
  (∀ (s : State) (i : Instr) (rest : List HostAction), s.inbox = .record :: rest → fetchRecord { s with inbox := rest } = some i →
    step s = exec i { s with inbox := rest }) ∧
  (∀ s : State, s.inbox = [] → step s = .next s)

/-- R94: a word with a reserved opcode, a set reserved or unused field or a field out of range takes fault kind 8 and
changes nothing else; while a fault stands it is ignored (R130 (1)). -/
def Obligations.IllegalWordIsRefused : Prop :=
  ∀ (s : State) (cw : Word) (rest : List HostAction), s.inbox = .command cw :: rest → legalFields cw = false →
    step s = .next (if s.fk = 0 then { s with inbox := rest, fk := 8, info := ⟨0, 0, cw.toNat⟩ }
      else { s with inbox := rest })

/-- Every step that goes on takes exactly the first item off the inbox and never changes the open parameters (the model's
own two fields: log 1, log 4, log 5). -/
def Obligations.StepTakesOneAction : Prop :=
  ∀ s t : State, step s = .next t → t.inbox = s.inbox.tail ∧ t.params = s.params

/-- R40: what each host write does; a buffer write also rewinds and closes its context. That a write takes effect whatever
`FK` holds is the model's reading (DEDUCED, log 11), and that more than 256 palette entries are refused is the model's
choice (log 10). -/
def Obligations.HostWritesTakeEffect : Prop :=
  ∀ (s : State) (rest : List HostAction),
    (∀ v, step { s with inbox := .write (.opd v) :: rest } = .next { s with inbox := rest, opd := v }) ∧
    (∀ b, step { s with inbox := .write (.xb b) :: rest } = .next { s with inbox := rest, xb := b }) ∧
    (∀ v, step { s with inbox := .write (.w v) :: rest } = .next { s with inbox := rest, w := v }) ∧
    (∀ v, step { s with inbox := .write (.h v) :: rest } = .next { s with inbox := rest, h := v }) ∧
    (∀ p, step { s with inbox := .write (.pix p) :: rest } = .next { s with inbox := rest, pix := p }) ∧
    (∀ p, step { s with inbox := .write (.pal p) :: rest } =
      if p.length ≤ 256 then .next { s with inbox := rest, pal := p } else .refused .hostPaletteTooLong) ∧
    (∀ v, step { s with inbox := .write (.sc v) :: rest } = .next { s with inbox := rest, sc := v }) ∧
    (∀ k b, step { s with inbox := .write (.buf k b) :: rest } =
      .next (State.setCur { s with inbox := rest } k ⟨b, 0, 0, .closed⟩))

/-! ### Reset and faults -/

/-- R37, R300: after hardware reset and after the `RESET` command every piece of the spec's state has its reset value, and
`State.reset` is such a state; the two inputs leave the same state. -/
def Obligations.ResetStateValues : Prop :=
  resetValues State.reset ∧
  (∀ s : State, ∃ t, exec .reset s = .next t ∧ resetValues t) ∧
  (∀ (s : State) (rest : List HostAction), s.inbox = .hardReset :: rest → ∃ t, step s = .next t ∧ resetValues t ∧
    step { s with inbox := .command 0x01000000#32 :: rest } = .next t)

/-- R275: `RESET` gives the reset state whatever `FK` holds (the model's own `params` and `inbox` stay, log 16), its word
is 0x01000000, and any other word with `OP = 0x01` is not `RESET`: `Refused` with `FK = 0`, ignored otherwise. -/
def Obligations.ResetCommandRestoresReset : Prop :=
  (∀ s, exec .reset s = .next { State.reset with params := s.params, inbox := s.inbox }) ∧
  decode (.command 0x01000000#32) = .ok .reset ∧
  (∀ (s : State) (cw : Word) (rest : List HostAction), s.inbox = .command cw :: rest → cw >>> (24 : Nat) = 1#32 → cw ≠ 0x01000000#32 →
    step s = .next (if s.fk = 0 then { s with inbox := rest, fk := 8, info := ⟨0, 0, cw.toNat⟩ }
      else { s with inbox := rest }))

/-- R271: while `FK != 0` every command word but `RESET`, legal or not, changes nothing. That the record forms, as
instructions of their own, are silent then too is the model's choice (log 7), and so is it that `RESET` keeps the model's
own `params` and inbox (DEDUCED, log 16). -/
def Obligations.FaultIsSticky : Prop :=
  (∀ (s : State) (cw : Word) (rest : List HostAction), s.inbox = .command cw :: rest → s.fk ≠ 0 →
    step s = .next (if cw = 0x01000000#32 then { State.reset with params := s.params, inbox := rest }
      else { s with inbox := rest })) ∧
  (∀ (i : Instr) (s : State), i ≠ .reset → s.fk ≠ 0 → exec i s = .next s)

/-- R34: no step but `RESET` and the hardware reset input changes a non-zero `FK` or its `INFO`; host writes do not. -/
def Obligations.OnlyResetLeavesAFault : Prop :=
  ∀ s t : State, step s = .next t → s.fk ≠ 0 →
    (t.fk = s.fk ∧ t.info = s.info) ∨
    s.inbox.head? = some (.command 0x01000000#32) ∨ s.inbox.head? = some .hardReset

/-- R262, R264: an instruction leaves no fault or one of the kinds the table lists for it. -/
def Obligations.FaultKindsByCommand : Prop :=
  ∀ (i : Instr) (s t : State), s.fk = 0 → exec i s = .next t → t.fk = 0 ∨ t.fk ∈ faultsOf i

/-- R263: no step sets `FK = 2`. -/
def Obligations.NeverRaisesFileAlreadyExists : Prop :=
  ∀ s t : State, step s = .next t → s.fk ≠ 2 → t.fk ≠ 2

/-! ### The cursor commands -/

/-- R141: `CUR_OPEN_R` rewinds in mode R and keeps the buffer, from any mode; nothing else changes; with a fault standing
it is ignored. -/
def Obligations.OpenForReadingRewinds : Prop :=
  ∀ (k : CurId) (s : State), exec (.curOpenR k) s =
    .next (if s.fk = 0 then s.setCur k { s.cur k with byte := 0, bit := 0, mode := .reading } else s)

/-- R140: `CUR_OPEN_W` empties and rewinds in mode W, from any mode; nothing else changes; with a fault standing it is
ignored. -/
def Obligations.OpenForWritingEmpties : Prop :=
  ∀ (k : CurId) (s : State), exec (.curOpenW k) s = .next (if s.fk = 0 then s.setCur k ⟨[], 0, 0, .writing⟩ else s)

/-- R132: `RDBIT` puts the bit at `pos` (most significant bit of a byte first) into `RES` and advances by one; past the
end it raises `OutOfRange` and nothing else changes; in another mode it is `Refused`; with a fault standing it is
ignored. -/
def Obligations.RdbitReadsOneBit : Prop :=
  ∀ (k : CurId) (s : State), (s.fk ≠ 0 → exec (.rdbit k) s = .next s) ∧ (s.fk = 0 →
    (∀ b, (s.cur k).mode = .reading → (bytesBits (s.cur k).buf)[(s.cur k).pos]? = some b →
      exec (.rdbit k) s =
        .next { s.setCur k ((s.cur k).at ((s.cur k).pos + 1)) with res := if b then 1 else 0 }) ∧
    ((s.cur k).mode = .reading → (s.cur k).buf.length ≤ (s.cur k).byte →
      exec (.rdbit k) s =
        .next { s with fk := 7, info := ⟨k.num, 8 * (s.cur k).buf.length, (s.cur k).pos⟩ }) ∧
    ((s.cur k).mode ≠ .reading →
      exec (.rdbit k) s = .next { s with fk := 8, info := ⟨0, 0, (Instr.rdbit k).word.toNat⟩ }))

/-- R133: `RDBITS` reads `n` bits, the first the most significant; running dry it consumes every bit there was and
leaves `RES`; `n > 32` and a wrong mode are `Refused`. -/
def Obligations.RdbitsReadsGroup : Prop :=
  ∀ (k : CurId) (n : BitVec 6) (s : State), s.fk = 0 → (s.cur k).pos ≤ 8 * (s.cur k).buf.length →
    (n.toNat ≤ 32 → (s.cur k).mode = .reading → (s.cur k).pos + n.toNat ≤ 8 * (s.cur k).buf.length →
      exec (.rdbits k n) s =
        .next { s.setCur k ((s.cur k).at ((s.cur k).pos + n.toNat)) with
          res := BitVec.ofNat 32 (valOf ((s.cur k).rest.take n.toNat)) }) ∧
    (n.toNat ≤ 32 → (s.cur k).mode = .reading → 8 * (s.cur k).buf.length < (s.cur k).pos + n.toNat →
      exec (.rdbits k n) s =
        .next { s.setCur k ((s.cur k).at (8 * (s.cur k).buf.length)) with
          fk := 7, info := ⟨k.num, 8 * (s.cur k).buf.length, 8 * (s.cur k).buf.length⟩ }) ∧
    (32 < n.toNat ∨ (s.cur k).mode ≠ .reading →
      exec (.rdbits k n) s = .next { s with fk := 8, info := ⟨0, 0, (Instr.rdbits k n).word.toNat⟩ })

/-- R134: `RDBYTE` is eight bit reads, aligned or not; at `bit = 0` it returns `buf[byte]`. -/
def Obligations.RdbyteReadsEightBits : Prop :=
  ∀ (k : CurId) (s : State), s.fk = 0 → (s.cur k).pos ≤ 8 * (s.cur k).buf.length →
    ((s.cur k).mode = .reading → (s.cur k).pos + 8 ≤ 8 * (s.cur k).buf.length →
      exec (.rdbyte k) s =
        .next { s.setCur k ((s.cur k).at ((s.cur k).pos + 8)) with
          res := BitVec.ofNat 32 (valOf ((s.cur k).rest.take 8)) }) ∧
    (∀ b, (s.cur k).mode = .reading → (s.cur k).bit = 0 → (s.cur k).buf[(s.cur k).byte]? = some b →
      exec (.rdbyte k) s =
        .next { s.setCur k { s.cur k with byte := (s.cur k).byte + 1 } with res := b.setWidth 32 }) ∧
    ((s.cur k).mode = .reading → 8 * (s.cur k).buf.length < (s.cur k).pos + 8 →
      exec (.rdbyte k) s =
        .next { s.setCur k ((s.cur k).at (8 * (s.cur k).buf.length)) with
          fk := 7, info := ⟨k.num, 8 * (s.cur k).buf.length, 8 * (s.cur k).buf.length⟩ }) ∧
    ((s.cur k).mode ≠ .reading →
      exec (.rdbyte k) s = .next { s with fk := 8, info := ⟨0, 0, (Instr.rdbyte k).word.toNat⟩ })

/-- R135: `RDBYTES` reads `OPD` bytes into `XB`, aligned or not; running dry it consumes every bit before the missing
one and leaves `XB`. -/
def Obligations.RdbytesFillsTransferBuffer : Prop :=
  ∀ (k : CurId) (s : State), s.fk = 0 → (s.cur k).pos ≤ 8 * (s.cur k).buf.length →
    ((s.cur k).mode = .reading → (s.cur k).pos + 8 * s.opd.toNat ≤ 8 * (s.cur k).buf.length →
      exec (.rdbytes k) s =
        .next { s.setCur k ((s.cur k).at ((s.cur k).pos + 8 * s.opd.toNat)) with
          xb := packBits ((s.cur k).rest.take (8 * s.opd.toNat)) }) ∧
    ((s.cur k).mode = .reading → (s.cur k).bit = 0 → (s.cur k).byte + s.opd.toNat ≤ (s.cur k).buf.length →
      exec (.rdbytes k) s =
        .next { s.setCur k { s.cur k with byte := (s.cur k).byte + s.opd.toNat } with
          xb := ((s.cur k).buf.drop (s.cur k).byte).take s.opd.toNat }) ∧
    ((s.cur k).mode = .reading → 8 * (s.cur k).buf.length < (s.cur k).pos + 8 * s.opd.toNat →
      exec (.rdbytes k) s =
        .next { s.setCur k ((s.cur k).at (8 * (s.cur k).buf.length)) with
          fk := 7, info := ⟨k.num, 8 * (s.cur k).buf.length, 8 * (s.cur k).buf.length⟩ }) ∧
    ((s.cur k).mode ≠ .reading →
      exec (.rdbytes k) s = .next { s with fk := 8, info := ⟨0, 0, (Instr.rdbytes k).word.toNat⟩ })

/-- R136, R146: `WRBIT` on a context whose written bits are `bits` leaves the context of one bit more; at capacity it is
`Refused`; inside an existing byte it overwrites just that bit; in another mode it is `Refused`. -/
def Obligations.WrbitWritesOneBit : Prop :=
  ∀ (k : CurId) (v : Bool) (s : State), s.fk = 0 →
    (∀ bits : List Bool, s.cur k = writeCursor bits → roomFor s.params.bufCap bits.length 1 = 1 →
      exec (.wrbit k v) s = .next (s.setCur k (writeCursor (bits ++ [v])))) ∧
    (∀ bits : List Bool, s.cur k = writeCursor bits → roomFor s.params.bufCap bits.length 1 = 0 →
      exec (.wrbit k v) s = .next { s with fk := 8, info := ⟨0, 0, (Instr.wrbit k v).word.toNat⟩ }) ∧
    ((s.cur k).mode = .writing → (s.cur k).byte < (s.cur k).buf.length →
      exec (.wrbit k v) s =
        .next (s.setCur k { (s.cur k).at ((s.cur k).pos + 1) with
          buf := packBits ((bytesBits (s.cur k).buf).set (s.cur k).pos v) })) ∧
    ((s.cur k).mode ≠ .writing →
      exec (.wrbit k v) s = .next { s with fk := 8, info := ⟨0, 0, (Instr.wrbit k v).word.toNat⟩ })

/-- R137, R146: `WRBITS` appends the low `n` bits of `OPD`, most significant first; at capacity the bits that fit are
written and the command is `Refused`; `n > 32` and a wrong mode are `Refused`. -/
def Obligations.WrbitsAppendsLowBits : Prop :=
  ∀ (k : CurId) (n : BitVec 6) (s : State), s.fk = 0 →
    (∀ bits, n.toNat ≤ 32 → s.cur k = writeCursor bits → roomFor s.params.bufCap bits.length n.toNat = n.toNat →
      exec (.wrbits k n) s = .next (s.setCur k (writeCursor (bits ++ bitsOf n.toNat s.opd.toNat)))) ∧
    (∀ bits, n.toNat ≤ 32 → s.cur k = writeCursor bits → roomFor s.params.bufCap bits.length n.toNat < n.toNat →
      exec (.wrbits k n) s =
        .next { s.setCur k (writeCursor (bits ++
            (bitsOf n.toNat s.opd.toNat).take (roomFor s.params.bufCap bits.length n.toNat))) with
          fk := 8, info := ⟨0, 0, (Instr.wrbits k n).word.toNat⟩ }) ∧
    (32 < n.toNat ∨ (s.cur k).mode ≠ .writing →
      exec (.wrbits k n) s = .next { s with fk := 8, info := ⟨0, 0, (Instr.wrbits k n).word.toNat⟩ })

/-- R138, R146: `WRBYTE` appends the eight bits of `b`, aligned or not; at `bit = 0` it appends exactly the byte. -/
def Obligations.WrbyteAppendsByte : Prop :=
  ∀ (k : CurId) (b : Byte) (s : State), s.fk = 0 →
    (∀ bits : List Bool, s.cur k = writeCursor bits → roomFor s.params.bufCap bits.length 8 = 8 →
      exec (.wrbyte k b) s = .next (s.setCur k (writeCursor (bits ++ bitsOf 8 b.toNat))) ∧
      (bits.length % 8 = 0 → (writeCursor (bits ++ bitsOf 8 b.toNat)).buf = (s.cur k).buf ++ [b])) ∧
    (∀ bits : List Bool, s.cur k = writeCursor bits → roomFor s.params.bufCap bits.length 8 < 8 →
      exec (.wrbyte k b) s =
        .next { s.setCur k (writeCursor (bits ++
            (bitsOf 8 b.toNat).take (roomFor s.params.bufCap bits.length 8))) with
          fk := 8, info := ⟨0, 0, (Instr.wrbyte k b).word.toNat⟩ }) ∧
    ((s.cur k).mode ≠ .writing →
      exec (.wrbyte k b) s = .next { s with fk := 8, info := ⟨0, 0, (Instr.wrbyte k b).word.toNat⟩ })

/-- R139, R146: `WRBYTES` appends the bits of the bytes of `XB` in order and keeps `XB`. -/
def Obligations.WrbytesAppendsTransferBuffer : Prop :=
  ∀ (k : CurId) (s : State), s.fk = 0 →
    (∀ bits : List Bool, s.cur k = writeCursor bits → roomFor s.params.bufCap bits.length (8 * s.xb.length) = 8 * s.xb.length →
      exec (.wrbytes k) s = .next (s.setCur k (writeCursor (bits ++ bytesBits s.xb)))) ∧
    (∀ bits : List Bool, s.cur k = writeCursor bits → roomFor s.params.bufCap bits.length (8 * s.xb.length) < 8 * s.xb.length →
      exec (.wrbytes k) s =
        .next { s.setCur k (writeCursor (bits ++
            (bytesBits s.xb).take (roomFor s.params.bufCap bits.length (8 * s.xb.length)))) with
          fk := 8, info := ⟨0, 0, (Instr.wrbytes k).word.toNat⟩ }) ∧
    ((s.cur k).mode ≠ .writing →
      exec (.wrbytes k) s = .next { s with fk := 8, info := ⟨0, 0, (Instr.wrbytes k).word.toNat⟩ })

/-- The frame of the four cursor write commands (R39, R74, R77): no byte of any buffer changes but the bytes the written
bits lie in, counted from the position of the command's own context; no register but `FK` and `INFO` changes. -/
def Obligations.WritesTouchOnlyTheirBytes : Prop :=
  ∀ (i : Instr) (k : CurId) (m : Nat) (s t : State), writeExtent s i = some (k, m) → exec i s = .next t →
    (∀ j a, (j = k → a < (s.cur k).byte ∨ (s.cur k).byte + ceil8 ((s.cur k).bit.val + m) ≤ a) →
      t.readByte j a = s.readByte j a) ∧
    t = { s.setCur k (t.cur k) with fk := t.fk, info := t.info }

/-- R74, R82: reads, `CUR_OPEN_R`, `PAL_BUILD`, `RLE_DECODE` and the record forms change no byte of any buffer. -/
def Obligations.ReadsLeaveBuffersAlone : Prop :=
  ∀ (i : Instr) (s t : State), readsBuffersOnly i = true → exec i s = .next t → ∀ j a, t.readByte j a = s.readByte j a

/-- R144(b): what was written reads back in any grouping, then zero padding, then `OutOfRange`. -/
def Obligations.WrittenBitsReadBack : Prop :=
  ∀ (k : CurId) (bits : List Bool) (s t : State) (ns : List (BitVec 6)), s.fk = 0 → s.cur k = writeCursor bits → (∀ n ∈ ns, n.toNat ≤ 32) →
    (ns.map (·.toNat)).sum ≤ 8 * ceil8 bits.length → exec (.curOpenR k) s = .next t →
    ∃ u, readGroups k ns t =
        some ((bits ++ List.replicate (8 * ceil8 bits.length - bits.length) false).take (ns.map (·.toNat)).sum, u) ∧
      u.fk = 0 ∧
      ((ns.map (·.toNat)).sum = 8 * ceil8 bits.length →
        exec (.rdbit k) u =
          .next { u with fk := 7, info := ⟨k.num, 8 * ceil8 bits.length, 8 * ceil8 bits.length⟩ })

/-! ### The palette -/

/-- R161, R162, R169: `PAL_BUILD` leaves the distinct non-zero colours of the raster by descending count, ties by first
occurrence, and `TALLY` with their counts in first-seen order; nothing else changes but `SI`. -/
def Obligations.PalBuildOrdersColours : Prop :=
  ∀ s : State, s.fk = 0 → s.pix.length = s.w.toNat * s.h.toNat → colourCount s.pix ≤ 256 →
    ∃ (pal : List Pixel) (tally : List TallyEntry), exec .palBuild s = .next { s with pal := pal, tally := tally, si := s.pix.length } ∧
      pal.Nodup ∧ pal.length ≤ 256 ∧ (∀ p, p ∈ pal ↔ p ≠ 0 ∧ p ∈ s.pix) ∧
      (∀ (i j : Nat) (a b : Pixel), i < j → pal[i]? = some a → pal[j]? = some b →
        s.pix.count b < s.pix.count a ∨ (s.pix.count b = s.pix.count a ∧ s.pix.idxOf a < s.pix.idxOf b)) ∧
      (∀ p, p ∈ tally.map (·.colour) ↔ p ≠ 0 ∧ p ∈ s.pix) ∧
      (∀ e ∈ tally, e.count = s.pix.count e.colour) ∧
      (tally.map (·.colour)).Pairwise (fun a b => s.pix.idxOf a < s.pix.idxOf b) ∧
      (pal.map (s.pix.count ·)).sum = (s.pix.filter (fun p => decide (p ≠ 0))).length

/-- R163, R265: with more than 256 distinct non-zero colours `PAL_BUILD` raises `TooManyColors` at the pixel that brings
the 257th, and `PAL` keeps its value. -/
def Obligations.PalBuildTooManyColours : Prop :=
  ∀ s : State, s.fk = 0 → s.pix.length = s.w.toNat * s.h.toNat → 256 < colourCount s.pix →
    ∃ (i : Nat) (tally : List TallyEntry), i < s.pix.length ∧ colourCount (s.pix.take i) = 256 ∧ colourCount (s.pix.take (i + 1)) = 257 ∧
      tally.length = 256 ∧
      exec .palBuild s = .next { s with tally := tally, si := i, fk := 1, info := ⟨i, 256, 257⟩ }

/-- R166: the palette, and whether there is one, is a function of `W*H` and `PIX` alone. -/
def Obligations.PaletteDependsOnlyOnRaster : Prop :=
  ∀ s u s' u' : State, s.fk = 0 → u.fk = 0 → s.pix = u.pix → s.w.toNat * s.h.toNat = u.w.toNat * u.h.toNat →
    exec .palBuild s = .next s' → exec .palBuild u = .next u' →
    s'.fk = u'.fk ∧ (s'.fk = 0 → s'.pal = u'.pal)

/-- R26, R177, R250: a raster whose `PIX` does not have `W*H` pixels is `Refused`, by the encoders also one of no area;
`TAL_ENCODE` tests the width and the height first. Nothing else changes. -/
def Obligations.RasterChecksComeFirst : Prop :=
  ∀ s : State, s.fk = 0 →
    (s.pix.length ≠ s.w.toNat * s.h.toNat →
      exec .palBuild s = .next { s with fk := 8, info := ⟨0, 0, 0x20000000⟩ }) ∧
    (s.pix.length ≠ s.w.toNat * s.h.toNat ∨ s.w.toNat * s.h.toNat = 0 →
      exec .rleEncode s = .next { s with fk := 8, info := ⟨0, 0, 0x30000000⟩ }) ∧
    (8192 < s.w.toNat → exec .talEncode s = .next { s with fk := 5, info := ⟨1, 8192, s.w.toNat⟩ }) ∧
    (s.w.toNat ≤ 8192 → 8192 < s.h.toNat →
      exec .talEncode s = .next { s with fk := 5, info := ⟨2, 8192, s.h.toNat⟩ }) ∧
    (s.w.toNat ≤ 8192 → s.h.toNat ≤ 8192 → s.pix.length ≠ s.w.toNat * s.h.toNat ∨ s.w.toNat * s.h.toNat = 0 →
      exec .talEncode s = .next { s with fk := 8, info := ⟨0, 0, 0x60000000⟩ })

/-! ### The encoder -/

/-- R176 to R189: `RLE_ENCODE` writes the records of the raster's maximal streaks (at most 256 long) into the four
streams, padded with zeros, and counts them; `SC` is that count while it fits 32 bits (beyond, a free value: log 6). A
capacity of one byte per pixel suffices (R190). A foreign colour, a raster of no area and too little capacity are in
RleEncodeRefusesForeignColour, RasterChecksComeFirst and RleEncodeRefusedWithoutRoom. -/
def Obligations.RleEncodeWritesMaximalStreaks : Prop :=
  ∀ s : State, s.fk = 0 → capAtLeast s s.pix.length → s.pix.length = s.w.toNat * s.h.toNat → s.pix ≠ [] →
    (∀ p ∈ s.pix, p ≠ 0 → p ∈ s.pal) →
    ∃ (streaks : List (Pixel × Nat)) (sc : Word), MaximalStreaks streaks ∧ expand streaks = s.pix ∧
      (streaks.length < 2 ^ 32 → sc = BitVec.ofNat 32 streaks.length) ∧
      exec .rleEncode s = .next { s with
        ch := writeCursor (chromaBits (streaks.map (streakRecord s.params.nonfav s.pal)))
        cn := writeCursor (countBits (streaks.map (streakRecord s.params.nonfav s.pal)))
        ct := writeCursor (colourTypeBits (streaks.map (streakRecord s.params.nonfav s.pal)))
        bd := writeCursor (bodyBits (streaks.map (streakRecord s.params.nonfav s.pal)))
        sc := sc
        nf := (streaks.map (streakRecord s.params.nonfav s.pal)).any isNonFavourite
        si := s.pix.length
        cc := s.pix.getLastD 0
        rl := BitVec.ofNat 9 (streaks.getLastD (0, 0)).2 }

/-- R184: a non-zero pixel that is not in `PAL` makes `RLE_ENCODE` `Refused`; only the encoder's own state has changed. -/
def Obligations.RleEncodeRefusesForeignColour : Prop :=
  ∀ s : State, s.fk = 0 → s.pix.length = s.w.toNat * s.h.toNat →
    (∃ p ∈ s.pix, p ≠ 0 ∧ p ∉ s.pal) →
    ∃ t, exec .rleEncode s = .next t ∧ t.fk = 8 ∧ t.info = ⟨0, 0, 0x30000000⟩ ∧
      t = { s with ch := t.ch, cn := t.cn, ct := t.ct, bd := t.bd, sc := t.sc, nf := t.nf, si := t.si, cc := t.cc, rl := t.rl, fk := t.fk, info := t.info }

/-- R146, R189: a raster that `RLE_ENCODE` could encode, but for a stream that needs more bytes than `BUF_CAP`, is `Refused`;
only the encoder's own state has changed. -/
def Obligations.RleEncodeRefusedWithoutRoom : Prop :=
  ∀ (s : State) (b : Nat) (streaks : List (Pixel × Nat)) (records : List Instr), s.fk = 0 →
    s.pix.length = s.w.toNat * s.h.toNat → s.params.bufCap = some b → MaximalStreaks streaks → expand streaks = s.pix →
    records = streaks.map (streakRecord s.params.nonfav s.pal) →
    b < ceil8 (chromaBits records).length ∨ b < ceil8 (countBits records).length ∨
      b < ceil8 (colourTypeBits records).length ∨ b < ceil8 (bodyBits records).length →
    ∃ t, exec .rleEncode s = .next t ∧ t.fk = 8 ∧ t.info = ⟨0, 0, 0x30000000⟩ ∧
      t = { s with
        ch := t.ch, cn := t.cn, ct := t.ct, bd := t.bd, sc := t.sc, nf := t.nf, si := t.si, cc := t.cc, rl := t.rl
        fk := t.fk, info := t.info }

/-! ### The decoder and the record forms -/

/-- R206, R207, R212, R214: the two transparent forms. -/
def Obligations.TransparentRecordsAppendZeros : Prop :=
  ∀ s : State, s.fk = 0 → s.cn.pos < 8 * s.cn.buf.length → s.ch.pos < 8 * s.ch.buf.length →
    exec .stT1 s = .next { s with
      cn := s.cn.at (s.cn.pos + 1), ch := s.ch.at (s.ch.pos + 1), out := s.out ++ [0] } ∧
    (∀ l : BitVec 8, s.bd.pos + 8 ≤ 8 * s.bd.buf.length →
      exec (.stTR l) s = .next { s with
        cn := s.cn.at (s.cn.pos + 1), ch := s.ch.at (s.ch.pos + 1), bd := s.bd.at (s.bd.pos + 8)
        out := s.out ++ List.replicate (if l = 0 then 256 else l.toNat) 0 })

/-- R208, R209, R212, R213, R214: the two favourite forms; an index not below `min(N, 16)` is `CorruptStream` sub-code 1
after its bits are read. -/
def Obligations.FavouriteRecordsAppendColour : Prop :=
  ∀ (s : State) (l : BitVec 8) (i : BitVec 4), s.fk = 0 → s.cn.pos < 8 * s.cn.buf.length → s.ch.pos < 8 * s.ch.buf.length →
    s.ct.pos < 8 * s.ct.buf.length →
    (s.bd.pos + 4 ≤ 8 * s.bd.buf.length →
      (∀ col, i.toNat < 16 → s.pal[i.toNat]? = some col →
        exec (.stF1 i) s = .next { s with
          cn := s.cn.at (s.cn.pos + 1), ch := s.ch.at (s.ch.pos + 1), ct := s.ct.at (s.ct.pos + 1)
          bd := s.bd.at (s.bd.pos + 4), out := s.out ++ [col] }) ∧
      (s.pal.length ≤ i.toNat →
        exec (.stF1 i) s = .next { s with
          cn := s.cn.at (s.cn.pos + 1), ch := s.ch.at (s.ch.pos + 1), ct := s.ct.at (s.ct.pos + 1)
          bd := s.bd.at (s.bd.pos + 4), fk := 6, info := ⟨1, min s.pal.length 16, i.toNat⟩ })) ∧
    (s.bd.pos + 12 ≤ 8 * s.bd.buf.length →
      (∀ col, i.toNat < 16 → s.pal[i.toNat]? = some col →
        exec (.stFR l i) s = .next { s with
          cn := s.cn.at (s.cn.pos + 1), ch := s.ch.at (s.ch.pos + 1), ct := s.ct.at (s.ct.pos + 1)
          bd := s.bd.at (s.bd.pos + 12), out := s.out ++ List.replicate (if l = 0 then 256 else l.toNat) col }) ∧
      (s.pal.length ≤ i.toNat →
        exec (.stFR l i) s = .next { s with
          cn := s.cn.at (s.cn.pos + 1), ch := s.ch.at (s.ch.pos + 1), ct := s.ct.at (s.ct.pos + 1)
          bd := s.bd.at (s.bd.pos + 12), fk := 6, info := ⟨1, min s.pal.length 16, i.toNat⟩ }))

/-- R210, R211, R212, R213, R221: the two non-favourite forms set `NF`; an index not below `N` is `CorruptStream`
sub-code 2 after its bits are read; an index below 16 is accepted. -/
def Obligations.PaletteRecordsAppendColour : Prop :=
  ∀ (s : State) (l j : BitVec 8), s.fk = 0 → s.cn.pos < 8 * s.cn.buf.length → s.ch.pos < 8 * s.ch.buf.length →
    s.ct.pos < 8 * s.ct.buf.length →
    (s.bd.pos + 8 ≤ 8 * s.bd.buf.length →
      (∀ col, s.pal[j.toNat]? = some col →
        exec (.stP1 j) s = .next { s with
          cn := s.cn.at (s.cn.pos + 1), ch := s.ch.at (s.ch.pos + 1), ct := s.ct.at (s.ct.pos + 1)
          bd := s.bd.at (s.bd.pos + 8), nf := true, out := s.out ++ [col] }) ∧
      (s.pal.length ≤ j.toNat →
        exec (.stP1 j) s = .next { s with
          cn := s.cn.at (s.cn.pos + 1), ch := s.ch.at (s.ch.pos + 1), ct := s.ct.at (s.ct.pos + 1)
          bd := s.bd.at (s.bd.pos + 8), nf := true, fk := 6, info := ⟨2, s.pal.length, j.toNat⟩ })) ∧
    (s.bd.pos + 16 ≤ 8 * s.bd.buf.length →
      (∀ col, s.pal[j.toNat]? = some col →
        exec (.stPR l j) s = .next { s with
          cn := s.cn.at (s.cn.pos + 1), ch := s.ch.at (s.ch.pos + 1), ct := s.ct.at (s.ct.pos + 1)
          bd := s.bd.at (s.bd.pos + 16), nf := true
          out := s.out ++ List.replicate (if l = 0 then 256 else l.toNat) col }) ∧
      (s.pal.length ≤ j.toNat →
        exec (.stPR l j) s = .next { s with
          cn := s.cn.at (s.cn.pos + 1), ch := s.ch.at (s.ch.pos + 1), ct := s.ct.at (s.ct.pos + 1)
          bd := s.bd.at (s.bd.pos + 16), nf := true, fk := 6, info := ⟨2, s.pal.length, j.toNat⟩ }))

/-- R205: when the streams hold a whole record, the record step of `RLE_DECODE` is the meaning of the form it decodes to
(the forms as instructions of their own are the model's choice, log 7). -/
def Obligations.RecordStepIsItsForm : Prop :=
  ∀ (s : State) (i : Instr), s.fk = 0 → fetchRecord s = some i →
    (∃ r, encode i = .record r) ∧ exec i s = .next (record s).state

/-- R204, R216: a record step reads count, chroma, colour-type, body in that order and the first stream without a bit
names the `OutOfRange`: 1, 0, 2 or 3. The bits before it stay consumed. -/
def Obligations.TruncatedRecordNamesItsStream : Prop :=
  ∀ s : State, s.fk = 0 → (∀ k, (s.cur k).pos ≤ 8 * (s.cur k).buf.length) →
    (s.cn.rest = [] → (record s).state =
      { s with fk := 7, info := ⟨1, 8 * s.cn.buf.length, 8 * s.cn.buf.length⟩ }) ∧
    (s.cn.rest ≠ [] → s.ch.rest = [] → (record s).state =
      { s with cn := s.cn.at (s.cn.pos + 1), fk := 7, info := ⟨0, 8 * s.ch.buf.length, 8 * s.ch.buf.length⟩ }) ∧
    (s.cn.rest ≠ [] → s.ch.rest.head? = some true → s.ct.rest = [] → (record s).state =
      { s with
        cn := s.cn.at (s.cn.pos + 1), ch := s.ch.at (s.ch.pos + 1)
        fk := 7, info := ⟨2, 8 * s.ct.buf.length, 8 * s.ct.buf.length⟩ }) ∧
    (∀ m f, s.cn.rest.head? = some m → s.ch.rest.head? = some true → s.ct.rest.head? = some f →
      s.bd.rest.length < recordBodyBits true m f → (record s).state =
      { s with
        cn := s.cn.at (s.cn.pos + 1), ch := s.ch.at (s.ch.pos + 1), ct := s.ct.at (s.ct.pos + 1)
        bd := s.bd.at (8 * s.bd.buf.length), nf := s.nf || !f && (!m || decide (8 ≤ s.bd.rest.length))
        fk := 7, info := ⟨3, 8 * s.bd.buf.length, 8 * s.bd.buf.length⟩ }) ∧
    (s.cn.rest.head? = some true → s.ch.rest.head? = some false → s.bd.rest.length < 8 → (record s).state =
      { s with
        cn := s.cn.at (s.cn.pos + 1), ch := s.ch.at (s.ch.pos + 1), bd := s.bd.at (8 * s.bd.buf.length)
        fk := 7, info := ⟨3, 8 * s.bd.buf.length, 8 * s.bd.buf.length⟩ })

/-- R201, R212, R215, R218, R221: `RLE_DECODE` over streams that begin with `SC` records whose indices address colours
delivers the concatenation of their runs and reads not one bit more; then the total is checked once. Streams with a
truncated record or an index without a colour are in RleDecodeStopsAtTheFirstBadRecord. -/
def Obligations.RleDecodeReplaysRecords : Prop :=
  ∀ (s : State) (records : List Instr), s.fk = 0 → s.sc.toNat = records.length → (∀ i ∈ records, recordFits s.pal i = true) →
    chromaBits records <+: bytesBits s.ch.buf → countBits records <+: bytesBits s.cn.buf →
    colourTypeBits records <+: bytesBits s.ct.buf → bodyBits records <+: bytesBits s.bd.buf →
    ∃ t, t = { s with
        ch := s.ch.openR.at (chromaBits records).length
        cn := s.cn.openR.at (countBits records).length
        ct := s.ct.openR.at (colourTypeBits records).length
        bd := s.bd.openR.at (bodyBits records).length
        out := records.flatMap (recordPixels s.pal)
        ri := records.length
        nf := records.any isNonFavourite } ∧
      (t.out.length = s.w.toNat * s.h.toNat → exec .rleDecode s = .next t) ∧
      (t.out.length ≠ s.w.toNat * s.h.toNat →
        exec .rleDecode s = .next { t with fk := 6, info := ⟨0, s.w.toNat * s.h.toNat, t.out.length⟩ })

/-- R201, R205, R213, R216: with a bad record after `records` whole ones and before the `SC`-th, `RLE_DECODE` leaves what that
record's step leaves: its fault, the bits before it consumed, the earlier runs in `OUT`, `RI` the number of whole records. What
the step leaves is in TruncatedRecordNamesItsStream, RecordStepIsItsForm and the statements on the forms. -/
def Obligations.RleDecodeStopsAtTheFirstBadRecord : Prop :=
  ∀ (s t : State) (records : List Instr), s.fk = 0 → records.length < s.sc.toNat →
    (∀ i ∈ records, recordFits s.pal i = true) →
    chromaBits records <+: bytesBits s.ch.buf → countBits records <+: bytesBits s.cn.buf →
    colourTypeBits records <+: bytesBits s.ct.buf → bodyBits records <+: bytesBits s.bd.buf →
    t = { s with
        ch := s.ch.openR.at (chromaBits records).length
        cn := s.cn.openR.at (countBits records).length
        ct := s.ct.openR.at (colourTypeBits records).length
        bd := s.bd.openR.at (bodyBits records).length
        out := records.flatMap (recordPixels s.pal)
        ri := records.length
        nf := records.any isNonFavourite } →
    (record t).state.fk ≠ 0 → exec .rleDecode s = .next (record t).state

/-- R189(e): `RLE_DECODE` inverts `RLE_ENCODE`. With the default `NONFAV_INDEX`, or when no non-favourite colour was
written (`NF = 0`, D10), and fewer than 2^32 pixels (so that `SC` holds the count, log 6). -/
def Obligations.RleDecodeInvertsRleEncode : Prop :=
  ∀ s t : State, s.fk = 0 → s.pal.length ≤ 256 → s.pix.length < 2 ^ 32 → exec .rleEncode s = .next t → t.fk = 0 →
    s.params.nonfav = [] ∨ t.nf = false →
    ∃ u, exec .rleDecode t = .next u ∧ u.fk = 0 ∧ u.out = s.pix ∧ u.nf = t.nf

/-! ### The container -/

/-- R231, R233, R110: `TAL_SERIALIZE` writes exactly the container layout into `cur[4]` and the three length registers,
and changes nothing else. -/
def Obligations.SerializeWritesLayout : Prop :=
  ∀ s : State, s.fk = 0 → s.w.toNat ≤ 8192 → s.h.toNat ≤ 8192 → s.pal.length ≤ 255 →
    (∀ k, k ≠ .fr → (s.cur k).buf.length < 2 ^ 32) →
    ∃ file, file = containerBytes s.w s.h s.pal s.sc s.ch.buf s.cn.buf s.ct.buf s.bd.buf ∧
      file.length = 29 + 4 * s.pal.length + s.ch.buf.length + s.cn.buf.length + s.ct.buf.length + s.bd.buf.length ∧
      (capAtLeast s file.length →
        exec .talSerialize s = .next { s with
          fr := ⟨file, file.length, 0, .writing⟩
          lch := BitVec.ofNat 32 s.ch.buf.length
          lcn := BitVec.ofNat 32 s.cn.buf.length
          lct := BitVec.ofNat 32 s.ct.buf.length })

/-- R232, R253: the checks of `TAL_SERIALIZE` in their order; on a failing check nothing else changes. -/
def Obligations.SerializeChecksInOrder : Prop :=
  ∀ s : State, s.fk = 0 →
    (8192 < s.w.toNat → exec .talSerialize s = .next { s with fk := 5, info := ⟨1, 8192, s.w.toNat⟩ }) ∧
    (s.w.toNat ≤ 8192 → 8192 < s.h.toNat →
      exec .talSerialize s = .next { s with fk := 5, info := ⟨2, 8192, s.h.toNat⟩ }) ∧
    (s.w.toNat ≤ 8192 → s.h.toNat ≤ 8192 →
      255 < s.pal.length ∨ (∃ k, k ≠ .fr ∧ 2 ^ 32 ≤ (s.cur k).buf.length) →
      exec .talSerialize s = .next { s with fk := 8, info := ⟨0, 0, 0x50000000⟩ })

/-- R236, R245: `TAL_PARSE` of a container takes it apart again; `cur[4]` keeps the file, rewound, in mode R. -/
def Obligations.ParseReadsContainer : Prop :=
  ∀ (s : State) (w h sc : Word) (pal : List Pixel) (ch cn ct bd : List Byte), s.fk = 0 → w.toNat ≤ 8192 → h.toNat ≤ 8192 →
    pal.length ≤ 255 → ch.length < 2 ^ 32 → cn.length < 2 ^ 32 → ct.length < 2 ^ 32 →
    ceil8 sc.toNat ≤ ch.length → ceil8 sc.toNat ≤ cn.length →
    s.fr.buf = containerBytes w h pal sc ch cn ct bd →
    exec .talParse s = .next { s with
      w := w, h := h, pal := pal, sc := sc
      lch := BitVec.ofNat 32 ch.length, lcn := BitVec.ofNat 32 cn.length, lct := BitVec.ofNat 32 ct.length
      ch := ⟨ch, 0, 0, .reading⟩, cn := ⟨cn, 0, 0, .reading⟩, ct := ⟨ct, 0, 0, .reading⟩, bd := ⟨bd, 0, 0, .reading⟩
      fr := ⟨s.fr.buf, 0, 0, .reading⟩ }

/-- R236 to R242, R253: the checks of `TAL_PARSE` in their order, each with its kind and `INFO`; on a failing check only
`cur[4]`'s position and mode have changed besides `FK` and `INFO`. -/
def Obligations.ParseChecksInOrder : Prop :=
  ∀ (s : State) (b : List Byte) (n o0 o3 : Nat), s.fk = 0 → b = s.fr.buf → n = (b.getD 12 0).toNat → o0 = 29 + 4 * n →
    o3 = o0 + be32Nat b (13 + 4 * n) + be32Nat b (17 + 4 * n) + be32Nat b (21 + 4 * n) →
    ∃ s', s' = { s with fr := ⟨b, 0, 0, .reading⟩ } ∧
      (b.length < 19 → exec .talParse s = .next { s' with fk := 5, info := ⟨0, 19, b.length⟩ }) ∧
      (19 ≤ b.length → b.take 3 ≠ [0x08#8, 0x09#8, 0x03#8] →
        exec .talParse s = .next { s' with
          fk := 3, info := ⟨0, 0x080903, (b.getD 0 0).toNat * 65536 + (b.getD 1 0).toNat * 256 + (b.getD 2 0).toNat⟩ }) ∧
      (19 ≤ b.length → b.take 3 = [0x08#8, 0x09#8, 0x03#8] →
        (b.getD 3 0 ≠ 1 → exec .talParse s = .next { s' with fk := 4, info := ⟨0, 1, (b.getD 3 0).toNat⟩ }) ∧
        (b.getD 3 0 = 1 →
          (8192 < be32Nat b 4 → exec .talParse s = .next { s' with fk := 5, info := ⟨1, 8192, be32Nat b 4⟩ }) ∧
          (be32Nat b 4 ≤ 8192 → 8192 < be32Nat b 8 →
            exec .talParse s = .next { s' with fk := 5, info := ⟨2, 8192, be32Nat b 8⟩ }) ∧
          (be32Nat b 4 ≤ 8192 → be32Nat b 8 ≤ 8192 →
            (b.length < o0 → exec .talParse s = .next { s' with fk := 6, info := ⟨3, o0, b.length⟩ }) ∧
            (o0 ≤ b.length → b.length < o3 →
              exec .talParse s = .next { s' with fk := 6, info := ⟨4, o3, b.length⟩ }) ∧
            (o3 ≤ b.length → be32Nat b (13 + 4 * n) < ceil8 (be32Nat b (25 + 4 * n)) →
              exec .talParse s = .next { s' with
                fk := 6, info := ⟨5, ceil8 (be32Nat b (25 + 4 * n)), be32Nat b (13 + 4 * n)⟩ }) ∧
            (o3 ≤ b.length → ceil8 (be32Nat b (25 + 4 * n)) ≤ be32Nat b (13 + 4 * n) →
              be32Nat b (17 + 4 * n) < ceil8 (be32Nat b (25 + 4 * n)) →
              exec .talParse s = .next { s' with
                fk := 6, info := ⟨6, ceil8 (be32Nat b (25 + 4 * n)), be32Nat b (17 + 4 * n)⟩ }))))

/-- R246: parse undoes serialise, and serialise undoes parse (where the body is under 2^32 bytes, R232(c), and the
capacity holds the file, R146). -/
def Obligations.ParseAndSerializeAreInverse : Prop :=
  (∀ s t : State, s.fk = 0 → exec .talSerialize s = .next t → t.fk = 0 →
    ceil8 s.sc.toNat ≤ s.ch.buf.length → ceil8 s.sc.toNat ≤ s.cn.buf.length →
    ∃ u, exec .talParse t = .next u ∧ u.fk = 0 ∧ u.w = s.w ∧ u.h = s.h ∧ u.pal = s.pal ∧ u.sc = s.sc ∧
      u.lch = BitVec.ofNat 32 s.ch.buf.length ∧ u.lcn = BitVec.ofNat 32 s.cn.buf.length ∧
      u.lct = BitVec.ofNat 32 s.ct.buf.length ∧ (∀ k, k ≠ .fr → (u.cur k).buf = (s.cur k).buf)) ∧
  (∀ s t : State, s.fk = 0 → exec .talParse s = .next t → t.fk = 0 → t.bd.buf.length < 2 ^ 32 →
    capAtLeast s s.fr.buf.length →
    ∃ u, exec .talSerialize t = .next u ∧ u.fk = 0 ∧ u.fr.buf = s.fr.buf)

/-! ### The pipelines -/

/-- R121, R250, R251: the pipelines are their stages in sequence, stopping at the first fault; a refusal inside
`TAL_ENCODE` names `TAL_ENCODE`'s own word. -/
def Obligations.PipelinesAreTheirStages : Prop :=
  (∀ s t : State, s.fk = 0 → exec .talParse { s with nf := false } = .next t →
    exec .talDecode s = if t.fk = 0 then exec .rleDecode t else .next t) ∧
  (∀ s t u v : State, s.fk = 0 → s.w.toNat ≤ 8192 → s.h.toNat ≤ 8192 → s.pix.length = s.w.toNat * s.h.toNat → s.pix ≠ [] →
    exec .palBuild { s with nf := false } = .next t → exec .rleEncode t = .next u → exec .talSerialize u = .next v →
    exec .talEncode s = .next (
      if t.fk ≠ 0 then t
      else if v.fk = 0 then v
      else { v with info := ⟨0, 0, 0x60000000⟩ }))

/-- R250, R252: `TAL_ENCODE` completes with `FK = 0` exactly for a raster of 1 to 8192 by 1 to 8192 pixels with at most
255 distinct non-zero colours, and the file then holds the palette and the records of its maximal streaks. -/
def Obligations.TalEncodeCompletesExactly : Prop :=
  ∀ s : State, s.fk = 0 → capAtLeast s (2 ^ 28) →
    ∃ t, exec .talEncode s = .next t ∧
      (t.fk = 0 ↔ 1 ≤ s.w.toNat ∧ s.w.toNat ≤ 8192 ∧ 1 ≤ s.h.toNat ∧ s.h.toNat ≤ 8192 ∧
        s.pix.length = s.w.toNat * s.h.toNat ∧ colourCount s.pix ≤ 255) ∧
      (t.fk = 0 → t.fr.mode = .writing ∧ (∀ p, p ∈ t.pal ↔ p ≠ 0 ∧ p ∈ s.pix) ∧
        ∃ streaks : List (Pixel × Nat), MaximalStreaks streaks ∧ expand streaks = s.pix ∧
          t.fr.buf = containerBytes s.w s.h t.pal (BitVec.ofNat 32 streaks.length)
            (packBits (chromaBits (streaks.map (streakRecord s.params.nonfav t.pal))))
            (packBits (countBits (streaks.map (streakRecord s.params.nonfav t.pal))))
            (packBits (colourTypeBits (streaks.map (streakRecord s.params.nonfav t.pal))))
            (packBits (bodyBits (streaks.map (streakRecord s.params.nonfav t.pal)))))

/-- R251: `TAL_DECODE` of a container whose streams begin with `SC` records that make `W*H` pixels delivers them. -/
def Obligations.TalDecodeReadsFile : Prop :=
  ∀ (s : State) (w h sc : Word) (pal : List Pixel) (ch cn ct bd : List Byte) (records : List Instr), s.fk = 0 →
    w.toNat ≤ 8192 → h.toNat ≤ 8192 → pal.length ≤ 255 →
    ch.length < 2 ^ 32 → cn.length < 2 ^ 32 → ct.length < 2 ^ 32 →
    s.fr.buf = containerBytes w h pal sc ch cn ct bd →
    sc.toNat = records.length → (∀ i ∈ records, recordFits pal i = true) →
    chromaBits records <+: bytesBits ch → countBits records <+: bytesBits cn →
    colourTypeBits records <+: bytesBits ct → bodyBits records <+: bytesBits bd →
    (records.flatMap (recordPixels pal)).length = w.toNat * h.toNat →
    exec .talDecode s = .next { s with
      w := w, h := h, pal := pal, sc := sc
      lch := BitVec.ofNat 32 ch.length, lcn := BitVec.ofNat 32 cn.length, lct := BitVec.ofNat 32 ct.length
      ch := (Cursor.loaded ch).at (chromaBits records).length
      cn := (Cursor.loaded cn).at (countBits records).length
      ct := (Cursor.loaded ct).at (colourTypeBits records).length
      bd := (Cursor.loaded bd).at (bodyBits records).length
      fr := ⟨s.fr.buf, 0, 0, .reading⟩
      out := records.flatMap (recordPixels pal)
      ri := records.length
      nf := records.any isNonFavourite }

/-- R252: the round trip. The file `TAL_ENCODE` leaves, in any state without a fault, decodes to the same dimensions and
pixels, under the default `NONFAV_INDEX` or when `NF = 0` (D10). -/
def Obligations.TalEncodeDecodeRoundTrip : Prop :=
  ∀ s t v : State, s.fk = 0 → exec .talEncode s = .next t → t.fk = 0 → s.params.nonfav = [] ∨ t.nf = false →
    v.fk = 0 → v.fr.buf = t.fr.buf →
    ∃ u, exec .talDecode v = .next u ∧ u.fk = 0 ∧ u.w = s.w ∧ u.h = s.h ∧ u.out = s.pix ∧ u.nf = t.nf

/-! ### Invariants and frames -/

/-- Every step keeps the invariant (R24, R29, R30, R31, R34, R263). -/
def Obligations.StepKeepsTheInvariant : Prop :=
  ∀ s t : State, StateInv s → step s = .next t → StateInv t

/-- The reset state has the invariant (R37). -/
def Obligations.ResetHasTheInvariant : Prop := StateInv State.reset

/-- Under the invariant a step always goes on, but for a host that supplies more than 256 palette entries (R40; the stop
is the model's choice, log 10); the model's own fault `writePastEnd` (log 9) is never taken. -/
def Obligations.InvariantStatesNeverStop : Prop :=
  ∀ s : State, StateInv s → (∃ t, step s = .next t) ∨
    (∃ p rest, s.inbox = .write (.pal p) :: rest ∧ 256 < p.length ∧ step s = .refused .hostPaletteTooLong)

/-- R39: a command writes only the state its row of the access table lists, besides `FK` and `INFO`; a cursor read and
`RLE_DECODE` write no buffer. -/
def Obligations.CommandsWriteOnlyTheirState : Prop :=
  ∀ s t : State,
    (∀ i k, (i = .rdbit k ∨ (∃ n, i = .rdbits k n) ∨ i = .rdbyte k) → exec i s = .next t →
      t = { s.setCur k { s.cur k with byte := (t.cur k).byte, bit := (t.cur k).bit } with res := t.res, fk := t.fk, info := t.info }) ∧
    (∀ k, exec (.rdbytes k) s = .next t →
      t = { s.setCur k { s.cur k with byte := (t.cur k).byte, bit := (t.cur k).bit } with xb := t.xb, fk := t.fk, info := t.info }) ∧
    (exec .palBuild s = .next t →
      t = { s with si := t.si, pal := t.pal, tally := t.tally, fk := t.fk, info := t.info }) ∧
    (exec .rleEncode s = .next t →
      t = { s with
        ch := t.ch, cn := t.cn, ct := t.ct, bd := t.bd, si := t.si, cc := t.cc, rl := t.rl, sc := t.sc
        nf := t.nf, fk := t.fk, info := t.info }) ∧
    (exec .rleDecode s = .next t →
      t = { s with
        ch := { t.ch with buf := s.ch.buf }, cn := { t.cn with buf := s.cn.buf }, ct := { t.ct with buf := s.ct.buf }
        bd := { t.bd with buf := s.bd.buf }, out := t.out, ri := t.ri, nf := t.nf, fk := t.fk, info := t.info }) ∧
    (exec .talSerialize s = .next t →
      t = { s with fr := t.fr, lch := t.lch, lcn := t.lcn, lct := t.lct, fk := t.fk, info := t.info }) ∧
    (exec .talParse s = .next t →
      t = { s with
        ch := t.ch, cn := t.cn, ct := t.ct, bd := t.bd, fr := { t.fr with buf := s.fr.buf }, w := t.w, h := t.h
        pal := t.pal, sc := t.sc, lch := t.lch, lcn := t.lcn, lct := t.lct, fk := t.fk, info := t.info }) ∧
    (exec .talEncode s = .next t →
      t = { s with
        ch := t.ch, cn := t.cn, ct := t.ct, bd := t.bd, fr := t.fr, si := t.si, cc := t.cc, rl := t.rl
        pal := t.pal, tally := t.tally, sc := t.sc, lch := t.lch, lcn := t.lcn, lct := t.lct
        nf := t.nf, fk := t.fk, info := t.info }) ∧
    (exec .talDecode s = .next t →
      t = { s with
        ch := t.ch, cn := t.cn, ct := t.ct, bd := t.bd, fr := { t.fr with buf := s.fr.buf }, w := t.w, h := t.h
        out := t.out, ri := t.ri, pal := t.pal, sc := t.sc, lch := t.lch, lcn := t.lcn, lct := t.lct
        nf := t.nf, fk := t.fk, info := t.info })
end

