-- ==== Sys2Proof/Laws/Bits.lean ====
section
/-! SUPPORT. Laws of bit sequences: `bitsOf` and `valOf` are inverse (R12), and packing bits into bytes and reading them
off again agree (R62, R144). -/

namespace Sys2Proof

@[simp] theorem bitsOf_length (n v : Nat) : (bitsOf n v).length = n := by
  induction n with
  | zero => rfl
  | succ n ih => simp [bitsOf, ih]

theorem valFrom_append (r : Nat) (a b : List Bool) : valFrom r (a ++ b) = valFrom (valFrom r a) b := by
  induction a generalizing r with
  | nil => rfl
  | cons x a ih => simp [valFrom, ih]

theorem valFrom_eq (r : Nat) (l : List Bool) : valFrom r l = r * 2 ^ l.length + valOf l := by
  induction l generalizing r with
  | nil => simp [valFrom, valOf]
  | cons b l ih =>
    have h1 := ih (2 * r + b.toNat)
    have h2 := ih (2 * 0 + b.toNat)
    simp only [valOf, valFrom, List.length_cons] at *
    rw [h1, h2, pow_succ]
    ring

theorem valOf_append (a b : List Bool) : valOf (a ++ b) = valOf a * 2 ^ b.length + valOf b := by
  rw [valOf, valFrom_append, valFrom_eq, ← valOf]

theorem valOf_cons (b : Bool) (l : List Bool) : valOf (b :: l) = b.toNat * 2 ^ l.length + valOf l := by
  have h := valOf_append [b] l
  simpa [valOf, valFrom] using h

theorem valOf_lt (l : List Bool) : valOf l < 2 ^ l.length := by
  induction l with
  | nil => simp [valOf, valFrom]
  | cons b l ih =>
    rw [valOf_cons, List.length_cons, pow_succ]
    cases b <;> simp <;> omega

theorem valOf_bitsOf (n v : Nat) : valOf (bitsOf n v) = v % 2 ^ n := by
  induction n with
  | zero => simp [bitsOf, valOf, valFrom, Nat.mod_one]
  | succ n ih =>
    rw [bitsOf, valOf_cons, bitsOf_length, ih, Nat.testBit_eq_decide_div_mod_eq, pow_succ, Nat.mod_mul]
    rcases Nat.mod_two_eq_zero_or_one (v / 2 ^ n) with h | h <;> simp [h, Nat.add_comm]

theorem bitsOf_getElem (n v i : Nat) (h : i < (bitsOf n v).length) :
    (bitsOf n v)[i] = v.testBit (n - 1 - i) := by
  induction n generalizing i with
  | zero => simp at h
  | succ n ih =>
    cases i with
    | zero => simp [bitsOf]
    | succ i =>
      simp only [bitsOf, List.getElem_cons_succ]
      rw [ih]
      congr 1
      omega

theorem bitsOf_congr (n v w : Nat) (h : v % 2 ^ n = w % 2 ^ n) : bitsOf n v = bitsOf n w := by
  apply List.ext_getElem (by simp)
  intro i h1 h2
  rw [bitsOf_getElem, bitsOf_getElem]
  have hi : n - 1 - i < n := by simp at h1; omega
  have := congrArg (fun x => x.testBit (n - 1 - i)) h
  simpa [Nat.testBit_mod_two_pow, hi] using this

theorem bitsOf_valOf (l : List Bool) : bitsOf l.length (valOf l) = l := by
  induction l with
  | nil => rfl
  | cons b l ih =>
    have hlt := valOf_lt l
    have hb : (valOf (b :: l)).testBit l.length = b := by
      rw [valOf_cons, Nat.testBit_eq_decide_div_mod_eq]
      cases b
      · simp [Nat.div_eq_of_lt hlt]
      · have : (1 * 2 ^ l.length + valOf l) / 2 ^ l.length = 1 := by
          rw [Nat.one_mul, Nat.add_div_left _ (by positivity), Nat.div_eq_of_lt hlt]
        rw [Bool.toNat_true, this]
        rfl
    have ht : bitsOf l.length (valOf (b :: l)) = bitsOf l.length (valOf l) := by
      apply bitsOf_congr
      rw [valOf_cons, Nat.mul_add_mod_self_right]
    rw [List.length_cons, bitsOf, hb, ht, ih]

theorem bitsOf_add (a b v : Nat) : bitsOf (a + b) v = bitsOf a (v / 2 ^ b) ++ bitsOf b v := by
  induction a with
  | zero => simp [bitsOf]
  | succ a ih =>
    have : a + 1 + b = (a + b) + 1 := by omega
    rw [this, bitsOf, ih, bitsOf, Nat.testBit_div_two_pow]
    rfl

end Sys2Proof

namespace Sys2Proof.Machine

theorem bytesBits_cons (b : Byte) (bs : List Byte) : bytesBits (b :: bs) = bitsOf 8 b.toNat ++ bytesBits bs := rfl

theorem bytesBits_append (x y : List Byte) : bytesBits (x ++ y) = bytesBits x ++ bytesBits y := by
  simp [bytesBits]

@[simp] theorem bytesBits_length (bs : List Byte) : (bytesBits bs).length = 8 * bs.length := by
  induction bs with
  | nil => rfl
  | cons b bs ih => rw [bytesBits_cons]; simp [ih]; omega

theorem bytesBits_getElem? (bs : List Byte) (p : Nat) :
    (bytesBits bs)[p]? = (bs[p / 8]?).map (fun b => b.getLsbD (7 - p % 8)) := by
  induction bs generalizing p with
  | nil => rfl
  | cons b bs ih =>
    rw [bytesBits_cons]
    by_cases h : p < 8
    · rw [List.getElem?_append_left (by simpa using h)]
      have h0 : p / 8 = 0 := by omega
      have h1 : p % 8 = p := by omega
      rw [h0, h1, List.getElem?_eq_getElem (by simpa using h), bitsOf_getElem]
      simp [BitVec.getLsbD]
    · rw [List.getElem?_append_right (by simpa using h), bitsOf_length, ih]
      have h0 : p / 8 = (p - 8) / 8 + 1 := by omega
      have h1 : (p - 8) % 8 = p % 8 := by omega
      rw [h0, h1, List.getElem?_cons_succ]

theorem packByte_getLsbD (f : Nat → Bool) (i : Nat) (h : i < 8) : (packByte f).getLsbD (7 - i) = f i := by
  have h8 : i = 0 ∨ i = 1 ∨ i = 2 ∨ i = 3 ∨ i = 4 ∨ i = 5 ∨ i = 6 ∨ i = 7 := by omega
  rcases h8 with h | h | h | h | h | h | h | h <;> subst h <;> unfold packByte <;>
    generalize f 0 = b0, f 1 = b1, f 2 = b2, f 3 = b3, f 4 = b4, f 5 = b5, f 6 = b6, f 7 = b7 <;>
    revert b0 b1 b2 b3 b4 b5 b6 b7 <;> decide

theorem byte_ext (a b : Byte) (h : ∀ i < 8, a.getLsbD (7 - i) = b.getLsbD (7 - i)) : a = b := by
  apply BitVec.eq_of_getLsbD_eq
  intro i hi
  have := h (7 - i) (by omega)
  have e : 7 - (7 - i) = i := by omega
  rwa [e] at this

theorem packByte_congr (f g : Nat → Bool) (h : ∀ i < 8, f i = g i) : packByte f = packByte g := by
  apply byte_ext
  intro i hi
  rw [packByte_getLsbD f i hi, packByte_getLsbD g i hi, h i hi]

@[simp] theorem packBits_length (bits : List Bool) : (packBits bits).length = ceil8 bits.length := by
  simp [packBits]

theorem packBits_getElem (bits : List Bool) (a : Nat) (h : a < (packBits bits).length) :
    (packBits bits)[a] = packByte (fun i => bits.getD (8 * a + i) false) := by
  simp [packBits]

/-- Reading off a packed bit sequence gives the bits and then zero padding (R35(a), R144(b)). -/
theorem bytesBits_packBits (bits : List Bool) :
    bytesBits (packBits bits) = bits ++ List.replicate (8 * ceil8 bits.length - bits.length) false := by
  apply List.ext_getElem?
  intro p
  rw [bytesBits_getElem?]
  by_cases hp : p / 8 < ceil8 bits.length
  · rw [List.getElem?_eq_getElem (by simpa using hp), packBits_getElem, Option.map_some,
      packByte_getLsbD _ _ (Nat.mod_lt _ (by decide))]
    have e : 8 * (p / 8) + p % 8 = p := by omega
    rw [e]
    by_cases hb : p < bits.length
    · rw [List.getElem?_append_left hb, List.getElem?_eq_getElem hb]
      simp [List.getD_eq_getElem?_getD, hb]
    · have hc : p < 8 * ceil8 bits.length := by omega
      rw [List.getElem?_append_right (by omega), List.getElem?_replicate]
      have h1 : bits.length ≤ p := by omega
      have h2 : p - bits.length < 8 * ceil8 bits.length - bits.length := by omega
      simp [List.getD_eq_getElem?_getD, h1, h2]
  · have h1 : (packBits bits)[p / 8]? = none := by
      rw [List.getElem?_eq_none_iff]; simp; omega
    rw [h1]
    symm
    rw [Option.map_none, List.getElem?_eq_none_iff]
    simp [ceil8] at *
    omega

/-- Packing the bits of whole bytes gives the bytes back. -/
theorem packBits_bytesBits (bs : List Byte) : packBits (bytesBits bs) = bs := by
  have hl : ceil8 (8 * bs.length) = bs.length := by simp [ceil8]; omega
  apply List.ext_getElem (by simp [hl])
  intro a h1 h2
  rw [packBits_getElem]
  apply byte_ext
  intro i hi
  rw [packByte_getLsbD _ _ hi, List.getD_eq_getElem?_getD, bytesBits_getElem?]
  have e1 : (8 * a + i) / 8 = a := by omega
  have e2 : (8 * a + i) % 8 = i := by omega
  rw [e1, e2, List.getElem?_eq_getElem h2]
  rfl

theorem setStreamBit_get (b : Byte) (i : Fin 8) (v : Bool) (j : Nat) (hj : j < 8) :
    (setStreamBit b i v).getLsbD (7 - j) = if j = i.val then v else b.getLsbD (7 - j) := by
  obtain ⟨i, hi⟩ := i
  have h8 : i = 0 ∨ i = 1 ∨ i = 2 ∨ i = 3 ∨ i = 4 ∨ i = 5 ∨ i = 6 ∨ i = 7 := by omega
  have j8 : j = 0 ∨ j = 1 ∨ j = 2 ∨ j = 3 ∨ j = 4 ∨ j = 5 ∨ j = 6 ∨ j = 7 := by omega
  cases v <;> rcases h8 with h | h | h | h | h | h | h | h <;> subst h <;>
    rcases j8 with h | h | h | h | h | h | h | h <;> subst h <;>
    simp [setStreamBit]

end Sys2Proof.Machine
end

