-- ==== Sys2Proof/Laws/Cursor.lean ====
section
/-! SUPPORT. What each cursor operation can do, said once (R131 to R137), the canonical write cursor (R144(a)), and that
every operation keeps the canonical form `Cursor.wf` (R24). -/

namespace Sys2Proof.Machine

@[simp] theorem Cursor.adv_buf (c : Cursor) : c.adv.buf = c.buf := by
  unfold Cursor.adv; split <;> rfl

@[simp] theorem Cursor.adv_mode (c : Cursor) : c.adv.mode = c.mode := by
  unfold Cursor.adv; split <;> rfl

/-- R131: after `Adv`, `pos` is one greater. -/
@[simp] theorem Cursor.adv_pos (c : Cursor) : c.adv.pos = c.pos + 1 := by
  unfold Cursor.adv Cursor.pos
  split
  · simp; omega
  · have : (c.bit + 1).val = c.bit.val + 1 := by
      have := c.bit.isLt
      rw [Fin.val_add_one_of_lt' (by omega)]
    simp [this]; omega

theorem Cursor.byte_eq (c : Cursor) : c.byte = c.pos / 8 := by
  have := c.bit.isLt
  unfold Cursor.pos; omega

theorem Cursor.bit_eq (c : Cursor) : c.bit.val = c.pos % 8 := by
  have := c.bit.isLt
  unfold Cursor.pos; omega

/-- A cursor is its buffer, its position and its mode. -/
theorem Cursor.ext_pos (c d : Cursor) (hb : c.buf = d.buf) (hp : c.pos = d.pos) (hm : c.mode = d.mode) : c = d := by
  have h1 := c.byte_eq
  have h2 := d.byte_eq
  have h3 := c.bit_eq
  have h4 := d.bit_eq
  obtain ⟨b, by1, bi, m⟩ := c
  obtain ⟨b', by2, bi', m'⟩ := d
  simp only at *
  subst hb hm
  rw [hp] at h1 h3
  obtain rfl : by1 = by2 := h1.trans h2.symm
  obtain rfl : bi = bi' := Fin.ext (h3.trans h4.symm)
  rfl

@[simp] theorem Cursor.at_buf (c : Cursor) (p : Nat) : (c.at p).buf = c.buf := rfl
@[simp] theorem Cursor.at_mode (c : Cursor) (p : Nat) : (c.at p).mode = c.mode := rfl
@[simp] theorem Cursor.at_pos (c : Cursor) (p : Nat) : (c.at p).pos = p := by
  simp [Cursor.at, Cursor.pos]; omega
@[simp] theorem Cursor.at_at (c : Cursor) (p q : Nat) : (c.at p).at q = c.at q := rfl
@[simp] theorem Cursor.at_self (c : Cursor) : c.at c.pos = c := by
  apply Cursor.ext_pos <;> simp
theorem Cursor.adv_eq_at (c : Cursor) : c.adv = c.at (c.pos + 1) := by
  apply Cursor.ext_pos <;> simp

/-- `RdBit` (R132): with a bit left it answers that bit and advances by one; with none left it answers nothing. -/
theorem Cursor.rdBit_spec (c : Cursor) :
    c.rdBit = ((bytesBits c.buf)[c.pos]?).map (fun b => (b, c.at (c.pos + 1))) := by
  unfold Cursor.rdBit
  rw [bytesBits_getElem?, ← Cursor.byte_eq, ← Cursor.bit_eq]
  cases c.buf[c.byte]? with
  | none => rfl
  | some b => simp [streamBit, Cursor.adv_eq_at]

theorem Cursor.rdBitsFrom_spec (r n : Nat) (c : Cursor) (hc : c.pos ≤ 8 * c.buf.length) :
    c.rdBitsFrom r n =
      if c.pos + n ≤ 8 * c.buf.length then (some (valFrom r (c.rest.take n)), c.at (c.pos + n))
      else (none, c.at (8 * c.buf.length)) := by
  induction n generalizing r c with
  | zero => simp [Cursor.rdBitsFrom, valFrom, hc]
  | succ n ih =>
    rw [Cursor.rdBitsFrom, Cursor.rdBit_spec]
    by_cases h : c.pos < 8 * c.buf.length
    · have hlt : c.pos < (bytesBits c.buf).length := by simpa using h
      rw [List.getElem?_eq_getElem hlt]
      simp only [Option.map_some]
      rw [ih _ _ (by simpa using h)]
      have hd : c.rest = (bytesBits c.buf)[c.pos] :: (c.at (c.pos + 1)).rest := by
        simp [Cursor.rest]
      have e : c.pos + 1 + n = c.pos + (n + 1) := by omega
      simp only [Cursor.at_pos, Cursor.at_buf, Cursor.at_at, e]
      split
      · rw [hd, List.take_succ_cons, valFrom]
      · rfl
    · have e : c.pos = 8 * c.buf.length := by omega
      rw [List.getElem?_eq_none (by simp; omega)]
      simp only [Option.map_none]
      rw [if_neg (by omega)]
      rw [← e, Cursor.at_self]

/-- `RdBits(k, n)` (R133), everything it can do: with `n` bits left it answers their value and advances by `n`; else it
answers nothing and has consumed every bit there was. -/
theorem Cursor.rdBits_spec (n : Nat) (c : Cursor) (hn : c.pos ≤ 8 * c.buf.length) :
    c.rdBits n =
      if c.pos + n ≤ 8 * c.buf.length then (some (valOf (c.rest.take n)), c.at (c.pos + n))
      else (none, c.at (8 * c.buf.length)) :=
  Cursor.rdBitsFrom_spec 0 n c hn

theorem Cursor.rdBitsFrom_frame (r n : Nat) (c : Cursor) :
    (c.rdBitsFrom r n).2.buf = c.buf ∧ (c.rdBitsFrom r n).2.mode = c.mode := by
  induction n generalizing r c with
  | zero => exact ⟨rfl, rfl⟩
  | succ n ih =>
    rw [Cursor.rdBitsFrom, Cursor.rdBit_spec]
    cases (bytesBits c.buf)[c.pos]? with
    | none => exact ⟨rfl, rfl⟩
    | some b => simpa using ih _ (c.at (c.pos + 1))

/-- A read changes nothing but the position (R74). -/
theorem Cursor.rdBits_frame (n : Nat) (c : Cursor) :
    (c.rdBits n).2.buf = c.buf ∧ (c.rdBits n).2.mode = c.mode := Cursor.rdBitsFrom_frame 0 n c

theorem Cursor.rdBytesFrom_frame (t : List Byte) (m : Nat) (c : Cursor) :
    (c.rdBytesFrom t m).2.buf = c.buf ∧ (c.rdBytesFrom t m).2.mode = c.mode := by
  induction m generalizing t c with
  | zero => exact ⟨rfl, rfl⟩
  | succ m ih =>
    rw [Cursor.rdBytesFrom]
    have h := Cursor.rdBits_frame 8 c
    rcases hr : c.rdBits 8 with ⟨_ | v, c'⟩
    · rw [hr] at h; exact h
    · rw [hr] at h
      have := ih (t ++ [BitVec.ofNat 8 v]) c'
      simp only at h
      exact ⟨this.1.trans h.1, this.2.trans h.2⟩

/-! ### Writing -/

theorem Cursor.putBit_buf (c : Cursor) (v : Bool) :
    (c.putBit v).buf = c.buf.modify c.byte (fun b => setStreamBit b c.bit v) := by
  simp [Cursor.putBit]

@[simp] theorem Cursor.putBit_mode (c : Cursor) (v : Bool) : (c.putBit v).mode = c.mode := by
  simp [Cursor.putBit]

@[simp] theorem Cursor.putBit_pos (c : Cursor) (v : Bool) : (c.putBit v).pos = c.pos + 1 := by
  simp [Cursor.putBit]; rfl

@[simp] theorem writeCursor_pos (bits : List Bool) : (writeCursor bits).pos = bits.length := by
  simp [writeCursor, Cursor.pos]; omega

@[simp] theorem writeCursor_mode (bits : List Bool) : (writeCursor bits).mode = .writing := rfl
@[simp] theorem writeCursor_buf (bits : List Bool) : (writeCursor bits).buf = packBits bits := rfl
@[simp] theorem writeCursor_byte (bits : List Bool) : (writeCursor bits).byte = bits.length / 8 := rfl
@[simp] theorem writeCursor_nil : writeCursor [] = Cursor.openW := rfl

/-- Writing a bit sets that stream bit and keeps every other (R136). -/
theorem bytesBits_modify (buf : List Byte) (a : Nat) (i : Fin 8) (v : Bool) (p : Nat) :
    (bytesBits (buf.modify a (fun b => setStreamBit b i v)))[p]? =
      if p = 8 * a + i.val ∧ a < buf.length then some v else (bytesBits buf)[p]? := by
  rw [bytesBits_getElem?, bytesBits_getElem?, List.getElem?_modify]
  have hi := i.isLt
  by_cases ha : a = p / 8
  · subst ha
    rcases h : buf[p / 8]? with _ | b
    · have : buf.length ≤ p / 8 := by simpa using h
      rw [if_neg (by omega)]; simp
    · have hl : p / 8 < buf.length := by
        by_contra hh
        rw [List.getElem?_eq_none (by omega)] at h
        cases h
      simp only [if_true, Option.map_eq_map, Option.map_some]
      rw [setStreamBit_get _ _ _ _ (Nat.mod_lt _ (by decide))]
      by_cases hp : p % 8 = i.val
      · rw [if_pos hp, if_pos ⟨by omega, hl⟩]
      · rw [if_neg hp, if_neg (by omega)]
  · rw [if_neg (by omega)]
    cases buf[p / 8]? <;> simp [ha]

/-- Writing one bit through a canonical write cursor gives the canonical write cursor of one bit more; a new byte is
needed exactly at a byte boundary (R136, R144(a), R146). -/
theorem Cursor.wrBit_writeCursor (cap : Option Nat) (v : Bool) (bits : List Bool) :
    (writeCursor bits).wrBit cap v =
      if bits.length % 8 = 0 ∧ atCapacity cap (bits.length / 8) = true then none
      else some (writeCursor (bits ++ [v])) := by
  have hlen : (packBits bits).length = ceil8 bits.length := packBits_length bits
  have key : ∀ buf : List Byte, bits.length / 8 < buf.length → buf.length = ceil8 (bits.length + 1) →
      (∀ p < 8 * buf.length, (bytesBits buf)[p]? = some (bits.getD p false)) →
      ({ writeCursor bits with buf := buf } : Cursor).putBit v = writeCursor (bits ++ [v]) := by
    intro buf h1 h2 h3
    have hb : bytesBits (({ writeCursor bits with buf := buf } : Cursor).putBit v).buf =
        bytesBits (packBits (bits ++ [v])) := by
      apply List.ext_getElem?
      intro p
      rw [Cursor.putBit_buf, bytesBits_modify]
      simp only [writeCursor]
      have e8 : 8 * (bits.length / 8) + bits.length % 8 = bits.length := by omega
      rw [bytesBits_packBits]
      simp only [List.length_append, List.length_singleton, e8]
      by_cases hp : p = bits.length
      · subst hp
        rw [if_pos ⟨rfl, h1⟩]
        simp
      · rw [if_neg (by tauto)]
        by_cases hq : p < 8 * buf.length
        · rw [h3 p hq]
          by_cases hlt : p < bits.length
          · simp [hlt, List.getElem?_append, List.getD_eq_getElem?_getD]
          · have g1 : ¬ p < bits.length + 1 := by omega
            have g2 : p - (bits.length + 1) < 8 * ceil8 (bits.length + 1) - (bits.length + 1) := by omega
            rw [List.getElem?_append_right (by simp; omega)]
            simp [List.getD_eq_getElem?_getD, List.getElem?_eq_none (Nat.le_of_not_lt hlt), g2]
        · rw [List.getElem?_eq_none (by simp; omega)]
          symm
          apply List.getElem?_eq_none
          simp
          have : bits.length + 1 ≤ 8 * ceil8 (bits.length + 1) := by simp [ceil8]; omega
          omega
    have hbuf := congrArg packBits hb
    rw [packBits_bytesBits, packBits_bytesBits] at hbuf
    apply Cursor.ext_pos
    · exact hbuf
    · rw [Cursor.putBit_pos, writeCursor_pos]
      simp only [List.length_append, List.length_singleton]
      have := writeCursor_pos bits
      simpa [Cursor.pos] using this
    · simp
  have hbits : ∀ p < 8 * ceil8 bits.length, (bytesBits (packBits bits))[p]? = some (bits.getD p false) := by
    intro p hp
    rw [bytesBits_packBits]
    by_cases hlt : p < bits.length
    · simp [List.getElem?_append, hlt, List.getD_eq_getElem?_getD]
    · rw [List.getElem?_append_right (by omega)]
      have g2 : p - bits.length < 8 * ceil8 bits.length - bits.length := by omega
      simp [List.getD_eq_getElem?_getD, List.getElem?_eq_none (Nat.le_of_not_lt hlt), g2]
  unfold Cursor.wrBit
  by_cases h8 : bits.length % 8 = 0
  · have hc : ceil8 bits.length = bits.length / 8 := by simp [ceil8]; omega
    rw [if_neg (by simp [hlen, hc])]
    simp only [writeCursor_buf, hlen, hc, h8, true_and]
    split
    · rfl
    · congr 1
      have := key (packBits bits ++ [0#8]) (by simp [hlen, hc]) (by simp [ceil8]; omega) (by
        intro p hp
        rw [bytesBits_append]
        by_cases hlt : p < 8 * ceil8 bits.length
        · rw [List.getElem?_append_left (by simpa [hlen] using hlt), hbits p hlt]
        · have hz : bytesBits [0#8] = List.replicate 8 false := by decide
          rw [List.getElem?_append_right (by simp [hlen]; omega), hz, bytesBits_length, hlen, List.getElem?_replicate]
          have g : p - 8 * ceil8 bits.length < 8 := by simp [hlen] at hp; omega
          have g3 : bits.length ≤ p := by omega
          simp [g, List.getD_eq_getElem?_getD, List.getElem?_eq_none g3])
      exact this
  · have hc : bits.length / 8 < ceil8 bits.length := by simp [ceil8]; omega
    rw [if_pos (by simp [hlen, hc]), if_neg (by tauto)]
    congr 1
    exact key (packBits bits) (by rw [hlen]; exact hc) (by rw [hlen]; simp [ceil8]; omega) (by rw [hlen]; exact hbits)

/-- Writing a bit sequence through a canonical write cursor, everything it can do (R137, R144(a), R146). -/
theorem Cursor.wrSeq_writeCursor (cap : Option Nat) (vs bits : List Bool) :
    (writeCursor bits).wrSeq cap vs =
      (decide (roomFor cap bits.length vs.length = vs.length),
        writeCursor (bits ++ vs.take (roomFor cap bits.length vs.length))) := by
  induction vs generalizing bits with
  | nil => cases cap <;> simp [Cursor.wrSeq, roomFor]
  | cons v vs ih =>
    rw [Cursor.wrSeq, Cursor.wrBit_writeCursor]
    by_cases h : bits.length % 8 = 0 ∧ atCapacity cap (bits.length / 8) = true
    · rw [if_pos h]
      cases cap with
      | none => simp [atCapacity] at h
      | some b =>
        have hb : b ≤ bits.length / 8 := by simpa [atCapacity] using h.2
        have h0 : roomFor (some b) bits.length (v :: vs).length = 0 := by
          simp [roomFor, ceil8]; omega
        rw [h0]; simp
    · rw [if_neg h]
      simp only
      rw [ih]
      have hr : roomFor cap bits.length (v :: vs).length = roomFor cap (bits ++ [v]).length vs.length + 1 := by
        cases cap with
        | none => simp [roomFor]
        | some b =>
          have : ¬ (bits.length % 8 = 0 ∧ b ≤ bits.length / 8) := by simpa [atCapacity] using h
          simp only [roomFor, List.length_append, List.length_cons, List.length_nil, ceil8]
          omega
      rw [hr]
      simp [List.take_succ_cons]

/-- With unbounded capacity every bit is written. -/
theorem Cursor.wrSeq_unbounded (vs bits : List Bool) :
    (writeCursor bits).wrSeq none vs = (true, writeCursor (bits ++ vs)) := by
  rw [Cursor.wrSeq_writeCursor]; simp [roomFor]

/-! ### The canonical form (R24) -/

theorem Cursor.written_writeCursor (bits : List Bool) : (writeCursor bits).written = bits := by
  simp [Cursor.written, bytesBits_packBits]

theorem Cursor.wf_iff (c : Cursor) :
    c.wf = true ↔ c.pos ≤ 8 * c.buf.length ∧ (c.mode = .writing → c = writeCursor c.written) := by
  unfold Cursor.wf
  by_cases h : c.mode = .writing <;> simp [h]

theorem Cursor.wf_writeCursor (bits : List Bool) : (writeCursor bits).wf = true := by
  rw [Cursor.wf_iff, Cursor.written_writeCursor]
  simp [ceil8]; omega

theorem Cursor.wf_openW : Cursor.openW.wf = true := Cursor.wf_writeCursor []

theorem Cursor.wf_reset : Cursor.reset.wf = true := by decide

theorem Cursor.wf_openR (c : Cursor) : c.openR.wf = true := by
  simp [Cursor.wf_iff, Cursor.openR, Cursor.pos]

theorem Cursor.wf_loaded (bytes : List Byte) : (Cursor.loaded bytes).wf = true := by
  simp [Cursor.wf_iff, Cursor.loaded, Cursor.pos]

/-- A zero bit inside a partly filled last byte is already there (R35(a)). -/
theorem packBits_zero (bits : List Bool) (h : bits.length % 8 ≠ 0) : packBits (bits ++ [false]) = packBits bits := by
  have e : ceil8 (bits ++ [false]).length = ceil8 bits.length := by simp [ceil8]; omega
  unfold packBits
  rw [e]
  congr 1
  funext a
  apply packByte_congr
  intro i _
  simp only [List.getD_eq_getElem?_getD]
  by_cases hp : 8 * a + i < bits.length
  · rw [List.getElem?_append_left hp]
  · rw [List.getElem?_append_right (by omega), List.getElem?_eq_none (l := bits) (by omega)]
    cases 8 * a + i - bits.length <;> simp

/-- Reading a bit keeps the canonical form, in any mode (R24). -/
theorem Cursor.adv_wf_of_lt (c : Cursor) (h : c.wf = true) (hlt : c.byte < c.buf.length) : c.adv.wf = true := by
  rw [Cursor.wf_iff] at h ⊢
  obtain ⟨_, hw⟩ := h
  constructor
  · rw [Cursor.adv_pos, Cursor.adv_buf]
    have := c.bit.isLt
    simp only [Cursor.pos]
    omega
  · rw [Cursor.adv_mode]
    intro hm
    have hc := hw hm
    generalize c.written = bits at hc
    subst hc
    have hp : bits.length < 8 * ceil8 bits.length := by simp [ceil8] at *; omega
    have h8 : bits.length % 8 ≠ 0 := by simp [ceil8] at *; omega
    have e1 : ceil8 (bits.length + 1) = ceil8 bits.length := by simp [ceil8]; omega
    have h2 : 8 * ceil8 bits.length - bits.length ≠ 0 := by omega
    have hw : (writeCursor bits).adv.written = bits ++ [false] := by
      obtain ⟨j, hj⟩ := Nat.exists_eq_succ_of_ne_zero h2
      simp [Cursor.written, bytesBits_packBits, List.take_append, hj, List.replicate_succ]
    rw [hw]
    apply Cursor.ext_pos
    · simp [packBits_zero bits h8]
    · simp
    · simp

theorem Cursor.wf_rdBitsFrom (r n : Nat) (c : Cursor) (h : c.wf = true) : (c.rdBitsFrom r n).2.wf = true := by
  induction n generalizing r c with
  | zero => exact h
  | succ n ih =>
    rw [Cursor.rdBitsFrom]
    unfold Cursor.rdBit
    rcases hb : c.buf[c.byte]? with _ | b
    · exact h
    · have hlt : c.byte < c.buf.length := by
        by_contra hh
        rw [List.getElem?_eq_none (by omega)] at hb
        cases hb
      exact ih _ _ (Cursor.adv_wf_of_lt c h hlt)

/-- `RdBits` keeps the canonical form (R24). -/
theorem Cursor.wf_rdBits (n : Nat) (c : Cursor) (h : c.wf = true) : (c.rdBits n).2.wf = true :=
  Cursor.wf_rdBitsFrom 0 n c h

theorem Cursor.wf_rdBytesFrom (t : List Byte) (m : Nat) (c : Cursor) (h : c.wf = true) :
    (c.rdBytesFrom t m).2.wf = true := by
  induction m generalizing t c with
  | zero => exact h
  | succ m ih =>
    rw [Cursor.rdBytesFrom]
    have hw := Cursor.wf_rdBits 8 c h
    rcases hr : c.rdBits 8 with ⟨_ | v, c'⟩
    · rw [hr] at hw; exact hw
    · rw [hr] at hw; exact ih _ _ hw

/-- A write through a context in mode W keeps the canonical form (R24). -/
theorem Cursor.wf_wrSeq (cap : Option Nat) (vs : List Bool) (c : Cursor) (h : c.wf = true) (hm : c.mode = .writing) :
    (c.wrSeq cap vs).2.wf = true := by
  rw [((Cursor.wf_iff c).1 h).2 hm, Cursor.wrSeq_writeCursor]
  exact Cursor.wf_writeCursor _

theorem Cursor.wf_mode_wrSeq (cap : Option Nat) (vs : List Bool) (c : Cursor) (h : c.wf = true)
    (hm : c.mode = .writing) : (c.wrSeq cap vs).2.mode = .writing := by
  rw [((Cursor.wf_iff c).1 h).2 hm, Cursor.wrSeq_writeCursor]
  rfl

end Sys2Proof.Machine
end

