-- ==== Sys2Proof/Laws/State.lean ====
section
/-! SUPPORT. One lemma per field per named update of State, and the laws of `cur` and `setCur`. -/

namespace Sys2Proof.Machine

@[simp] theorem State.cur_setCur_same (s : State) (k : CurId) (c : Cursor) : (s.setCur k c).cur k = c := by
  cases k <;> rfl

@[simp] theorem State.cur_setCur_ne (s : State) (k j : CurId) (c : Cursor) (h : j ≠ k) :
    (s.setCur k c).cur j = s.cur j := by
  cases k <;> cases j <;> first | rfl | exact absurd rfl h

@[simp] theorem State.setCur_cur (s : State) (k : CurId) : s.setCur k (s.cur k) = s := by
  cases k <;> rfl

@[simp] theorem State.setCur_setCur (s : State) (k : CurId) (c d : Cursor) :
    (s.setCur k c).setCur k d = s.setCur k d := by
  cases k <;> rfl

theorem State.setCur_comm (s : State) (k j : CurId) (c d : Cursor) (h : j ≠ k) :
    (s.setCur k c).setCur j d = (s.setCur j d).setCur k c := by
  cases k <;> cases j <;> first | rfl | exact absurd rfl h

@[simp] theorem State.setCur_opd (s : State) (k : CurId) (c : Cursor) : (s.setCur k c).opd = s.opd := by
  cases k <;> rfl

@[simp] theorem State.setCur_res (s : State) (k : CurId) (c : Cursor) : (s.setCur k c).res = s.res := by
  cases k <;> rfl

@[simp] theorem State.setCur_xb (s : State) (k : CurId) (c : Cursor) : (s.setCur k c).xb = s.xb := by
  cases k <;> rfl

@[simp] theorem State.setCur_w (s : State) (k : CurId) (c : Cursor) : (s.setCur k c).w = s.w := by
  cases k <;> rfl

@[simp] theorem State.setCur_h (s : State) (k : CurId) (c : Cursor) : (s.setCur k c).h = s.h := by
  cases k <;> rfl

@[simp] theorem State.setCur_pix (s : State) (k : CurId) (c : Cursor) : (s.setCur k c).pix = s.pix := by
  cases k <;> rfl

@[simp] theorem State.setCur_out (s : State) (k : CurId) (c : Cursor) : (s.setCur k c).out = s.out := by
  cases k <;> rfl

@[simp] theorem State.setCur_si (s : State) (k : CurId) (c : Cursor) : (s.setCur k c).si = s.si := by
  cases k <;> rfl

@[simp] theorem State.setCur_ri (s : State) (k : CurId) (c : Cursor) : (s.setCur k c).ri = s.ri := by
  cases k <;> rfl

@[simp] theorem State.setCur_cc (s : State) (k : CurId) (c : Cursor) : (s.setCur k c).cc = s.cc := by
  cases k <;> rfl

@[simp] theorem State.setCur_rl (s : State) (k : CurId) (c : Cursor) : (s.setCur k c).rl = s.rl := by
  cases k <;> rfl

@[simp] theorem State.setCur_pal (s : State) (k : CurId) (c : Cursor) : (s.setCur k c).pal = s.pal := by
  cases k <;> rfl

@[simp] theorem State.setCur_tally (s : State) (k : CurId) (c : Cursor) : (s.setCur k c).tally = s.tally := by
  cases k <;> rfl

@[simp] theorem State.setCur_sc (s : State) (k : CurId) (c : Cursor) : (s.setCur k c).sc = s.sc := by
  cases k <;> rfl

@[simp] theorem State.setCur_lch (s : State) (k : CurId) (c : Cursor) : (s.setCur k c).lch = s.lch := by
  cases k <;> rfl

@[simp] theorem State.setCur_lcn (s : State) (k : CurId) (c : Cursor) : (s.setCur k c).lcn = s.lcn := by
  cases k <;> rfl

@[simp] theorem State.setCur_lct (s : State) (k : CurId) (c : Cursor) : (s.setCur k c).lct = s.lct := by
  cases k <;> rfl

@[simp] theorem State.setCur_nf (s : State) (k : CurId) (c : Cursor) : (s.setCur k c).nf = s.nf := by
  cases k <;> rfl

@[simp] theorem State.setCur_fk (s : State) (k : CurId) (c : Cursor) : (s.setCur k c).fk = s.fk := by
  cases k <;> rfl

@[simp] theorem State.setCur_info (s : State) (k : CurId) (c : Cursor) : (s.setCur k c).info = s.info := by
  cases k <;> rfl

@[simp] theorem State.setCur_params (s : State) (k : CurId) (c : Cursor) : (s.setCur k c).params = s.params := by
  cases k <;> rfl

@[simp] theorem State.setCur_inbox (s : State) (k : CurId) (c : Cursor) : (s.setCur k c).inbox = s.inbox := by
  cases k <;> rfl

@[simp] theorem State.cur_ch (s : State) : s.cur .ch = s.ch := rfl

@[simp] theorem State.cur_cn (s : State) : s.cur .cn = s.cn := rfl

@[simp] theorem State.cur_ct (s : State) : s.cur .ct = s.ct := rfl

@[simp] theorem State.cur_bd (s : State) : s.cur .bd = s.bd := rfl

@[simp] theorem State.cur_fr (s : State) : s.cur .fr = s.fr := rfl

@[simp] theorem State.takeFault_cur (s : State) (kind : FaultKind) (a b c : Nat) (k : CurId) : (s.takeFault kind a b c).cur k = s.cur k := by
  cases k <;> rfl

@[simp] theorem State.takeFault_ch (s : State) (kind : FaultKind) (a b c : Nat) : (s.takeFault kind a b c).ch = s.ch := rfl

@[simp] theorem State.takeFault_cn (s : State) (kind : FaultKind) (a b c : Nat) : (s.takeFault kind a b c).cn = s.cn := rfl

@[simp] theorem State.takeFault_ct (s : State) (kind : FaultKind) (a b c : Nat) : (s.takeFault kind a b c).ct = s.ct := rfl

@[simp] theorem State.takeFault_bd (s : State) (kind : FaultKind) (a b c : Nat) : (s.takeFault kind a b c).bd = s.bd := rfl

@[simp] theorem State.takeFault_fr (s : State) (kind : FaultKind) (a b c : Nat) : (s.takeFault kind a b c).fr = s.fr := rfl

@[simp] theorem State.takeFault_opd (s : State) (kind : FaultKind) (a b c : Nat) : (s.takeFault kind a b c).opd = s.opd := rfl

@[simp] theorem State.takeFault_res (s : State) (kind : FaultKind) (a b c : Nat) : (s.takeFault kind a b c).res = s.res := rfl

@[simp] theorem State.takeFault_xb (s : State) (kind : FaultKind) (a b c : Nat) : (s.takeFault kind a b c).xb = s.xb := rfl

@[simp] theorem State.takeFault_w (s : State) (kind : FaultKind) (a b c : Nat) : (s.takeFault kind a b c).w = s.w := rfl

@[simp] theorem State.takeFault_h (s : State) (kind : FaultKind) (a b c : Nat) : (s.takeFault kind a b c).h = s.h := rfl

@[simp] theorem State.takeFault_pix (s : State) (kind : FaultKind) (a b c : Nat) : (s.takeFault kind a b c).pix = s.pix := rfl

@[simp] theorem State.takeFault_out (s : State) (kind : FaultKind) (a b c : Nat) : (s.takeFault kind a b c).out = s.out := rfl

@[simp] theorem State.takeFault_si (s : State) (kind : FaultKind) (a b c : Nat) : (s.takeFault kind a b c).si = s.si := rfl

@[simp] theorem State.takeFault_ri (s : State) (kind : FaultKind) (a b c : Nat) : (s.takeFault kind a b c).ri = s.ri := rfl

@[simp] theorem State.takeFault_cc (s : State) (kind : FaultKind) (a b c : Nat) : (s.takeFault kind a b c).cc = s.cc := rfl

@[simp] theorem State.takeFault_rl (s : State) (kind : FaultKind) (a b c : Nat) : (s.takeFault kind a b c).rl = s.rl := rfl

@[simp] theorem State.takeFault_pal (s : State) (kind : FaultKind) (a b c : Nat) : (s.takeFault kind a b c).pal = s.pal := rfl

@[simp] theorem State.takeFault_tally (s : State) (kind : FaultKind) (a b c : Nat) : (s.takeFault kind a b c).tally = s.tally := rfl

@[simp] theorem State.takeFault_sc (s : State) (kind : FaultKind) (a b c : Nat) : (s.takeFault kind a b c).sc = s.sc := rfl

@[simp] theorem State.takeFault_lch (s : State) (kind : FaultKind) (a b c : Nat) : (s.takeFault kind a b c).lch = s.lch := rfl

@[simp] theorem State.takeFault_lcn (s : State) (kind : FaultKind) (a b c : Nat) : (s.takeFault kind a b c).lcn = s.lcn := rfl

@[simp] theorem State.takeFault_lct (s : State) (kind : FaultKind) (a b c : Nat) : (s.takeFault kind a b c).lct = s.lct := rfl

@[simp] theorem State.takeFault_nf (s : State) (kind : FaultKind) (a b c : Nat) : (s.takeFault kind a b c).nf = s.nf := rfl

@[simp] theorem State.takeFault_fk (s : State) (kind : FaultKind) (a b c : Nat) : (s.takeFault kind a b c).fk = kind.code := rfl

@[simp] theorem State.takeFault_info (s : State) (kind : FaultKind) (a b c : Nat) : (s.takeFault kind a b c).info = ⟨a, b, c⟩ := rfl

@[simp] theorem State.takeFault_params (s : State) (kind : FaultKind) (a b c : Nat) : (s.takeFault kind a b c).params = s.params := rfl

@[simp] theorem State.takeFault_inbox (s : State) (kind : FaultKind) (a b c : Nat) : (s.takeFault kind a b c).inbox = s.inbox := rfl

@[simp] theorem State.setRes_cur (s : State) (v : Word) (k : CurId) : (s.setRes v).cur k = s.cur k := by
  cases k <;> rfl

@[simp] theorem State.setRes_ch (s : State) (v : Word) : (s.setRes v).ch = s.ch := rfl

@[simp] theorem State.setRes_cn (s : State) (v : Word) : (s.setRes v).cn = s.cn := rfl

@[simp] theorem State.setRes_ct (s : State) (v : Word) : (s.setRes v).ct = s.ct := rfl

@[simp] theorem State.setRes_bd (s : State) (v : Word) : (s.setRes v).bd = s.bd := rfl

@[simp] theorem State.setRes_fr (s : State) (v : Word) : (s.setRes v).fr = s.fr := rfl

@[simp] theorem State.setRes_opd (s : State) (v : Word) : (s.setRes v).opd = s.opd := rfl

@[simp] theorem State.setRes_res (s : State) (v : Word) : (s.setRes v).res = v := rfl

@[simp] theorem State.setRes_xb (s : State) (v : Word) : (s.setRes v).xb = s.xb := rfl

@[simp] theorem State.setRes_w (s : State) (v : Word) : (s.setRes v).w = s.w := rfl

@[simp] theorem State.setRes_h (s : State) (v : Word) : (s.setRes v).h = s.h := rfl

@[simp] theorem State.setRes_pix (s : State) (v : Word) : (s.setRes v).pix = s.pix := rfl

@[simp] theorem State.setRes_out (s : State) (v : Word) : (s.setRes v).out = s.out := rfl

@[simp] theorem State.setRes_si (s : State) (v : Word) : (s.setRes v).si = s.si := rfl

@[simp] theorem State.setRes_ri (s : State) (v : Word) : (s.setRes v).ri = s.ri := rfl

@[simp] theorem State.setRes_cc (s : State) (v : Word) : (s.setRes v).cc = s.cc := rfl

@[simp] theorem State.setRes_rl (s : State) (v : Word) : (s.setRes v).rl = s.rl := rfl

@[simp] theorem State.setRes_pal (s : State) (v : Word) : (s.setRes v).pal = s.pal := rfl

@[simp] theorem State.setRes_tally (s : State) (v : Word) : (s.setRes v).tally = s.tally := rfl

@[simp] theorem State.setRes_sc (s : State) (v : Word) : (s.setRes v).sc = s.sc := rfl

@[simp] theorem State.setRes_lch (s : State) (v : Word) : (s.setRes v).lch = s.lch := rfl

@[simp] theorem State.setRes_lcn (s : State) (v : Word) : (s.setRes v).lcn = s.lcn := rfl

@[simp] theorem State.setRes_lct (s : State) (v : Word) : (s.setRes v).lct = s.lct := rfl

@[simp] theorem State.setRes_nf (s : State) (v : Word) : (s.setRes v).nf = s.nf := rfl

@[simp] theorem State.setRes_fk (s : State) (v : Word) : (s.setRes v).fk = s.fk := rfl

@[simp] theorem State.setRes_info (s : State) (v : Word) : (s.setRes v).info = s.info := rfl

@[simp] theorem State.setRes_params (s : State) (v : Word) : (s.setRes v).params = s.params := rfl

@[simp] theorem State.setRes_inbox (s : State) (v : Word) : (s.setRes v).inbox = s.inbox := rfl

@[simp] theorem State.setXb_cur (s : State) (t : List Byte) (k : CurId) : (s.setXb t).cur k = s.cur k := by
  cases k <;> rfl

@[simp] theorem State.setXb_ch (s : State) (t : List Byte) : (s.setXb t).ch = s.ch := rfl

@[simp] theorem State.setXb_cn (s : State) (t : List Byte) : (s.setXb t).cn = s.cn := rfl

@[simp] theorem State.setXb_ct (s : State) (t : List Byte) : (s.setXb t).ct = s.ct := rfl

@[simp] theorem State.setXb_bd (s : State) (t : List Byte) : (s.setXb t).bd = s.bd := rfl

@[simp] theorem State.setXb_fr (s : State) (t : List Byte) : (s.setXb t).fr = s.fr := rfl

@[simp] theorem State.setXb_opd (s : State) (t : List Byte) : (s.setXb t).opd = s.opd := rfl

@[simp] theorem State.setXb_res (s : State) (t : List Byte) : (s.setXb t).res = s.res := rfl

@[simp] theorem State.setXb_xb (s : State) (t : List Byte) : (s.setXb t).xb = t := rfl

@[simp] theorem State.setXb_w (s : State) (t : List Byte) : (s.setXb t).w = s.w := rfl

@[simp] theorem State.setXb_h (s : State) (t : List Byte) : (s.setXb t).h = s.h := rfl

@[simp] theorem State.setXb_pix (s : State) (t : List Byte) : (s.setXb t).pix = s.pix := rfl

@[simp] theorem State.setXb_out (s : State) (t : List Byte) : (s.setXb t).out = s.out := rfl

@[simp] theorem State.setXb_si (s : State) (t : List Byte) : (s.setXb t).si = s.si := rfl

@[simp] theorem State.setXb_ri (s : State) (t : List Byte) : (s.setXb t).ri = s.ri := rfl

@[simp] theorem State.setXb_cc (s : State) (t : List Byte) : (s.setXb t).cc = s.cc := rfl

@[simp] theorem State.setXb_rl (s : State) (t : List Byte) : (s.setXb t).rl = s.rl := rfl

@[simp] theorem State.setXb_pal (s : State) (t : List Byte) : (s.setXb t).pal = s.pal := rfl

@[simp] theorem State.setXb_tally (s : State) (t : List Byte) : (s.setXb t).tally = s.tally := rfl

@[simp] theorem State.setXb_sc (s : State) (t : List Byte) : (s.setXb t).sc = s.sc := rfl

@[simp] theorem State.setXb_lch (s : State) (t : List Byte) : (s.setXb t).lch = s.lch := rfl

@[simp] theorem State.setXb_lcn (s : State) (t : List Byte) : (s.setXb t).lcn = s.lcn := rfl

@[simp] theorem State.setXb_lct (s : State) (t : List Byte) : (s.setXb t).lct = s.lct := rfl

@[simp] theorem State.setXb_nf (s : State) (t : List Byte) : (s.setXb t).nf = s.nf := rfl

@[simp] theorem State.setXb_fk (s : State) (t : List Byte) : (s.setXb t).fk = s.fk := rfl

@[simp] theorem State.setXb_info (s : State) (t : List Byte) : (s.setXb t).info = s.info := rfl

@[simp] theorem State.setXb_params (s : State) (t : List Byte) : (s.setXb t).params = s.params := rfl

@[simp] theorem State.setXb_inbox (s : State) (t : List Byte) : (s.setXb t).inbox = s.inbox := rfl

@[simp] theorem State.setLengths_cur (s : State)  (k : CurId) : (s.setLengths).cur k = s.cur k := by
  cases k <;> rfl

@[simp] theorem State.setLengths_ch (s : State)  : (s.setLengths).ch = s.ch := rfl

@[simp] theorem State.setLengths_cn (s : State)  : (s.setLengths).cn = s.cn := rfl

@[simp] theorem State.setLengths_ct (s : State)  : (s.setLengths).ct = s.ct := rfl

@[simp] theorem State.setLengths_bd (s : State)  : (s.setLengths).bd = s.bd := rfl

@[simp] theorem State.setLengths_fr (s : State)  : (s.setLengths).fr = s.fr := rfl

@[simp] theorem State.setLengths_opd (s : State)  : (s.setLengths).opd = s.opd := rfl

@[simp] theorem State.setLengths_res (s : State)  : (s.setLengths).res = s.res := rfl

@[simp] theorem State.setLengths_xb (s : State)  : (s.setLengths).xb = s.xb := rfl

@[simp] theorem State.setLengths_w (s : State)  : (s.setLengths).w = s.w := rfl

@[simp] theorem State.setLengths_h (s : State)  : (s.setLengths).h = s.h := rfl

@[simp] theorem State.setLengths_pix (s : State)  : (s.setLengths).pix = s.pix := rfl

@[simp] theorem State.setLengths_out (s : State)  : (s.setLengths).out = s.out := rfl

@[simp] theorem State.setLengths_si (s : State)  : (s.setLengths).si = s.si := rfl

@[simp] theorem State.setLengths_ri (s : State)  : (s.setLengths).ri = s.ri := rfl

@[simp] theorem State.setLengths_cc (s : State)  : (s.setLengths).cc = s.cc := rfl

@[simp] theorem State.setLengths_rl (s : State)  : (s.setLengths).rl = s.rl := rfl

@[simp] theorem State.setLengths_pal (s : State)  : (s.setLengths).pal = s.pal := rfl

@[simp] theorem State.setLengths_tally (s : State)  : (s.setLengths).tally = s.tally := rfl

@[simp] theorem State.setLengths_sc (s : State)  : (s.setLengths).sc = s.sc := rfl

@[simp] theorem State.setLengths_lch (s : State)  : (s.setLengths).lch = BitVec.ofNat 32 s.ch.buf.length := rfl

@[simp] theorem State.setLengths_lcn (s : State)  : (s.setLengths).lcn = BitVec.ofNat 32 s.cn.buf.length := rfl

@[simp] theorem State.setLengths_lct (s : State)  : (s.setLengths).lct = BitVec.ofNat 32 s.ct.buf.length := rfl

@[simp] theorem State.setLengths_nf (s : State)  : (s.setLengths).nf = s.nf := rfl

@[simp] theorem State.setLengths_fk (s : State)  : (s.setLengths).fk = s.fk := rfl

@[simp] theorem State.setLengths_info (s : State)  : (s.setLengths).info = s.info := rfl

@[simp] theorem State.setLengths_params (s : State)  : (s.setLengths).params = s.params := rfl

@[simp] theorem State.setLengths_inbox (s : State)  : (s.setLengths).inbox = s.inbox := rfl

/-- `RESET` and the hardware reset input leave the reset state, but for the model's own two fields (R275, R300). -/
theorem State.leaveFault_eq (s : State) :
    s.leaveFault = { State.reset with params := s.params, inbox := s.inbox } := rfl

@[simp] theorem State.area_setCur (s : State) (k : CurId) (c : Cursor) : (s.setCur k c).area = s.area := by
  cases k <;> rfl

end Sys2Proof.Machine
end

