-- ==== Sys2Proof/Laws/Ops.lean ====
section
/-! SUPPORT. What each shared operation of the machine can do, said once, and that each keeps `Memory.wf`. -/

namespace Sys2Proof.Machine

/-! ### Bytes as bits -/

theorem groupBits_append (x y : List (Nat × Nat)) : groupBits (x ++ y) = groupBits x ++ groupBits y := by
  simp [groupBits]

theorem groupBits_byteGroups (bytes : List Byte) : groupBits (byteGroups bytes) = bytesBits bytes := by
  simp [groupBits, byteGroups, bytesBits, List.flatMap_map]

/-- Writing a 32-bit value is writing its four big-endian bytes (R64). -/
theorem bitsOf_be32 (v : Word) : bitsOf 32 v.toNat = bytesBits (be32 v) := by
  have h1 : bitsOf 32 v.toNat = bitsOf 8 (v.toNat / 2 ^ 24) ++ (bitsOf 8 (v.toNat / 2 ^ 16) ++
      (bitsOf 8 (v.toNat / 2 ^ 8) ++ bitsOf 8 v.toNat)) := by
    rw [← bitsOf_add 8 8, ← bitsOf_add 8 16, ← bitsOf_add 8 24]
  rw [h1]
  simp only [be32, bytesBits, List.flatMap_cons, List.flatMap_nil, List.append_nil]
  congr 1
  · apply bitsOf_congr; simp [Nat.shiftRight_eq_div_pow]
  congr 1
  · apply bitsOf_congr; simp [Nat.shiftRight_eq_div_pow]
  congr 1
  · apply bitsOf_congr; simp [Nat.shiftRight_eq_div_pow]
  · apply bitsOf_congr; simp

/-- A write cursor that holds whole bytes. -/
theorem writeCursor_bytes (bytes : List Byte) : writeCursor (bytesBits bytes) = ⟨bytes, bytes.length, 0, .writing⟩ := by
  apply Cursor.ext_pos
  · simp [packBits_bytesBits]
  · rw [writeCursor_pos, bytesBits_length]; simp [Cursor.pos, Nat.mul_comm]
  · rfl

theorem rdBytesFrom_spec (t : List Byte) (m : Nat) (c : Cursor) (hc : c.pos ≤ 8 * c.buf.length) :
    c.rdBytesFrom t m =
      if c.pos + 8 * m ≤ 8 * c.buf.length then (some (t ++ packBits (c.rest.take (8 * m))), c.at (c.pos + 8 * m))
      else (none, c.at (8 * c.buf.length)) := by
  induction m generalizing t c with
  | zero => simp [Cursor.rdBytesFrom, hc, packBits, ceil8]
  | succ m ih =>
    rw [Cursor.rdBytesFrom, Cursor.rdBits_spec 8 c hc]
    by_cases h : c.pos + 8 ≤ 8 * c.buf.length
    · rw [if_pos h]
      simp only
      rw [ih _ _ (by simpa using h)]
      simp only [Cursor.at_pos, Cursor.at_buf, Cursor.at_at]
      have e : c.pos + 8 + 8 * m = c.pos + 8 * (m + 1) := by omega
      rw [e]
      split
      · rename_i hh
        have hlen : (c.rest.take 8).length = 8 := by simp [Cursor.rest]; omega
        have hb : bytesBits [BitVec.ofNat 8 (valOf (c.rest.take 8))] = c.rest.take 8 := by
          have h1 := bitsOf_valOf (c.rest.take 8)
          rw [hlen] at h1
          rw [bytesBits_cons]
          simp only [BitVec.toNat_ofNat, bytesBits, List.flatMap_nil, List.append_nil]
          rw [← h1]
          apply bitsOf_congr
          simp [valOf_bitsOf]
        have hp : packBits (c.rest.take (8 * (m + 1))) =
            BitVec.ofNat 8 (valOf (c.rest.take 8)) :: packBits ((c.at (c.pos + 8)).rest.take (8 * m)) := by
          have hs : c.rest.take (8 * (m + 1)) = c.rest.take 8 ++ (c.at (c.pos + 8)).rest.take (8 * m) := by
            rw [show 8 * (m + 1) = 8 + 8 * m by omega, List.take_add]
            simp [Cursor.rest, List.drop_drop]
          have hw : bytesBits (packBits ((c.at (c.pos + 8)).rest.take (8 * m))) = (c.at (c.pos + 8)).rest.take (8 * m) := by
            rw [bytesBits_packBits]
            have : ((c.at (c.pos + 8)).rest.take (8 * m)).length = 8 * m := by
              simp [Cursor.rest]; omega
            rw [this]
            have : 8 * ceil8 (8 * m) - 8 * m = 0 := by simp [ceil8]; omega
            simp [this]
          rw [← packBits_bytesBits (_ :: packBits _), bytesBits_cons, hw, hs]
          congr 2
          conv_lhs => rw [← hb]
          simp [bytesBits]
        rw [hp]; simp
      · rfl
    · rw [if_neg h, if_neg (by omega)]

/-! ### Results -/

@[simp] theorem Res.state_ok {α : Type} (a : α) (s : State) : (Res.ok a s).state = s := rfl
@[simp] theorem Res.state_raised {α : Type} (s : State) : (Res.raised s : Res α).state = s := rfl
@[simp] theorem Res.bind_ok {α β : Type} (a : α) (s : State) (f : α → State → Res β) : (Res.ok a s).bind f = f a s := rfl
@[simp] theorem Res.bind_raised {α β : Type} (s : State) (f : α → State → Res β) : (Res.raised s).bind f = .raised s := rfl

/-- A fault is the whole of a command's answer (R270). -/
@[simp] theorem raise_state {α : Type} (kind : FaultKind) (a b c : Nat) (s : State) :
    (raise kind a b c s : Res α).state = s.takeFault kind a b c := rfl
@[simp] theorem refuse_state {α : Type} (cw : Word) (s : State) :
    (refuse cw s : Res α).state = s.takeFault .refused 0 0 cw.toNat := rfl

/-- A property that every part of a command keeps, the command keeps. -/
theorem Res.bind_keeps {α β : Type} (P : State → Prop) (r : Res α) (f : α → State → Res β)
    (hr : P r.state) (hf : ∀ a s, r = .ok a s → P s → P (f a s).state) : P (r.bind f).state := by
  cases r with
  | ok a s => exact hf a s rfl hr
  | raised s => exact hr

/-- The prologue of R271, everything it can do. -/
theorem command_next (body : State → Res Unit) (s : State) :
    command body s = .next (if s.fk = 0 then (body s).state else s) := by
  unfold command
  by_cases h : s.fk = 0
  · rw [if_neg (not_not.2 h), if_pos h]
  · rw [if_pos h, if_neg h]

/-- The prologue of a write command, everything it can do (R130; log 9). -/
theorem writeCommand_cases (cw : Word) (legal : Bool) (k : CurId) (body : State → Res Unit) (s : State) :
    writeCommand cw legal k body s = .fault .writePastEnd ∧ (s.cur k).buf.length < (s.cur k).byte ∨
    writeCommand cw legal k body s = .next (if s.fk = 0 then (checked cw legal k .writing body s).state else s) := by
  unfold writeCommand
  split
  · rename_i h; exact .inl ⟨rfl, h.2.2.2⟩
  · exact .inr (command_next _ _)

/-- `RdBits(k, n)` inside a command, everything it can do (R133). -/
theorem rdBits_cases (k : CurId) (n : Nat) (s : State) (h : (s.cur k).pos ≤ 8 * (s.cur k).buf.length) :
    rdBits k n s =
      if (s.cur k).pos + n ≤ 8 * (s.cur k).buf.length then
        .ok (valOf ((s.cur k).rest.take n)) (s.setCur k ((s.cur k).at ((s.cur k).pos + n)))
      else raise .outOfRange k.num ((s.cur k).buf.length * 8) ((s.cur k).buf.length * 8)
        (s.setCur k ((s.cur k).at (8 * (s.cur k).buf.length))) := by
  unfold rdBits
  rw [Cursor.rdBits_spec n _ h]
  split
  · rename_i h1; split at h1 <;> simp_all
  · rename_i h1
    split at h1
    · simp at h1
    · simp only [Prod.mk.injEq, true_and] at h1
      subst h1
      rw [if_neg (by assumption)]
      simp [Nat.mul_comm]

/-- `RDBYTES`'s reads, everything they can do (R135). -/
theorem rdBytes_cases (k : CurId) (m : Nat) (s : State) (h : (s.cur k).pos ≤ 8 * (s.cur k).buf.length) :
    rdBytes k m s =
      if (s.cur k).pos + 8 * m ≤ 8 * (s.cur k).buf.length then
        .ok (packBits ((s.cur k).rest.take (8 * m))) (s.setCur k ((s.cur k).at ((s.cur k).pos + 8 * m)))
      else raise .outOfRange k.num ((s.cur k).buf.length * 8) ((s.cur k).buf.length * 8)
        (s.setCur k ((s.cur k).at (8 * (s.cur k).buf.length))) := by
  unfold rdBytes
  rw [rdBytesFrom_spec [] m _ h]
  split
  · rename_i h1; split at h1 <;> simp_all
  · rename_i h1
    split at h1
    · simp at h1
    · simp only [Prod.mk.injEq, true_and] at h1
      subst h1
      rw [if_neg (by assumption)]
      simp [Nat.mul_comm]

/-- Writing a bit sequence through a canonical write cursor, everything it can do (R136 to R139, R146). -/
theorem wrSeq_cases (cw : Word) (k : CurId) (vs bits : List Bool) (s : State) (h : s.cur k = writeCursor bits) :
    wrSeq cw k vs s =
      if roomFor s.params.bufCap bits.length vs.length = vs.length then .ok () (s.setCur k (writeCursor (bits ++ vs)))
      else refuse cw (s.setCur k (writeCursor (bits ++ vs.take (roomFor s.params.bufCap bits.length vs.length)))) := by
  unfold wrSeq
  rw [h, Cursor.wrSeq_writeCursor]
  by_cases hr : roomFor s.params.bufCap bits.length vs.length = vs.length
  · simp [hr]
  · simp [hr]

/-- With unbounded capacity a write always goes through. -/
theorem wrSeq_unbounded (cw : Word) (k : CurId) (vs bits : List Bool) (s : State) (h : s.cur k = writeCursor bits)
    (hc : s.params.bufCap = none) : wrSeq cw k vs s = .ok () (s.setCur k (writeCursor (bits ++ vs))) := by
  rw [wrSeq_cases cw k vs bits s h, hc]; simp [roomFor]

/-! ### The canonical form of the stored data -/

theorem Memory.wf_iff (s : State) :
    Memory.wf s = true ↔ (∀ k, (s.cur k).wf = true) ∧ s.pal.length ≤ Config.palMax := by
  simp only [Memory.wf, Bool.and_eq_true, decide_eq_true_eq]
  constructor
  · rintro ⟨⟨⟨⟨⟨h0, h1⟩, h2⟩, h3⟩, h4⟩, h5⟩
    exact ⟨fun k => by cases k <;> assumption, h5⟩
  · rintro ⟨h, h5⟩
    exact ⟨⟨⟨⟨⟨h .ch, h .cn⟩, h .ct⟩, h .bd⟩, h .fr⟩, h5⟩

/-- Reset leaves the canonical form (R37). -/
theorem Memory.wf_reset : Memory.wf State.reset = true := by decide

theorem Memory.wf_setCur (s : State) (k : CurId) (c : Cursor) (h : Memory.wf s = true) (hc : c.wf = true) :
    Memory.wf (s.setCur k c) = true := by
  rw [Memory.wf_iff] at *
  refine ⟨fun j => ?_, by simpa using h.2⟩
  by_cases hj : j = k
  · subst hj; simpa using hc
  · simpa [hj] using h.1 j

theorem Memory.wf_takeFault (s : State) (kind : FaultKind) (a b c : Nat) :
    Memory.wf (s.takeFault kind a b c) = Memory.wf s := rfl

theorem Memory.wf_leaveFault (s : State) : Memory.wf s.leaveFault = true := Memory.wf_reset

theorem Memory.wf_openW (k : CurId) (s : State) (h : Memory.wf s = true) : Memory.wf (openW k s) = true :=
  Memory.wf_setCur s k _ h Cursor.wf_openW

theorem Memory.wf_openR (k : CurId) (s : State) (h : Memory.wf s = true) : Memory.wf (openR k s) = true :=
  Memory.wf_setCur s k _ h (Cursor.wf_openR _)

theorem Memory.wf_hostBuffer (k : CurId) (bytes : List Byte) (s : State) (h : Memory.wf s = true) :
    Memory.wf (hostBuffer k bytes s) = true :=
  Memory.wf_setCur s k _ h (by simp [Cursor.wf_iff, Cursor.pos])

theorem Memory.wf_rdBits (k : CurId) (n : Nat) (s : State) (h : Memory.wf s = true) :
    Memory.wf (rdBits k n s).state = true := by
  have hc := Cursor.wf_rdBits n (s.cur k) ((Memory.wf_iff s).1 h |>.1 k)
  unfold rdBits
  split <;> rename_i heq <;> rw [heq] at hc
  · exact Memory.wf_setCur s k _ h hc
  · rw [raise_state, Memory.wf_takeFault]; exact Memory.wf_setCur s k _ h hc

theorem Memory.wf_rdBytes (k : CurId) (m : Nat) (s : State) (h : Memory.wf s = true) :
    Memory.wf (rdBytes k m s).state = true := by
  have hc := Cursor.wf_rdBytesFrom [] m (s.cur k) ((Memory.wf_iff s).1 h |>.1 k)
  unfold rdBytes
  split <;> rename_i heq <;> rw [heq] at hc
  · exact Memory.wf_setCur s k _ h hc
  · rw [raise_state, Memory.wf_takeFault]; exact Memory.wf_setCur s k _ h hc

theorem Memory.wf_wrSeq (cw : Word) (k : CurId) (bits : List Bool) (s : State) (h : Memory.wf s = true)
    (hm : (s.cur k).mode = .writing) : Memory.wf (wrSeq cw k bits s).state = true := by
  have hc := Cursor.wf_wrSeq s.params.bufCap bits (s.cur k) ((Memory.wf_iff s).1 h |>.1 k) hm
  unfold wrSeq
  split <;> rename_i heq <;> rw [heq] at hc
  · exact Memory.wf_setCur s k _ h hc
  · rw [refuse_state, Memory.wf_takeFault]; exact Memory.wf_setCur s k _ h hc

/-- A write leaves its context in mode W (R136). -/
theorem wrSeq_mode (cw : Word) (k : CurId) (bits : List Bool) (s : State) (h : Memory.wf s = true)
    (hm : (s.cur k).mode = .writing) : ((wrSeq cw k bits s).state.cur k).mode = .writing := by
  have hc := Cursor.wf_mode_wrSeq s.params.bufCap bits (s.cur k) ((Memory.wf_iff s).1 h |>.1 k) hm
  unfold wrSeq
  split <;> rename_i heq <;> rw [heq] at hc
  · simpa using hc
  · cases k <;> exact hc

end Sys2Proof.Machine
end

