-- ==== Sys2Proof/Laws/Decoder.lean ====
section
/-! SUPPORT. What the operations of `RLE_DECODE` and of the record forms can do. -/

namespace Sys2Proof.Machine

/-- `consume`, everything it can do. -/
theorem consume_cases (k : CurId) (n : Nat) (s : State) (h : (s.cur k).pos ≤ 8 * (s.cur k).buf.length) :
    consume k n s =
      if (s.cur k).pos + n ≤ 8 * (s.cur k).buf.length then .ok () (s.setCur k ((s.cur k).at ((s.cur k).pos + n)))
      else raise .outOfRange k.num ((s.cur k).buf.length * 8) ((s.cur k).buf.length * 8)
        (s.setCur k ((s.cur k).at (8 * (s.cur k).buf.length))) := by
  rw [consume, rdBits_cases k n s h]
  split <;> rfl

/-- The next bits of a context, as the fetch sees them. -/
theorem Cursor.peek_spec (n : Nat) (c : Cursor) (h : c.pos ≤ 8 * c.buf.length) :
    c.peek n = if c.pos + n ≤ 8 * c.buf.length then some (c.rest.take n) else none := by
  rw [Cursor.peek, Cursor.rdBits_spec n c h]
  split
  · have hl : (c.rest.take n).length = n := by
      rw [List.length_take, Cursor.rest, List.length_drop, bytesBits_length]; omega
    have := bitsOf_valOf (c.rest.take n)
    rw [hl] at this
    simp [this]
  · rfl

/-- `appendRun` always goes on. -/
theorem appendRun_eq (l : Nat) (col : Pixel) (s : State) :
    appendRun l col s = .ok () { s with out := s.out ++ List.replicate l col } := rfl

/-- `favouriteRun`, everything it can do (R213). -/
theorem favouriteRun_cases (i l : Nat) (s : State) :
    favouriteRun i l s =
      if i < favCount s.pal then .ok () { s with out := s.out ++ List.replicate l (s.pal.getD i 0) }
      else raise .corruptStream 1 (favCount s.pal) i s := by
  unfold favouriteRun
  split <;> rename_i h
  · rw [if_neg (by omega)]
  · rw [if_pos (by omega)]; rfl

/-- `paletteRun`, everything it can do (R213). -/
theorem paletteRun_cases (j l : Nat) (s : State) :
    paletteRun j l s =
      if j < s.pal.length then .ok () { s with out := s.out ++ List.replicate l (s.pal.getD j 0) }
      else raise .corruptStream 2 s.pal.length j s := by
  unfold paletteRun
  split <;> rename_i h
  · rw [if_neg (by omega)]
  · rw [if_pos (by omega)]; rfl

/-- What the decoder keeps of a state: every buffer and mode, and the palette. -/
def DecodeKeeps (s t : State) : Prop :=
  (∀ k, (t.cur k).buf = (s.cur k).buf ∧ (t.cur k).mode = (s.cur k).mode) ∧ t.pal = s.pal ∧
  t = { s with
    ch := t.ch, cn := t.cn, ct := t.ct, bd := t.bd, fr := t.fr
    out := t.out, ri := t.ri, nf := t.nf, fk := t.fk, info := t.info }

theorem DecodeKeeps.same (s : State) : DecodeKeeps s s := ⟨fun _ => ⟨rfl, rfl⟩, rfl, rfl⟩

theorem DecodeKeeps.trans {s t u : State} (h : DecodeKeeps s t) (g : DecodeKeeps t u) : DecodeKeeps s u := by
  obtain ⟨h1, h2, h3⟩ := h
  obtain ⟨g1, g2, g3⟩ := g
  refine ⟨fun k => ⟨(g1 k).1.trans (h1 k).1, (g1 k).2.trans (h1 k).2⟩, g2.trans h2, ?_⟩
  rw [h3] at g3
  exact g3

theorem rdBits_decodeKeeps (k : CurId) (n : Nat) (s : State) : DecodeKeeps s (rdBits k n s).state := by
  have hf := Cursor.rdBits_frame n (s.cur k)
  unfold rdBits
  split <;> rename_i heq <;> rw [heq] at hf <;> obtain ⟨h1, h2⟩ := hf <;>
    refine ⟨fun j => ?_, by cases k <;> rfl, by cases k <;> rfl⟩ <;>
    cases k <;> cases j <;> first | exact ⟨h1, h2⟩ | exact ⟨rfl, rfl⟩

/-- `bind` keeps what both parts keep. -/
theorem Res.bind_decodeKeeps {α β : Type} (s : State) (r : Res α) (f : α → State → Res β)
    (hr : DecodeKeeps s r.state) (hf : ∀ a t, DecodeKeeps t (f a t).state) : DecodeKeeps s (r.bind f).state := by
  cases r with
  | ok a t => exact hr.trans (hf a t)
  | raised t => exact hr

theorem appendRun_decodeKeeps (l : Nat) (col : Pixel) (s : State) : DecodeKeeps s (appendRun l col s).state :=
  ⟨fun k => by cases k <;> exact ⟨rfl, rfl⟩, rfl, rfl⟩

theorem favouriteRun_decodeKeeps (i l : Nat) (s : State) : DecodeKeeps s (favouriteRun i l s).state := by
  rw [favouriteRun_cases]
  split <;> exact ⟨fun k => by cases k <;> exact ⟨rfl, rfl⟩, rfl, rfl⟩

theorem paletteRun_decodeKeeps (j l : Nat) (s : State) : DecodeKeeps s (paletteRun j l s).state := by
  rw [paletteRun_cases]
  split <;> exact ⟨fun k => by cases k <;> exact ⟨rfl, rfl⟩, rfl, rfl⟩

theorem setNf_decodeKeeps (s : State) : DecodeKeeps s { s with nf := true } :=
  ⟨fun k => by cases k <;> exact ⟨rfl, rfl⟩, rfl, rfl⟩

theorem recordColour_decodeKeeps (c f : Bool) (l : Nat) (s : State) : DecodeKeeps s (recordColour c f l s).state := by
  unfold recordColour
  split
  · split
    · exact Res.bind_decodeKeeps s _ _ (rdBits_decodeKeeps _ _ s) fun i t => favouriteRun_decodeKeeps _ _ t
    · exact Res.bind_decodeKeeps s _ _ ((setNf_decodeKeeps s).trans (rdBits_decodeKeeps _ _ _)) fun i t =>
        paletteRun_decodeKeeps _ _ t
  · exact appendRun_decodeKeeps _ _ s

/-- One record (R205) writes no buffer, no mode, no palette; only positions, `OUT`, `NF` and the fault (R74, R82). -/
theorem record_decodeKeeps (s : State) : DecodeKeeps s (record s).state := by
  refine Res.bind_decodeKeeps s _ _ (rdBits_decodeKeeps _ _ s) fun m t => ?_
  refine Res.bind_decodeKeeps t _ _ (rdBits_decodeKeeps _ _ t) fun c t => ?_
  refine Res.bind_decodeKeeps t _ _ ?_ fun f t => ?_
  · split
    · exact rdBits_decodeKeeps _ _ t
    · exact DecodeKeeps.same t
  refine Res.bind_decodeKeeps t _ _ ?_ fun l t => recordColour_decodeKeeps _ _ _ t
  split
  · exact Res.bind_decodeKeeps t _ _ (rdBits_decodeKeeps _ _ t) fun p t => DecodeKeeps.same t
  · exact DecodeKeeps.same t

/-- The record loop (R201) keeps the same. -/
theorem decodeLoop_decodeKeeps (n : Nat) (s : State) : DecodeKeeps s (decodeLoop n s).state := by
  induction n generalizing s with
  | zero => exact DecodeKeeps.same s
  | succ n ih =>
    refine Res.bind_decodeKeeps s _ _ (record_decodeKeeps s) fun _ t => ?_
    exact DecodeKeeps.trans ⟨fun k => by cases k <;> exact ⟨rfl, rfl⟩, rfl, rfl⟩ (ih _)

/-! ### The canonical form -/

theorem Memory.wf_recordColour (c f : Bool) (l : Nat) (s : State) (h : Memory.wf s = true) :
    Memory.wf (recordColour c f l s).state = true := by
  unfold recordColour
  split
  · split
    · refine Res.bind_keeps (Memory.wf · = true) _ _ (Memory.wf_rdBits _ _ s h) fun i t _ ht => ?_
      rw [favouriteRun_cases]; split <;> exact ht
    · refine Res.bind_keeps (Memory.wf · = true) _ _ (Memory.wf_rdBits _ _ _ h) fun i t _ ht => ?_
      rw [paletteRun_cases]; split <;> exact ht
  · exact h

theorem Memory.wf_record (s : State) (h : Memory.wf s = true) : Memory.wf (record s).state = true := by
  refine Res.bind_keeps (Memory.wf · = true) _ _ (Memory.wf_rdBits _ _ s h) fun m t _ ht => ?_
  refine Res.bind_keeps (Memory.wf · = true) _ _ (Memory.wf_rdBits _ _ t ht) fun c t _ ht => ?_
  refine Res.bind_keeps (Memory.wf · = true) _ _ ?_ fun f t _ ht => ?_
  · split
    · exact Memory.wf_rdBits _ _ t ht
    · exact ht
  refine Res.bind_keeps (Memory.wf · = true) _ _ ?_ fun l t _ ht => Memory.wf_recordColour _ _ _ t ht
  split
  · exact Res.bind_keeps (Memory.wf · = true) _ _ (Memory.wf_rdBits _ _ t ht) fun p t _ ht => ht
  · exact ht

theorem Memory.wf_decodeLoop (n : Nat) (s : State) (h : Memory.wf s = true) :
    Memory.wf (decodeLoop n s).state = true := by
  induction n generalizing s with
  | zero => exact h
  | succ n ih =>
    exact Res.bind_keeps (Memory.wf · = true) _ _ (Memory.wf_record s h) fun _ t _ ht => ih _ ht

/-- `RleDecode()` keeps the canonical form of the stored data. -/
theorem Memory.wf_rleDecode (s : State) (h : Memory.wf s = true) : Memory.wf (rleDecode s).state = true := by
  have hs : Memory.wf (openR .bd (openR .ct (openR .cn (openR .ch s)))) = true :=
    Memory.wf_openR _ _ (Memory.wf_openR _ _ (Memory.wf_openR _ _ (Memory.wf_openR _ _ h)))
  refine Res.bind_keeps (Memory.wf · = true) _ _ (Memory.wf_decodeLoop _ _ hs) fun _ t _ ht => ?_
  unfold decodeEnd
  split <;> exact ht

/-- The reads of the record forms keep the canonical form. -/
theorem Memory.wf_consume (k : CurId) (n : Nat) (s : State) (h : Memory.wf s = true) :
    Memory.wf (consume k n s).state = true :=
  Res.bind_keeps (Memory.wf · = true) _ _ (Memory.wf_rdBits k n s h) fun _ _ _ ht => ht

theorem Memory.wf_consumeFlags (coloured : Bool) (s : State) (h : Memory.wf s = true) :
    Memory.wf (consumeFlags coloured s).state = true := by
  refine Res.bind_keeps (Memory.wf · = true) _ _ (Memory.wf_consume _ _ s h) fun _ t _ ht => ?_
  refine Res.bind_keeps (Memory.wf · = true) _ _ (Memory.wf_consume _ _ t ht) fun _ t _ ht => ?_
  split
  · exact Memory.wf_consume _ _ t ht
  · exact ht

end Sys2Proof.Machine
end

