-- ==== Sys2Proof/Laws/Encoder.lean ====
section
/-! SUPPORT. What the operations of `RLE_ENCODE` can do: one record, the scan, and what both keep. -/

namespace Sys2Proof.Machine

/-- `palPos` is the least position of a colour (R181). -/
theorem palPos_spec (col : Pixel) (pal : List Pixel) :
    palPos col pal = if col ∈ pal then some (pal.idxOf col) else none := by
  induction pal with
  | nil => simp [palPos]
  | cons x xs ih =>
    unfold palPos
    by_cases hx : x = col
    · simp [hx]
    · rw [if_neg hx, ih]
      by_cases hm : col ∈ xs
      · simp [hm, hx]
      · simp [hm, Ne.symm hx]

/-- There is room for `m` more bits behind `n` written ones. -/
def hasRoom (cap : Option Nat) (n m : Nat) : Prop := roomFor cap n m = m

theorem hasRoom_of_le (cap : Option Nat) (n m : Nat) (h : ∀ b, cap = some b → n + m ≤ 8 * b) : hasRoom cap n m := by
  cases cap with
  | none => rfl
  | some b =>
    have := h b rfl
    simp only [hasRoom, roomFor]
    omega

theorem wrBits_writeCursor (cw : Word) (k : CurId) (n x : Nat) (bits : List Bool) (s : State)
    (h : s.cur k = writeCursor bits) (hr : hasRoom s.params.bufCap bits.length n) :
    wrBits cw k n x s = .ok () (s.setCur k (writeCursor (bits ++ bitsOf n x))) := by
  rw [wrBits, wrSeq_cases cw k _ bits s h, bitsOf_length, if_pos (show roomFor _ _ _ = _ from hr)]

/-- `SC` after one more record depends on nothing that writing bits changes. -/
theorem nextStreakCount_congr (s t : State) (h1 : t.sc = s.sc) (h2 : t.pix = s.pix) (h3 : t.pal = s.pal)
    (h4 : t.si = s.si) : nextStreakCount t = nextStreakCount s := by
  simp [nextStreakCount, h1, h2, h3, h4]

/-! ### One record -/

theorem bitsOf_ofNat (w n v : Nat) (h : n ≤ w) : bitsOf n (BitVec.ofNat w v).toNat = bitsOf n v := by
  apply bitsOf_congr
  rw [BitVec.toNat_ofNat, Nat.mod_mod_of_dvd _ (Nat.pow_dvd_pow 2 h)]

theorem bitsOf_payload (l : Nat) : bitsOf 8 (payloadOfLength l) = bitsOf 8 l := by
  apply bitsOf_congr
  simp [payloadOfLength]

/-- `s` with the four streams holding exactly these written bits, and `NF`. -/
def State.withStreams (s : State) (xs ys zs bs : List Bool) (nf : Bool) : State :=
  { s with ch := writeCursor xs, cn := writeCursor ys, ct := writeCursor zs, bd := writeCursor bs, nf := nf }

/-- The four streams have room for a record of `b` body bits behind these bits. -/
def roomForRecord (cap : Option Nat) (xs ys zs bs : List Bool) (b : Nat) : Prop :=
  hasRoom cap xs.length 1 ∧ hasRoom cap ys.length 1 ∧ hasRoom cap zs.length 1 ∧ hasRoom cap bs.length b

theorem hasRoom_split (cap : Option Nat) (n a b : Nat) (h : hasRoom cap n (a + b)) :
    hasRoom cap n a ∧ hasRoom cap (n + a) b := by
  cases cap with
  | none => exact ⟨rfl, rfl⟩
  | some c =>
    simp only [hasRoom, roomFor, ceil8] at h ⊢
    omega

section
variable (cw : Word) (s : State) (xs ys zs bs : List Bool) (nf : Bool) (n x : Nat)

theorem wrBits_withStreams_ch (h : hasRoom s.params.bufCap xs.length n) :
    wrBits cw .ch n x (s.withStreams xs ys zs bs nf) = .ok () (s.withStreams (xs ++ bitsOf n x) ys zs bs nf) :=
  wrBits_writeCursor cw .ch n x xs _ rfl h

theorem wrBits_withStreams_cn (h : hasRoom s.params.bufCap ys.length n) :
    wrBits cw .cn n x (s.withStreams xs ys zs bs nf) = .ok () (s.withStreams xs (ys ++ bitsOf n x) zs bs nf) :=
  wrBits_writeCursor cw .cn n x ys _ rfl h

theorem wrBits_withStreams_ct (h : hasRoom s.params.bufCap zs.length n) :
    wrBits cw .ct n x (s.withStreams xs ys zs bs nf) = .ok () (s.withStreams xs ys (zs ++ bitsOf n x) bs nf) :=
  wrBits_writeCursor cw .ct n x zs _ rfl h

theorem wrBits_withStreams_bd (h : hasRoom s.params.bufCap bs.length n) :
    wrBits cw .bd n x (s.withStreams xs ys zs bs nf) = .ok () (s.withStreams xs ys zs (bs ++ bitsOf n x) nf) :=
  wrBits_writeCursor cw .bd n x bs _ rfl h

end

/-- `Emit`'s coloured part (R181 step 3): the colour-type bit and the index, with `NF` set for a non-favourite. -/
theorem emitColour_spec (cw : Word) (col : Pixel) (s : State) (xs ys zs bs : List Bool) (nf : Bool)
    (hc : col ∈ s.pal) (hz : hasRoom s.params.bufCap zs.length 1)
    (hb : hasRoom s.params.bufCap bs.length (if s.pal.idxOf col < 16 then 4 else 8)) :
    emitColour cw col (s.withStreams xs ys zs bs nf) = .ok ()
      (if s.pal.idxOf col < 16 then
        s.withStreams xs ys (zs ++ [true]) (bs ++ bitsOf 4 (s.pal.idxOf col)) nf
      else
        s.withStreams xs ys (zs ++ [false])
          (bs ++ bitsOf 8 (nonfavIndex s.params.nonfav s.pal col (s.pal.idxOf col)).toNat) true) := by
  have hp : palPos col (s.withStreams xs ys zs bs nf).pal = some (s.pal.idxOf col) := by
    rw [palPos_spec]; exact if_pos hc
  unfold emitColour
  rw [hp]
  simp only
  rw [wrBits_withStreams_ct cw s _ _ _ _ _ _ _ hz, Res.bind_ok]
  by_cases hj : s.pal.idxOf col < 16
  · rw [if_pos hj] at hb
    rw [show favouriteFlag (s.pal.idxOf col) = true from decide_eq_true hj, if_pos rfl, if_pos hj]
    exact wrBits_withStreams_bd cw s _ _ _ _ _ _ _ hb
  · rw [if_neg hj] at hb
    rw [show favouriteFlag (s.pal.idxOf col) = false from decide_eq_false hj, if_neg (by decide), if_neg hj]
    exact wrBits_withStreams_bd cw s _ _ _ _ true _ _ hb

/-- The bits of a streak's record form, field by field (R100, R101). -/
theorem streakRecord_bits (table : List Config.NonfavEntry) (pal : List Pixel) (col : Pixel) (l : Nat) :
    encode (streakRecord table pal (col, l)) = .record
      ⟨decide (col ≠ 0), decide (l ≠ 1), if col = 0 then none else some (decide (pal.idxOf col < 16)),
        (if l = 1 then [] else bitsOf 8 l) ++
        (if col = 0 then [] else if pal.idxOf col < 16 then bitsOf 4 (pal.idxOf col)
          else bitsOf 8 (nonfavIndex table pal col (pal.idxOf col)).toNat)⟩ := by
  by_cases h0 : col = 0 <;> by_cases hl : l = 1 <;> by_cases hj : pal.idxOf col < 16 <;>
    simp only [streakRecord, encode, h0, hl, hj, if_true, if_false, bitsOf_ofNat, le_refl, ne_eq, not_true, not_false_eq_true,
      decide_true, decide_false, List.nil_append, List.append_nil]

theorem streakRecord_isNonFavourite (table : List Config.NonfavEntry) (pal : List Pixel) (col : Pixel) (l : Nat) :
    isNonFavourite (streakRecord table pal (col, l)) = (decide (col ≠ 0) && decide (¬ pal.idxOf col < 16)) := by
  by_cases h0 : col = 0 <;> by_cases hl : l = 1 <;> by_cases hj : pal.idxOf col < 16 <;>
    simp only [streakRecord, isNonFavourite, h0, hl, hj, if_true, if_false, ne_eq, not_true, not_false_eq_true,
      decide_true, decide_false, Bool.and_true, Bool.and_false, Bool.false_and]

/-- Where the four streams have room, `Emit` (R181) appends exactly the bits of the streak's record form (R101). -/
theorem emit_spec (cw : Word) (col : Pixel) (l : Nat) (s : State) (xs ys zs bs : List Bool) (nf : Bool)
    (hl : 1 ≤ l) (hc : col = 0 ∨ col ∈ s.pal)
    (room : roomForRecord s.params.bufCap xs ys zs bs
      (bodyBits [streakRecord s.params.nonfav s.pal (col, l)]).length) :
    emit cw col l (s.withStreams xs ys zs bs nf) = .ok ()
      { s.withStreams (xs ++ chromaBits [streakRecord s.params.nonfav s.pal (col, l)])
          (ys ++ countBits [streakRecord s.params.nonfav s.pal (col, l)])
          (zs ++ colourTypeBits [streakRecord s.params.nonfav s.pal (col, l)])
          (bs ++ bodyBits [streakRecord s.params.nonfav s.pal (col, l)])
          (nf || isNonFavourite (streakRecord s.params.nonfav s.pal (col, l))) with sc := nextStreakCount s } := by
  have hn : ∀ xs ys zs bs nf, nextStreakCount (s.withStreams xs ys zs bs nf) = nextStreakCount s :=
    fun _ _ _ _ _ => rfl
  have hcount : countFlag l = decide (l ≠ 1) := by simp only [countFlag]; congr 1; exact propext (by omega)
  have one : ∀ b : Bool, bitsOf 1 b.toNat = [b] := by decide
  obtain ⟨rx, ry, rz, rb⟩ := room
  simp only [chromaBits, countBits, colourTypeBits, bodyBits, recordBitsOf, List.filterMap_cons, List.filterMap_nil,
    streakRecord_bits, streakRecord_isNonFavourite, List.map_cons, List.map_nil, List.flatMap_cons, List.flatMap_nil,
    List.append_nil, List.length_append] at rb ⊢
  obtain ⟨rl, rj⟩ := hasRoom_split _ _ _ _ rb
  unfold emit
  rw [wrBits_withStreams_ch cw s _ _ _ _ _ _ _ rx, Res.bind_ok, wrBits_withStreams_cn cw s _ _ _ _ _ _ _ ry, Res.bind_ok]
  simp only [one, hcount]
  have hlen : ∀ t : State, t = s.withStreams (xs ++ [chromaFlag col]) (ys ++ [decide (l ≠ 1)]) zs bs nf →
      (if decide (l ≠ 1) then wrBits cw .bd Config.lenBits (payloadOfLength l) t else .ok () t) =
      .ok () (s.withStreams (xs ++ [chromaFlag col]) (ys ++ [decide (l ≠ 1)]) zs
        (bs ++ if l = 1 then [] else bitsOf 8 l) nf) := by
    rintro t rfl
    by_cases h1 : l = 1
    · simp [h1]
    · rw [if_neg h1, bitsOf_length] at rl
      rw [if_pos (decide_eq_true h1), if_neg h1, ← bitsOf_payload]
      exact wrBits_withStreams_bd cw s _ _ _ _ _ _ _ rl
  rw [hlen _ rfl, Res.bind_ok]
  by_cases h0 : col = 0
  · rw [if_neg (by simp [chromaFlag, h0, Config.sentinel]), Res.bind_ok]
    simp [h0, chromaFlag, Config.sentinel, hn]
  · have hch : chromaFlag col = true := decide_eq_true h0
    have h0' : col ≠ 0#32 := h0
    rw [if_neg h0] at rj
    rw [hch, if_pos rfl, emitColour_spec cw col s _ _ _ _ _ (hc.resolve_left h0) rz, Res.bind_ok]
    · by_cases hj : s.pal.idxOf col < 16 <;> simp [h0', hj, hn]
    · rw [List.length_append]
      by_cases hj : s.pal.idxOf col < 16 <;> simpa [hj] using rj

/-! ### What the encoder keeps -/

/-- What the encoder keeps of a state: everything but the four streams and its own registers (R39, R77). -/
def EncodeKeeps (s t : State) : Prop :=
  t = { s with
    ch := t.ch, cn := t.cn, ct := t.ct, bd := t.bd, si := t.si, cc := t.cc, rl := t.rl, sc := t.sc
    nf := t.nf, fk := t.fk, info := t.info }

theorem EncodeKeeps.same (s : State) : EncodeKeeps s s := rfl

theorem EncodeKeeps.trans {s t u : State} (h : EncodeKeeps s t) (g : EncodeKeeps t u) : EncodeKeeps s u := by
  unfold EncodeKeeps at *
  rw [h] at g
  exact g

theorem Res.bind_encodeKeeps {α β : Type} (s : State) (r : Res α) (f : α → State → Res β)
    (hr : EncodeKeeps s r.state) (hf : ∀ a t, EncodeKeeps t (f a t).state) : EncodeKeeps s (r.bind f).state := by
  cases r with
  | ok a t => exact hr.trans (hf a t)
  | raised t => exact hr

theorem wrBits_encodeKeeps (cw : Word) (k : CurId) (n x : Nat) (s : State) (h : k ≠ .fr) :
    EncodeKeeps s (wrBits cw k n x s).state := by
  unfold wrBits wrSeq
  split <;> cases k <;> first | exact absurd rfl h | rfl

theorem emitColour_encodeKeeps (cw : Word) (col : Pixel) (s : State) : EncodeKeeps s (emitColour cw col s).state := by
  unfold emitColour
  split
  · exact rfl
  · refine Res.bind_encodeKeeps s _ _ (wrBits_encodeKeeps _ _ _ _ s (by decide)) fun _ t => ?_
    split
    · exact wrBits_encodeKeeps _ _ _ _ t (by decide)
    · exact EncodeKeeps.trans (t := { t with nf := true }) rfl (wrBits_encodeKeeps _ _ _ _ _ (by decide))

theorem emit_encodeKeeps (cw : Word) (col : Pixel) (l : Nat) (s : State) : EncodeKeeps s (emit cw col l s).state := by
  refine Res.bind_encodeKeeps s _ _ (wrBits_encodeKeeps _ _ _ _ s (by decide)) fun _ t => ?_
  refine Res.bind_encodeKeeps t _ _ (wrBits_encodeKeeps _ _ _ _ t (by decide)) fun _ t => ?_
  refine Res.bind_encodeKeeps t _ _ ?_ fun _ t => Res.bind_encodeKeeps t _ _ ?_ fun _ t => rfl
  · split
    · exact wrBits_encodeKeeps _ _ _ _ t (by decide)
    · exact EncodeKeeps.same t
  · split
    · exact emitColour_encodeKeeps _ _ t
    · exact EncodeKeeps.same t

theorem encodeScan_encodeKeeps (cw : Word) (ps : List Pixel) (s : State) : EncodeKeeps s (encodeScan cw ps s).state := by
  induction ps generalizing s with
  | nil => exact EncodeKeeps.same s
  | cons p ps ih =>
    unfold encodeScan
    split
    · exact EncodeKeeps.trans (t := { s with rl := s.rl + 1, si := s.si + 1 }) rfl (ih _)
    · refine Res.bind_encodeKeeps s _ _ (emit_encodeKeeps _ _ _ s) fun _ t => ?_
      exact EncodeKeeps.trans (t := { t with cc := p, rl := 1, si := t.si + 1 }) rfl (ih _)

/-- `RleEncode()` writes the four streams and its own registers only (R39). -/
theorem rleEncode_encodeKeeps (cw : Word) (s : State) : EncodeKeeps s (rleEncode cw s).state := by
  unfold rleEncode
  split
  · exact rfl
  · refine Res.bind_encodeKeeps s _ _ ?_ fun _ t => emit_encodeKeeps _ _ _ t
    exact EncodeKeeps.trans (t := encodeStart s) rfl (encodeScan_encodeKeeps _ _ _)

/-! ### The canonical form -/

/-- The canonical form, with the four streams open for writing. -/
def StreamsOpen (s : State) : Prop := Memory.wf s = true ∧ ∀ k, k ≠ .fr → (s.cur k).mode = .writing

theorem StreamsOpen.wrBits {s : State} (h : StreamsOpen s) (cw : Word) (k : CurId) (n x : Nat) (hk : k ≠ .fr) :
    StreamsOpen (wrBits cw k n x s).state := by
  refine ⟨Memory.wf_wrSeq cw k _ s h.1 (h.2 k hk), fun j hj => ?_⟩
  have hm := Cursor.wf_mode_wrSeq s.params.bufCap (bitsOf n x) (s.cur k) ((Memory.wf_iff s).1 h.1 |>.1 k) (h.2 k hk)
  unfold Machine.wrBits wrSeq
  by_cases hjk : j = k
  · subst hjk
    split <;> rename_i heq <;> rw [heq] at hm
    · simpa using hm
    · cases j <;> first | exact absurd rfl hj | exact hm
  · split
    · simpa [hjk] using h.2 j hj
    · have := h.2 j hj
      cases k <;> cases j <;> first | exact absurd rfl hj | exact absurd rfl hjk | exact this

theorem StreamsOpen.emitColour {s : State} (h : StreamsOpen s) (cw : Word) (col : Pixel) :
    StreamsOpen (emitColour cw col s).state := by
  unfold Machine.emitColour
  split
  · exact h
  · refine Res.bind_keeps StreamsOpen _ _ (h.wrBits _ _ _ _ (by decide)) fun _ t _ ht => ?_
    split
    · exact ht.wrBits _ _ _ _ (by decide)
    · exact StreamsOpen.wrBits (s := { t with nf := true }) ht _ _ _ _ (by decide)

theorem StreamsOpen.emit {s : State} (h : StreamsOpen s) (cw : Word) (col : Pixel) (l : Nat) :
    StreamsOpen (emit cw col l s).state := by
  refine Res.bind_keeps StreamsOpen _ _ (h.wrBits _ _ _ _ (by decide)) fun _ t _ ht => ?_
  refine Res.bind_keeps StreamsOpen _ _ (ht.wrBits _ _ _ _ (by decide)) fun _ t _ ht => ?_
  refine Res.bind_keeps StreamsOpen _ _ ?_ fun _ t _ ht => Res.bind_keeps StreamsOpen _ _ ?_ fun _ t _ ht => ht
  · split
    · exact ht.wrBits _ _ _ _ (by decide)
    · exact ht
  · split
    · exact ht.emitColour _ _
    · exact ht

theorem StreamsOpen.encodeScan {s : State} (h : StreamsOpen s) (cw : Word) (ps : List Pixel) :
    StreamsOpen (encodeScan cw ps s).state := by
  induction ps generalizing s with
  | nil => exact h
  | cons p ps ih =>
    unfold Machine.encodeScan
    split
    · exact ih h
    · exact Res.bind_keeps StreamsOpen _ _ (h.emit _ _ _) fun _ t _ ht => ih ht

/-- `RleEncode()` keeps the canonical form of the stored data. -/
theorem Memory.wf_rleEncode (cw : Word) (s : State) (h : Memory.wf s = true) :
    Memory.wf (rleEncode cw s).state = true := by
  unfold rleEncode
  split
  · exact h
  · have h0 : StreamsOpen (encodeStart s) := by
      refine ⟨?_, fun k hk => by cases k <;> first | exact absurd rfl hk | rfl⟩
      exact (Memory.wf_openW _ _ (Memory.wf_openW _ _ (Memory.wf_openW _ _ (Memory.wf_openW _ _ h))) :
        Memory.wf (openW .bd (openW .ct (openW .cn (openW .ch s)))) = true)
    exact (Res.bind_keeps StreamsOpen _ _ (h0.encodeScan cw _) fun _ t _ ht => ht.emit _ _ _).1

end Sys2Proof.Machine
end

