-- ==== Sys2Proof/Laws/Palette.lean ====
section
/-! SUPPORT. What the operations of `PAL_BUILD` can do: the tally scan, the stable sort, and `palBuild` as a whole. -/

namespace Sys2Proof.Machine

/-! ### One pixel -/

/-- `bumpTally` answers nothing exactly when the colour has no entry yet. -/
theorem bumpTally_eq_none (p : Pixel) (t : List TallyEntry) : bumpTally p t = none ↔ p ∉ t.map (·.colour) := by
  induction t with
  | nil => simp [bumpTally]
  | cons e es ih =>
    unfold bumpTally
    split
    · rename_i h; simp [h]
    · rename_i h
      rw [Option.map_eq_none_iff, ih]
      simp [Ne.symm h]

/-- `bumpTally` keeps the colours and their order. -/
theorem bumpTally_colours (p : Pixel) (t t' : List TallyEntry) (h : bumpTally p t = some t') :
    t'.map (·.colour) = t.map (·.colour) := by
  induction t generalizing t' with
  | nil => simp [bumpTally] at h
  | cons e es ih =>
    unfold bumpTally at h
    split at h
    · cases h; rfl
    · obtain ⟨u, hu, rfl⟩ := Option.map_eq_some_iff.1 h
      simp [ih u hu]

/-- `bumpTally` adds one to the count of every entry of the colour, where colours are distinct. -/
theorem bumpTally_counts (p : Pixel) (t t' : List TallyEntry) (h : bumpTally p t = some t')
    (hn : (t.map (·.colour)).Nodup) (f : Pixel → Nat) (hf : ∀ e ∈ t, e.count = f e.colour) :
    ∀ e ∈ t', e.count = f e.colour + if e.colour = p then 1 else 0 := by
  induction t generalizing t' with
  | nil => simp [bumpTally] at h
  | cons x xs ih =>
    simp only [List.map_cons, List.nodup_cons, List.mem_map, not_exists, not_and] at hn
    unfold bumpTally at h
    split at h
    · rename_i hx
      cases h
      intro e he
      rcases List.mem_cons.1 he with rfl | he
      · have := hf x (by simp); simp [hx] at this ⊢; exact this
      · have : e.colour ≠ p := fun h2 => hn.1 e he (h2.trans hx.symm)
        simp [this, hf e (by simp [he])]
    · rename_i hx
      obtain ⟨u, hu, rfl⟩ := Option.map_eq_some_iff.1 h
      intro e he
      rcases List.mem_cons.1 he with rfl | he
      · simp [hx, hf e (by simp)]
      · exact ih u hu hn.2 (fun e he => hf e (by simp [he])) e he

/-! ### The scan -/

/-- `t` is the tally of `pix`: its distinct non-zero colours in the order of first occurrence, each with its count. -/
structure TallyOf (pix : List Pixel) (t : List TallyEntry) : Prop where
  colours : ∀ p, p ∈ t.map (·.colour) ↔ p ≠ 0 ∧ p ∈ pix
  counts : ∀ e ∈ t, e.count = pix.count e.colour
  order : (t.map (·.colour)).Pairwise (fun a b => pix.idxOf a < pix.idxOf b)

theorem TallyOf.nil : TallyOf [] [] := ⟨by simp, by simp, by simp⟩

theorem TallyOf.nodup {pix : List Pixel} {t : List TallyEntry} (h : TallyOf pix t) : (t.map (·.colour)).Nodup :=
  h.order.imp (fun hab => by rintro rfl; exact Nat.lt_irrefl _ hab)


/-- The order of first occurrence survives more pixels. -/
theorem TallyOf.order_append {pix : List Pixel} {t : List TallyEntry} (h : TallyOf pix t) (ps : List Pixel) :
    (t.map (·.colour)).Pairwise (fun a b => (pix ++ ps).idxOf a < (pix ++ ps).idxOf b) := by
  refine h.order.imp_of_mem fun ha hb hab => ?_
  rw [List.idxOf_append_of_mem ((h.colours _).1 ha).2, List.idxOf_append_of_mem ((h.colours _).1 hb).2]
  exact hab

/-- A transparent pixel changes no tally. -/
theorem TallyOf.skip {pix : List Pixel} {t : List TallyEntry} (h : TallyOf pix t) : TallyOf (pix ++ [0]) t where
  colours p := by rw [h.colours p]; simp; tauto
  counts e he := by
    have : e.colour ≠ 0 := ((h.colours _).1 (List.mem_map_of_mem he)).1
    rw [h.counts e he, List.count_append, List.count_singleton]; simpa using fun hh => this hh.symm
  order := h.order_append _

/-- A pixel of a colour seen before adds one to its count. -/
theorem TallyOf.bump {pix : List Pixel} {t t' : List TallyEntry} {p : Pixel} (h : TallyOf pix t)
    (hb : bumpTally p t = some t') : TallyOf (pix ++ [p]) t' where
  colours q := by
    have hp : p ∈ t.map (·.colour) := by
      by_contra hc; rw [(bumpTally_eq_none p t).2 hc] at hb; cases hb
    rw [bumpTally_colours p t t' hb, h.colours q]
    have := ((h.colours p).1 hp).2
    simp only [List.mem_append, List.mem_singleton]
    constructor
    · tauto
    · rintro ⟨h0, h1 | rfl⟩ <;> tauto
  counts e he := by
    rw [bumpTally_counts p t t' hb h.nodup (fun c => pix.count c) h.counts e he, List.count_append,
      List.count_singleton]
    rcases eq_or_ne p e.colour with rfl | hc
    · simp
    · simp [hc, hc.symm]
  order := by rw [bumpTally_colours p t t' hb]; exact h.order_append _

/-- A pixel of a new non-zero colour adds an entry at the end. -/
theorem TallyOf.add {pix : List Pixel} {t : List TallyEntry} {p : Pixel} (h : TallyOf pix t) (h0 : p ≠ 0)
    (hb : p ∉ t.map (·.colour)) : TallyOf (pix ++ [p]) (t ++ [⟨p, 1⟩]) := by
  have hpix : p ∉ pix := fun hc => hb ((h.colours p).2 ⟨h0, hc⟩)
  refine ⟨fun q => ?_, fun e he => ?_, ?_⟩
  · rw [List.map_append, List.mem_append, h.colours q]
    simp only [List.map_cons, List.map_nil, List.mem_append, List.mem_singleton]
    constructor
    · rintro (h1 | rfl) <;> tauto
    · tauto
  · rcases List.mem_append.1 he with he | he
    · have hc : e.colour ≠ p := fun hc => hb (hc ▸ List.mem_map_of_mem he)
      rw [h.counts e he, List.count_append, List.count_singleton]; simp [Ne.symm hc]
    · rw [List.mem_singleton.1 he, List.count_append, List.count_eq_zero_of_not_mem hpix]; simp
  · rw [List.map_append, List.pairwise_append]
    refine ⟨h.order_append _, by simp, fun a ha b hb' => ?_⟩
    have ha' := ((h.colours a).1 ha).2
    rw [List.map_singleton, List.mem_singleton] at hb'
    subst hb'
    rw [List.idxOf_append_of_mem ha', List.idxOf_append_of_notMem hpix]
    have := List.idxOf_lt_length_of_mem ha'
    omega

/-- The scan of R161, everything it can do: it reads every pixel, or stops at the one that brings the 257th colour. -/
theorem tallyScan_spec (ps pre : List Pixel) (t : List TallyEntry) (si : Nat) (h : TallyOf pre t)
    (hl : t.length ≤ Config.palMax) :
    (∃ t', tallyScan ps t si = (true, t', si + ps.length) ∧ TallyOf (pre ++ ps) t' ∧ t'.length ≤ Config.palMax) ∨
    (∃ t' i p, tallyScan ps t si = (false, t', si + i) ∧ ps[i]? = some p ∧ p ≠ 0 ∧ p ∉ t'.map (·.colour) ∧
      TallyOf (pre ++ ps.take i) t' ∧ t'.length = Config.palMax) := by
  induction ps generalizing pre t si with
  | nil => exact .inl ⟨t, rfl, by simpa using h, hl⟩
  | cons p ps ih =>
    have one : (∃ t2, TallyOf (pre ++ [p]) t2 ∧ t2.length ≤ Config.palMax ∧
          tallyScan (p :: ps) t si = tallyScan ps t2 (si + 1)) ∨
        (p ≠ 0 ∧ p ∉ t.map (·.colour) ∧ t.length = Config.palMax ∧ tallyScan (p :: ps) t si = (false, t, si)) := by
      by_cases h0 : p = 0
      · subst h0
        exact .inl ⟨t, h.skip, hl, by simp [tallyScan, Config.sentinel]⟩
      have hs : p ≠ Config.sentinel := h0
      cases hb : bumpTally p t with
      | some t2 =>
        refine .inl ⟨t2, h.bump hb, ?_, by simp [tallyScan, hs, hb]⟩
        have := congrArg List.length (bumpTally_colours p t t2 hb)
        simp only [List.length_map] at this
        omega
      | none =>
        have hm := (bumpTally_eq_none p t).1 hb
        by_cases hfull : t.length = Config.palMax
        · exact .inr ⟨h0, hm, hfull, by simp [tallyScan, hs, hb, hfull]⟩
        · exact .inl ⟨_, h.add h0 hm, by simp; omega, by simp [tallyScan, hs, hb, hfull]⟩
    rcases one with ⟨t2, h2, hl2, he⟩ | ⟨h0, hm, hfull, he⟩
    · rcases ih (pre ++ [p]) t2 (si + 1) h2 hl2 with ⟨t', h3, h4, h5⟩ | ⟨t', i, q, h3, h4, h5, h6, h7, h8⟩
      · exact .inl ⟨t', by rw [he, h3, List.length_cons, Nat.add_assoc, Nat.add_comm 1], by simpa using h4, h5⟩
      · exact .inr ⟨t', i + 1, q, by rw [he, h3, Nat.add_assoc, Nat.add_comm 1], by simpa using h4, h5, h6,
          by simpa using h7, h8⟩
    · exact .inr ⟨t, 0, p, he, rfl, h0, hm, by simpa using h, hfull⟩

/-! ### The stable sort -/

theorem insertByCount_perm (e : TallyEntry) (t : List TallyEntry) : (insertByCount e t).Perm (e :: t) := by
  induction t with
  | nil => exact List.Perm.refl _
  | cons x xs ih =>
    unfold insertByCount
    split
    · exact List.Perm.refl _
    · exact (List.Perm.cons x ih).trans (List.Perm.swap e x xs)

/-- `sortByCount` loses and adds nothing. -/
theorem sortByCount_perm (t : List TallyEntry) : (sortByCount t).Perm t := by
  have : ∀ acc : List TallyEntry, (t.foldl (fun acc e => insertByCount e acc) acc).Perm (acc ++ t) := by
    induction t with
    | nil => simp
    | cons x xs ih =>
      intro acc
      refine (ih _).trans (((insertByCount_perm x acc).append_right xs).trans ?_)
      exact (List.perm_middle (a := x) (l₁ := acc) (l₂ := xs)).symm
  simpa [sortByCount] using this []

/-- Inserting behind every entry of at least its own count keeps any order in which earlier entries count more, or as
much and stand before in `R`, provided the new entry stands after all the others in `R`. -/
theorem insertByCount_pairwise (R : TallyEntry → TallyEntry → Prop) (e : TallyEntry) (t : List TallyEntry)
    (h : t.Pairwise (fun a b => b.count < a.count ∨ (b.count = a.count ∧ R a b))) (hR : ∀ x ∈ t, R x e) :
    (insertByCount e t).Pairwise (fun a b => b.count < a.count ∨ (b.count = a.count ∧ R a b)) := by
  induction t with
  | nil => simp [insertByCount]
  | cons x xs ih =>
    rw [List.pairwise_cons] at h
    unfold insertByCount
    split
    · rename_i hx
      refine List.pairwise_cons.2 ⟨fun b hb => ?_, List.pairwise_cons.2 h⟩
      rcases List.mem_cons.1 hb with rfl | hb
      · exact .inl hx
      · rcases h.1 b hb with h1 | h1 <;> exact .inl (by omega)
    · rename_i hx
      refine List.pairwise_cons.2 ⟨fun b hb => ?_, ih h.2 fun y hy => hR y (by simp [hy])⟩
      rcases List.mem_cons.1 ((insertByCount_perm e xs).mem_iff.1 hb) with rfl | hb
      · have := hR x (by simp)
        rcases Nat.lt_or_ge b.count x.count with h1 | h1
        · exact .inl h1
        · exact .inr ⟨by omega, this⟩
      · exact h.1 b hb

/-- `sortByCount` is stable: descending counts, equal counts in the order `R` they had. -/
theorem sortByCount_pairwise (R : TallyEntry → TallyEntry → Prop) (t : List TallyEntry) (h : t.Pairwise R) :
    (sortByCount t).Pairwise (fun a b => b.count < a.count ∨ (b.count = a.count ∧ R a b)) := by
  have : ∀ acc : List TallyEntry, (acc ++ t).Pairwise R ∨ True → ∀ _ : ∀ x ∈ acc, ∀ y ∈ t, R x y,
      acc.Pairwise (fun a b => b.count < a.count ∨ (b.count = a.count ∧ R a b)) →
      (t.foldl (fun acc e => insertByCount e acc) acc).Pairwise
        (fun a b => b.count < a.count ∨ (b.count = a.count ∧ R a b)) := by
    induction t with
    | nil => intro acc _ _ h; exact h
    | cons x xs ih =>
      intro acc _ hx ha
      rw [List.pairwise_cons] at h
      refine ih h.2 _ (.inr trivial) (fun y hy z hz => ?_)
        (insertByCount_pairwise R x acc ha fun y hy => hx y hy x (by simp))
      rcases List.mem_cons.1 ((insertByCount_perm x acc).mem_iff.1 hy) with rfl | hy
      · exact h.1 z hz
      · exact hx y hy z (by simp [hz])
  exact this [] (.inr trivial) (by simp) (by simp)

/-! ### `palBuild` -/

/-- `PalBuild()`, everything it can do (R161, R163). -/
theorem palBuild_cases (s : State) :
    (∃ t, TallyOf s.pix t ∧ t.length ≤ Config.palMax ∧
      palBuild s = .ok () { s with tally := t, si := s.pix.length, pal := (sortByCount t).map (·.colour) }) ∨
    (∃ t i p, s.pix[i]? = some p ∧ p ≠ 0 ∧ p ∉ t.map (·.colour) ∧ TallyOf (s.pix.take i) t ∧ t.length = Config.palMax ∧
      palBuild s = raise .tooManyColors i Config.palMax (Config.palMax + 1) { s with tally := t, si := i }) := by
  rcases tallyScan_spec s.pix [] [] 0 TallyOf.nil (by simp) with ⟨t, h1, h2, h3⟩ | ⟨t, i, p, h1, h2, h3, h4, h5, h6⟩
  · exact .inl ⟨t, by simpa using h2, h3, by simp [palBuild, h1]⟩
  · exact .inr ⟨t, i, p, h2, h3, h4, by simpa using h5, h6, by simp [palBuild, h1]⟩

/-- `PalBuild()` keeps the canonical form of the stored data. -/
theorem Memory.wf_palBuild (s : State) (h : Memory.wf s = true) : Memory.wf (palBuild s).state = true := by
  rw [Memory.wf_iff] at h ⊢
  rcases palBuild_cases s with ⟨t, -, hl, he⟩ | ⟨t, i, p, -, -, -, -, -, he⟩ <;> rw [he]
  · refine ⟨fun k => ?_, ?_⟩
    · have := h.1 k
      cases k <;> exact this
    · simpa [(sortByCount_perm t).length_eq] using hl
  · exact ⟨fun k => by have := h.1 k; cases k <;> exact this, h.2⟩

end Sys2Proof.Machine
end

