-- ==== Sys2Proof/Laws/Container.lean ====
section
/-! SUPPORT. What the container commands write and read, and that they and the host's writes keep `Memory.wf`. -/

namespace Sys2Proof.Machine

/-! ### The bytes a container's groups stand for -/

theorem groupBits_cons (n x : Nat) (gs : List (Nat × Nat)) : groupBits ((n, x) :: gs) = bitsOf n x ++ groupBits gs := rfl

theorem groupBits_palette (pal : List Pixel) :
    groupBits (pal.map (fun p => (32, p.toNat))) = bytesBits (pal.flatMap be32) := by
  induction pal with
  | nil => rfl
  | cons p ps ih => rw [List.map_cons, groupBits_cons, ih, bitsOf_be32, List.flatMap_cons, bytesBits_append]

/-- The groups before the length registers are the container's bytes up to the palette (R110, R231). -/
theorem headerGroups_bits (s : State) : groupBits (headerGroups s) = bytesBits
    ([0x08#8, 0x09#8, 0x03#8, 0x01#8] ++ be32 s.w ++ be32 s.h ++ [BitVec.ofNat 8 s.pal.length] ++
      s.pal.flatMap be32) := by
  have h8 : bitsOf 8 s.pal.length = bytesBits [BitVec.ofNat 8 s.pal.length] := by
    rw [bytesBits_cons, bitsOf_ofNat 8 8 _ (le_refl _)]; simp [bytesBits]
  simp only [headerGroups, groupBits_append, groupBits_byteGroups, groupBits_cons, groupBits_palette, bitsOf_be32, h8,
    bytesBits_append, Config.signature, Config.version]
  simp [bytesBits, groupBits]

/-- The groups after the length registers are the rest of the container's bytes (R110, R231). -/
theorem payloadGroups_bits (s : State) : groupBits (payloadGroups s) = bytesBits
    (be32 s.lch ++ be32 s.lcn ++ be32 s.lct ++ be32 s.sc ++ s.ch.buf ++ s.cn.buf ++ s.ct.buf ++ s.bd.buf) := by
  simp only [payloadGroups, groupBits_append, groupBits_byteGroups, groupBits_cons, bitsOf_be32, bytesBits_append]
  simp [bytesBits, groupBits]

/-- A container is the header bytes and the payload bytes of the state that serialises it. -/
theorem containerBytes_split (s : State) :
    containerBytes s.w s.h s.pal s.sc s.ch.buf s.cn.buf s.ct.buf s.bd.buf =
      ([0x08#8, 0x09#8, 0x03#8, 0x01#8] ++ be32 s.w ++ be32 s.h ++ [BitVec.ofNat 8 s.pal.length] ++
        s.pal.flatMap be32) ++
      (be32 s.setLengths.lch ++ be32 s.setLengths.lcn ++ be32 s.setLengths.lct ++ be32 s.setLengths.sc ++
        s.setLengths.ch.buf ++ s.setLengths.cn.buf ++ s.setLengths.ct.buf ++ s.setLengths.bd.buf) := by
  simp [containerBytes, State.setLengths]

/-- The checks of `TalSerialize` that precede any write (R231, R232). -/
def serializable (s : State) : Prop :=
  s.w.toNat ≤ Config.dimMax ∧ s.h.toNat ≤ Config.dimMax ∧ s.pal.length ≤ Config.frameMax ∧ streamTooLong s = false

/-- `TalSerialize()` where its checks pass (R231): the header, the length registers, the payload. -/
theorem talSerialize_of_serializable (cw : Word) (s : State) (h : serializable s) :
    talSerialize cw s = (wrSeq cw .fr (groupBits (headerGroups s)) (openW .fr s)).bind fun _ t =>
      wrSeq cw .fr (groupBits (payloadGroups t.setLengths)) t.setLengths := by
  obtain ⟨h1, h2, h3, h4⟩ := h
  unfold talSerialize
  rw [if_neg (by omega), if_neg (by omega), if_neg (by omega), if_neg (by simp [h4])]

/-- A big-endian word reads back (R64). -/
theorem be32At_be32 (v : Word) (pre post : List Byte) : be32At (pre ++ (be32 v ++ post)) pre.length = v := by
  have h : ∀ i (hi : i < 4), byteAt (pre ++ (be32 v ++ post)) (pre.length + i) = (be32 v)[i]'(by simpa [be32]) := by
    intro i hi
    rw [byteAt, List.getD_append_right _ _ _ _ (by omega), Nat.add_sub_cancel_left,
      List.getD_append _ _ _ _ (by simpa [be32]), List.getD_eq_getElem]
  have h0 := h 0 (by omega)
  have h1 := h 1 (by omega)
  have h2 := h 2 (by omega)
  have h3 := h 3 (by omega)
  rw [Nat.add_zero] at h0
  rw [be32At, h0, h1, h2, h3]
  simp only [be32, List.getElem_cons_zero, List.getElem_cons_succ]
  ext i hi
  simp only [BitVec.getElem_append, BitVec.getElem_extractLsb']
  split
  · simp; rw [BitVec.getLsbD_eq_getElem]
  · split
    · simp; rw [show 8 + (i - 8) = i by omega, BitVec.getLsbD_eq_getElem]
    · split
      · rw [show 16 + (i - 8 - 8) = i by omega, BitVec.getLsbD_eq_getElem]
      · rw [show 24 + (i - 8 - 8 - 8) = i by omega, BitVec.getLsbD_eq_getElem]

/-! ### The canonical form -/

theorem Memory.wf_setLengths (s : State) (h : Memory.wf s = true) : Memory.wf s.setLengths = true := h

/-- `TalSerialize()` keeps the canonical form of the stored data. -/
theorem Memory.wf_talSerialize (cw : Word) (s : State) (h : Memory.wf s = true) :
    Memory.wf (talSerialize cw s).state = true := by
  unfold talSerialize
  split
  · exact h
  split
  · exact h
  split
  · exact h
  split
  · exact h
  have ho : Memory.wf (openW .fr s) = true := Memory.wf_openW _ s h
  refine (Res.bind_keeps (fun t => Memory.wf t = true ∧ (t.cur .fr).mode = .writing) _ _
    ⟨Memory.wf_wrSeq cw .fr _ _ ho rfl, wrSeq_mode cw .fr _ _ ho rfl⟩ fun _ t _ ht => ?_).1
  exact ⟨Memory.wf_wrSeq cw .fr _ t.setLengths ht.1 ht.2, wrSeq_mode cw .fr _ t.setLengths ht.1 ht.2⟩

/-- A parsed palette has as many colours as its count byte says. -/
theorem parsePalette_length (b : List Byte) (n : Nat) : (parsePalette b n).length = n := by simp [parsePalette]

/-- `TalParse()` keeps the canonical form of the stored data. -/
theorem Memory.wf_talParse (s : State) (h : Memory.wf s = true) : Memory.wf (talParse s).state = true := by
  have ho : Memory.wf (openR .fr s) = true := Memory.wf_openR _ s h
  unfold talParse
  simp only
  repeat' split
  all_goals try exact ho
  rw [Memory.wf_iff]
  refine ⟨fun k => ?_, ?_⟩
  · cases k
    · exact Cursor.wf_loaded _
    · exact Cursor.wf_loaded _
    · exact Cursor.wf_loaded _
    · exact Cursor.wf_loaded _
    · exact ((Memory.wf_iff _).1 ho).1 .fr
  · show (parsePalette _ _).length ≤ 256
    rw [parsePalette_length]
    exact Nat.le_of_lt (BitVec.isLt _)

/-- A host write keeps the canonical form of the stored data (R24, R30, R40). -/
theorem Memory.wf_hostWrite (w : HostWrite) (s t : State) (h : Memory.wf s = true) (ht : hostWrite w s = .next t) :
    Memory.wf t = true := by
  cases w with
  | pal p =>
    unfold hostWrite at ht
    simp only at ht
    split at ht
    · cases ht
    · cases ht
      rw [Memory.wf_iff] at h ⊢
      exact ⟨fun k => by have := h.1 k; cases k <;> exact this, Nat.le_of_not_lt (by assumption)⟩
  | buf k b => cases ht; exact Memory.wf_hostBuffer k b s h
  | opd v => cases ht; exact h
  | xb v => cases ht; exact h
  | w v => cases ht; exact h
  | h v => cases ht; exact h
  | pix v => cases ht; exact h
  | sc v => cases ht; exact h

end Sys2Proof.Machine
end

