-- ==== Sys2Proof/Laws/PerInstr.lean ====
section
/-! SUPPORT. Facts about every instruction as syntax, one lemma per constructor. -/

namespace Sys2Proof.Laws

open Sys2Proof Sys2Proof.Machine

/-- A command word as the number its fields make (R90). -/
theorem commandWord_toNat (op : BitVec 8) (k : BitVec 3) (nb : BitVec 6) (imm : BitVec 8) :
    (commandWord op k nb imm).toNat = op.toNat * 2 ^ 24 + k.toNat * 2 ^ 21 + nb.toNat * 2 ^ 15 + imm.toNat := by
  have h : ∀ (v w : Nat) (x : BitVec v) (y : BitVec w), (x ++ y).toNat = x.toNat * 2 ^ w + y.toNat := by
    intro v w x y
    rw [BitVec.toNat_append, Nat.shiftLeft_eq, ← Nat.shiftLeft_eq, ← Nat.shiftLeft_add_eq_or_of_lt y.isLt, Nat.shiftLeft_eq]
  simp only [commandWord, h]
  simp
  omega

/-- The context field is 0 to 4 (R91). -/
theorem field_le (k : CurId) : k.field.toNat ≤ 4 := by cases k <;> decide

/-- R92 on a word built from its fields. -/
theorem legalFields_commandWord (op : BitVec 8) (k : BitVec 3) (nb : BitVec 6) (imm : BitVec 8)
    (h : op.toNat ∈ [0x01, 0x20, 0x30, 0x40, 0x50, 0x51, 0x60, 0x61] ∧ k.toNat = 0 ∧ nb.toNat = 0 ∧ imm.toNat = 0 ∨
     op.toNat ∈ [0x10, 0x11, 0x12, 0x14, 0x15, 0x19] ∧ k.toNat ≤ 4 ∧ nb.toNat = 0 ∧ imm.toNat = 0 ∨
     op.toNat ∈ [0x13, 0x17] ∧ k.toNat ≤ 4 ∧ nb.toNat ≤ 32 ∧ imm.toNat = 0 ∨
     op.toNat = 0x16 ∧ k.toNat ≤ 4 ∧ nb.toNat = 0 ∧ imm.toNat ≤ 1 ∨
     op.toNat = 0x18 ∧ k.toNat ≤ 4 ∧ nb.toNat = 0) : legalFields (commandWord op k nb imm) = true := by
  have hw := commandWord_toNat op k nb imm
  have h1 := op.isLt
  have h2 := k.isLt
  have h3 := nb.isLt
  have h4 := imm.isLt
  have e1 : (commandWord op k nb imm >>> (24 : Nat)).toNat = op.toNat := by
    rw [BitVec.toNat_ushiftRight, Nat.shiftRight_eq_div_pow, hw]; omega
  have e2 : (commandWord op k nb imm >>> (21 : Nat)).toNat % 8 = k.toNat := by
    rw [BitVec.toNat_ushiftRight, Nat.shiftRight_eq_div_pow, hw]; omega
  have e3 : (commandWord op k nb imm >>> (15 : Nat)).toNat % 64 = nb.toNat := by
    rw [BitVec.toNat_ushiftRight, Nat.shiftRight_eq_div_pow, hw]; omega
  have e4 : (commandWord op k nb imm >>> (8 : Nat)).toNat % 128 = 0 := by
    rw [BitVec.toNat_ushiftRight, Nat.shiftRight_eq_div_pow, hw]; omega
  have e5 : (commandWord op k nb imm).toNat % 256 = imm.toNat := by rw [hw]; omega
  simp only [legalFields, e1, e2, e3, e4, e5, decide_eq_true_eq]
  exact ⟨trivial, h⟩

/-- A command word whose fields obey R92's table, or a record whose colour-type bit and body width are those of R105. -/
def legalEncoding : Encoded → Bool
  | .command cw => legalFields cw
  | .record r => decide (r.ct.isSome = r.ch ∧ r.bd.length = recordBodyBits r.ch r.cn (r.ct.getD false))

theorem legalEncoding_record (r : RecordBits) (h1 : r.ct.isSome = r.ch)
    (h2 : r.bd.length = recordBodyBits r.ch r.cn (r.ct.getD false)) : legalEncoding (.record r) = true :=
  decide_eq_true ⟨h1, h2⟩

namespace EncodesLegally

/-- Every well-formed instruction's encoding is one the spec calls legal. -/
def Statement (i : Instr) : Prop := i.wellFormed = true → legalEncoding (encode i) = true

theorem reset : Statement .reset := fun _ => by decide
theorem curOpenR (k : CurId) : Statement (.curOpenR k) := fun _ => by cases k <;> decide
theorem curOpenW (k : CurId) : Statement (.curOpenW k) := fun _ => by cases k <;> decide
theorem rdbit (k : CurId) : Statement (.rdbit k) := fun _ => by cases k <;> decide
theorem rdbits (k : CurId) (n : BitVec 6) : Statement (.rdbits k n) := fun h =>
  legalFields_commandWord _ _ _ _ (.inr (.inr (.inl ⟨by decide, field_le k, of_decide_eq_true h, rfl⟩)))
theorem rdbyte (k : CurId) : Statement (.rdbyte k) := fun _ => by cases k <;> decide
theorem rdbytes (k : CurId) : Statement (.rdbytes k) := fun _ => by cases k <;> decide
theorem wrbit (k : CurId) (v : Bool) : Statement (.wrbit k v) := fun _ => by cases k <;> cases v <;> decide
theorem wrbits (k : CurId) (n : BitVec 6) : Statement (.wrbits k n) := fun h =>
  legalFields_commandWord _ _ _ _ (.inr (.inr (.inl ⟨by decide, field_le k, of_decide_eq_true h, rfl⟩)))
theorem wrbyte (k : CurId) (b : Byte) : Statement (.wrbyte k b) := fun _ =>
  legalFields_commandWord _ _ _ _ (.inr (.inr (.inr (.inr ⟨rfl, field_le k, rfl⟩))))
theorem wrbytes (k : CurId) : Statement (.wrbytes k) := fun _ => by cases k <;> decide
theorem palBuild : Statement .palBuild := fun _ => by decide
theorem rleEncode : Statement .rleEncode := fun _ => by decide
theorem rleDecode : Statement .rleDecode := fun _ => by decide
theorem talSerialize : Statement .talSerialize := fun _ => by decide
theorem talParse : Statement .talParse := fun _ => by decide
theorem talEncode : Statement .talEncode := fun _ => by decide
theorem talDecode : Statement .talDecode := fun _ => by decide
theorem stT1 : Statement .stT1 := fun _ => by decide
theorem stTR (l : BitVec 8) : Statement (.stTR l) := fun _ => legalEncoding_record _ rfl (bitsOf_length 8 _)
theorem stF1 (i : BitVec 4) : Statement (.stF1 i) := fun _ => legalEncoding_record _ rfl (bitsOf_length 4 _)
theorem stFR (l : BitVec 8) (i : BitVec 4) : Statement (.stFR l i) := fun _ =>
  legalEncoding_record _ rfl (by show (bitsOf 8 _ ++ bitsOf 4 _).length = 12; simp)
theorem stP1 (j : BitVec 8) : Statement (.stP1 j) := fun _ => legalEncoding_record _ rfl (bitsOf_length 8 _)
theorem stPR (l j : BitVec 8) : Statement (.stPR l j) := fun _ =>
  legalEncoding_record _ rfl (by show (bitsOf 8 _ ++ bitsOf 8 _).length = 16; simp)

end EncodesLegally

end Sys2Proof.Laws
end

