-- ==== Sys2Proof/Laws/Step.lean ====
section
/-! SUPPORT. What a step can do, said once: one lemma per kind of inbox item. -/

namespace Sys2Proof.Machine

/-- With nothing in the inbox a step keeps the state (log 2). -/
theorem step_idle (s : State) (h : s.inbox = []) : step s = .next s := by
  unfold step; rw [h]

/-- A step performs the first item of the inbox on the state without it (log 1). -/
theorem step_perform (s : State) (a : HostAction) (rest : List HostAction) (h : s.inbox = a :: rest) :
    step s = perform a { s with inbox := rest } := by
  unfold step; rw [h]

/-- Issuing a word that decodes runs its instruction (R95). -/
theorem issue_decoded (cw : Word) (i : Instr) (s : State) (h : decode (.command cw) = .ok i) :
    issue cw s = exec i s := by
  unfold issue; rw [h]

/-- Issuing a word that does not decode is `Refused`, or ignored while a fault stands (R94). -/
theorem issue_illegal (cw : Word) (e : DecodeError) (s : State) (h : decode (.command cw) = .error e) :
    issue cw s = .next (if s.fk = 0 then s.takeFault .refused 0 0 cw.toNat else s) := by
  unfold issue; rw [h]
  exact command_next _ _

/-- Everything a step can do. -/
theorem step_cases (s : State) (o : Out) (h : step s = o) :
    (s.inbox = [] ∧ o = .next s) ∨
    ∃ a rest, s.inbox = a :: rest ∧
      ((∃ cw i, a = .command cw ∧ decode (.command cw) = .ok i ∧ o = exec i { s with inbox := rest }) ∨
       (∃ cw e, a = .command cw ∧ decode (.command cw) = .error e ∧ o = illegalWord cw { s with inbox := rest }) ∨
       (∃ w, a = .write w ∧ o = hostWrite w { s with inbox := rest }) ∨
       (a = .hardReset ∧ o = hardReset { s with inbox := rest }) ∨
       (∃ i, a = .record ∧ fetchRecord { s with inbox := rest } = some i ∧ o = exec i { s with inbox := rest }) ∨
       (a = .record ∧ fetchRecord { s with inbox := rest } = none ∧ o = truncatedRecord { s with inbox := rest })) := by
  subst h
  cases hi : s.inbox with
  | nil => exact .inl ⟨rfl, step_idle s hi⟩
  | cons a rest =>
    refine .inr ⟨a, rest, rfl, ?_⟩
    rw [step_perform s a rest hi]
    cases a with
    | command cw =>
      cases hd : decode (.command cw) with
      | ok i => exact .inl ⟨cw, i, rfl, hd, issue_decoded cw i _ hd⟩
      | error e => exact .inr (.inl ⟨cw, e, rfl, hd, by simp only [perform, issue, hd]⟩)
    | write w => exact .inr (.inr (.inl ⟨w, rfl, rfl⟩))
    | hardReset => exact .inr (.inr (.inr (.inl ⟨rfl, rfl⟩)))
    | record =>
      cases hf : fetchRecord { s with inbox := rest } with
      | some i => exact .inr (.inr (.inr (.inr (.inl ⟨i, rfl, rfl, by simp only [perform, runRecord, hf]⟩))))
      | none => exact .inr (.inr (.inr (.inr (.inr ⟨rfl, rfl, by simp only [perform, runRecord, hf]⟩))))

end Sys2Proof.Machine
end

