-- ==== Sys2Proof/Tests/Slice0.lean ====
section
/-! SUPPORT. Tests of the model: the WellFormed checks, one written-out word per instruction, one-step tests taken from the
vectors of spec/95_test_vectors.md (cited as V<n>), and a witness for every statement that has hypotheses. -/

namespace Sys2Proof.Tests

open Sys2Proof Sys2Proof.Machine

/-! ### Helpers -/

/-- The state an outcome goes on with. -/
def nextOf (o : Out) : Option State :=
  match o with
  | .next t => some t
  | .fault _ => none
  | .refused _ => none

/-- The pixel words `A` and `B` of the vectors. -/
def pixA : Pixel := 0xFF0000FF#32
def pixB : Pixel := 0x00FF00FF#32

/-- Context 3 in mode R over these bytes, at bit position `p`. -/
def reading (bytes : List Byte) (p : Nat) : State := State.reset.setCur .bd ((Cursor.loaded bytes).at p)

/-- Context 3 in mode W with these bits written. -/
def writing (bits : List Bool) : State := State.reset.setCur .bd (writeCursor bits)

/-- A raster of one row, with a palette. -/
def raster (pix pal : List Pixel) : State :=
  { State.reset with w := BitVec.ofNat 32 pix.length, h := 1, pix := pix, pal := pal }

/-- The four streams holding these bytes, rewound, in mode R. -/
def streams (ch cn ct bd : List Byte) (pal : List Pixel) (sc w h : Word) : State :=
  { State.reset with
    ch := Cursor.loaded ch, cn := Cursor.loaded cn, ct := Cursor.loaded ct, bd := Cursor.loaded bd
    pal := pal, sc := sc, w := w, h := h }

/-- A file in context 4. -/
def file (bytes : List Byte) : State := { State.reset with fr := ⟨bytes, 0, 0, .closed⟩ }

/-- The file `G` of spec/95_test_vectors.md section 7. -/
def fileG : List Byte :=
  [0x08, 0x09, 0x03, 0x01, 0x00, 0x00, 0x00, 0x02, 0x00, 0x00, 0x00, 0x02, 0x02, 0xFF, 0x00, 0x00, 0xFF, 0x00, 0xFF,
   0x00, 0xFF, 0x00, 0x00, 0x00, 0x01, 0x00, 0x00, 0x00, 0x01, 0x00, 0x00, 0x00, 0x01, 0x00, 0x00, 0x00, 0x03, 0xA0,
   0x80, 0xC0, 0x02, 0x01]

/-- The empty container of V51. -/
def fileEmpty : List Byte := [0x08, 0x09, 0x03, 0x01] ++ List.replicate 25 0x00

/-! ### WellFormed -/

/-- `NB = 33` is out of range (R92, V12). -/
theorem test_rdbits_33_ill_formed : Instr.wellFormed (.rdbits .bd 33) = false := by decide
theorem test_wrbits_33_ill_formed : Instr.wellFormed (.wrbits .bd 33) = false := by decide
theorem test_rdbits_32_well_formed : Instr.wellFormed (.rdbits .bd 32) = true := by decide

/-! ### One written-out word per instruction (R90 to R93 and R101; words of spec/95_test_vectors.md where it has one) -/

theorem test_decode_reset : decode (.command 0x01000000#32) = .ok .reset := by decide
theorem test_decode_curOpenR : decode (.command 0x10600000#32) = .ok (.curOpenR .bd) := by decide
theorem test_decode_curOpenW : decode (.command 0x11800000#32) = .ok (.curOpenW .fr) := by decide
theorem test_decode_rdbit : decode (.command 0x12600000#32) = .ok (.rdbit .bd) := by decide
theorem test_decode_rdbits : decode (.command 0x138C0000#32) = .ok (.rdbits .fr 24#6) := by decide
theorem test_decode_rdbyte : decode (.command 0x14200000#32) = .ok (.rdbyte .cn) := by decide
theorem test_decode_rdbytes : decode (.command 0x15800000#32) = .ok (.rdbytes .fr) := by decide
theorem test_decode_wrbit : decode (.command 0x16600001#32) = .ok (.wrbit .bd true) := by decide
theorem test_decode_wrbits : decode (.command 0x17628000#32) = .ok (.wrbits .bd 5#6) := by decide
theorem test_decode_wrbyte : decode (.command 0x1840002C#32) = .ok (.wrbyte .ct 0x2C#8) := by decide
theorem test_decode_wrbytes : decode (.command 0x19000000#32) = .ok (.wrbytes .ch) := by decide
theorem test_decode_palBuild : decode (.command 0x20000000#32) = .ok .palBuild := by decide
theorem test_decode_rleEncode : decode (.command 0x30000000#32) = .ok .rleEncode := by decide
theorem test_decode_rleDecode : decode (.command 0x40000000#32) = .ok .rleDecode := by decide
theorem test_decode_talSerialize : decode (.command 0x50000000#32) = .ok .talSerialize := by decide
theorem test_decode_talParse : decode (.command 0x51000000#32) = .ok .talParse := by decide
theorem test_decode_talEncode : decode (.command 0x60000000#32) = .ok .talEncode := by decide
theorem test_decode_talDecode : decode (.command 0x61000000#32) = .ok .talDecode := by decide
theorem test_decode_stT1 : decode (.record ⟨false, false, none, []⟩) = .ok .stT1 := by decide
theorem test_decode_stTR :
    decode (.record ⟨false, true, none, [false, false, true, false, true, true, false, false]⟩) = .ok (.stTR 44#8) := by
  decide
theorem test_decode_stF1 : decode (.record ⟨true, false, some true, [false, false, true, true]⟩) = .ok (.stF1 3#4) := by
  decide
theorem test_decode_stFR :
    decode (.record ⟨true, true, some true,
      [false, false, false, false, false, false, true, true, false, false, false, true]⟩) = .ok (.stFR 3#8 1#4) := by
  decide
theorem test_decode_stP1 :
    decode (.record ⟨true, false, some false, [false, false, false, true, false, false, false, false]⟩) =
      .ok (.stP1 16#8) := by decide
theorem test_decode_stPR :
    decode (.record ⟨true, true, some false,
      [false, false, false, false, false, false, true, false, false, false, false, true, false, false, false, false]⟩) =
      .ok (.stPR 2#8 16#8) := by decide

/-- The illegal words of V12, each refused by its own name. -/
theorem test_decode_illegal_words :
    decode (.command 0x11A00000#32) = .error .contextOutOfRange ∧
    decode (.command 0x17708000#32) = .error .bitCountOutOfRange ∧
    decode (.command 0x16600002#32) = .error .bitValueOutOfRange ∧
    decode (.command 0x16600101#32) = .error .reservedFieldSet ∧
    decode (.command 0x12608000#32) = .error .unusedFieldSet ∧
    decode (.command 0x00000000#32) = .error .reservedOpcode ∧
    decode (.command 0xFF000000#32) = .error .reservedOpcode ∧
    decode (.command 0x01000001#32) = .error .unusedFieldSet ∧
    decode (.command 0x20000001#32) = .error .unusedFieldSet := by decide

/-- A table row's number and a step that runs it (log 8): `ST.FR L=3 I=1` is `1 1 1 00000011 0001`. -/
theorem test_table_numbers :
    decodeTableWord 32 0x16600001 = some (.wrbit .bd true) ∧ decodeTableWord 8 0 = some .stT1 ∧
    decodeTableWord 16 0x103 = some (.stTR 3) ∧ decodeTableWord 8 0x53 = some (.stF1 3) ∧
    decodeTableWord 16 0x7031 = some (.stFR 3 1) ∧ decodeTableWord 16 0x410 = some (.stP1 16) ∧
    decodeTableWord 24 0x60210 = some (.stPR 2 16) ∧ decodeTableWord 32 0x11A00000 = none := by decide

theorem test_fetch_word_command :
    nextOf (step (State.reset.withFetchWord 32 0x11600000)) = nextOf (exec (.curOpenW .bd) State.reset) := by decide

theorem test_fetch_word_record :
    (nextOf (step (State.reset.withFetchWord 16 0x103))).map (·.out) = some [0, 0, 0] := by decide

/-! ### One step each -/

/-- V58 and R300. -/
theorem test_reset_clears_fault :
    nextOf (exec .reset { State.reset with fk := 3, info := ⟨0, 0x080903, 0x070903⟩, nf := true, out := [5] }) =
      some State.reset := by decide

/-- V6 step 1. -/
theorem test_curOpenR_rewinds :
    nextOf (exec (.curOpenR .bd) (State.reset.setCur .bd ⟨[0xA5, 0x9F, 0xF6], 3, 0, .writing⟩)) =
      some (reading [0xA5, 0x9F, 0xF6] 0) := by decide

/-- V1 step 1. -/
theorem test_curOpenW_empties :
    nextOf (exec (.curOpenW .bd) (reading [0xA5] 3)) = some (writing []) := by decide

/-- V6 step 2: the most significant bit of `A5`. -/
theorem test_rdbit_first_bit :
    nextOf (exec (.rdbit .bd) (reading [0xA5, 0x9F, 0xF6] 0)) = some { reading [0xA5, 0x9F, 0xF6] 1 with res := 1 } := by
  decide

/-- V6 step 7. -/
theorem test_rdbit_out_of_range :
    nextOf (exec (.rdbit .bd) { reading [0xA5, 0x9F, 0xF6] 24 with res := 0xF6 }) =
      some { reading [0xA5, 0x9F, 0xF6] 24 with res := 0xF6, fk := 7, info := ⟨3, 24, 24⟩ } := by decide

/-- V6 step 4: eight bits across a byte boundary. -/
theorem test_rdbits_straddle :
    (nextOf (exec (.rdbits .bd 8) (reading [0xA5, 0x9F, 0xF6] 5))).map (·.res) = some 0xB3 := by decide

/-- V8: 12 of the 16 bits are consumed and `RES` is kept. -/
theorem test_rdbits_runs_dry :
    nextOf (exec (.rdbits .bd 16) { reading [0xAB, 0xCD] 4 with res := 0xA }) =
      some { reading [0xAB, 0xCD] 16 with res := 0xA, fk := 7, info := ⟨3, 16, 16⟩ } := by decide

/-- P1 step 13: unaligned. -/
theorem test_rdbyte_unaligned :
    (nextOf (exec (.rdbyte .bd) (reading [0x96, 0x00] 1))).map (·.res) = some 0x2C := by decide

/-- V11 steps 6 and 8. -/
theorem test_rdbytes_into_xb :
    nextOf (exec (.rdbytes .bd) { reading [0x08, 0x09, 0x03, 0x01] 0 with opd := 3 }) =
      some { reading [0x08, 0x09, 0x03, 0x01] 24 with opd := 3, xb := [0x08, 0x09, 0x03] } := by decide
theorem test_rdbytes_runs_dry :
    nextOf (exec (.rdbytes .bd) { reading [0x08, 0x09, 0x03, 0x01] 24 with opd := 2, xb := [7] }) =
      some { reading [0x08, 0x09, 0x03, 0x01] 32 with opd := 2, xb := [7], fk := 7, info := ⟨3, 32, 32⟩ } := by decide

/-- V1 step 4. -/
theorem test_wrbit_third_bit :
    (nextOf (exec (.wrbit .bd true) (writing [true, false]))).map (·.bd) = some ⟨[0xA0], 0, 3, .writing⟩ := by decide

/-- V12: a write on a context in mode R is `Refused`. -/
theorem test_wrbit_wrong_mode :
    nextOf (exec (.wrbit .bd true) (reading [] 0)) =
      some { reading [] 0 with fk := 8, info := ⟨0, 0, 0x16600001⟩ } := by decide

/-- V2 step 2 and V10 step 5. -/
theorem test_wrbits_straddle :
    (nextOf (exec (.wrbits .bd 8) { writing [true, false, true] with opd := 0x2C })).map (·.bd) =
      some ⟨[0xA5, 0x80], 1, 3, .writing⟩ := by decide
theorem test_wrbits_low_bits_only :
    (nextOf (exec (.wrbits .bd 4) { writing [] with opd := 0xF5 })).map (·.bd) = some ⟨[0x50], 0, 4, .writing⟩ := by decide

/-- V3: unaligned, straddling. -/
theorem test_wrbyte_unaligned :
    (nextOf (exec (.wrbyte .bd 0xFF) (State.reset.setCur .bd ⟨[0xA5, 0x80], 1, 3, .writing⟩))).map (·.bd) =
      some ⟨[0xA5, 0x9F, 0xE0], 2, 3, .writing⟩ := by decide

/-- V11 step 3. -/
theorem test_wrbytes_keeps_xb :
    nextOf (exec (.wrbytes .bd) { writing [] with xb := [0x08, 0x09, 0x03, 0x01] }) =
      some { State.reset with bd := ⟨[0x08, 0x09, 0x03, 0x01], 4, 0, .writing⟩, xb := [0x08, 0x09, 0x03, 0x01] } := by
  decide

/-- V13 and V15. -/
theorem test_palBuild_ties :
    nextOf (exec .palBuild (raster [5, 0, 7, 7, 5, 9] [])) =
      some { raster [5, 0, 7, 7, 5, 9] [5, 7, 9] with tally := [⟨5, 2⟩, ⟨7, 2⟩, ⟨9, 1⟩], si := 6 } := by decide
theorem test_palBuild_by_count :
    (nextOf (exec .palBuild (raster [3, 1, 2, 2, 1, 3, 1] []))).map (·.pal) = some [1, 3, 2] := by decide

/-- V20 (as one row) and V29(c). -/
theorem test_rleEncode_three_forms :
    nextOf (exec .rleEncode (raster [pixA, pixA, 0, pixB] [pixA, pixB])) =
      some { raster [pixA, pixA, 0, pixB] [pixA, pixB] with
        ch := ⟨[0xA0], 0, 3, .writing⟩, cn := ⟨[0x80], 0, 3, .writing⟩, ct := ⟨[0xC0], 0, 2, .writing⟩
        bd := ⟨[0x02, 0x01], 2, 0, .writing⟩, sc := 3, si := 4, cc := pixB, rl := 1 } := by decide
theorem test_rleEncode_foreign_colour :
    (nextOf (exec .rleEncode (raster [pixA, pixB] [pixA]))).map
      (fun t => (t.fk, t.info, t.ch.buf, [t.sc.toNat, t.cn.pos, t.ct.pos, t.bd.pos])) =
      some (8, ⟨0, 0, 0x30000000⟩, [0xC0], [1, 2, 1, 4]) := by decide

/-- V31 and V37. -/
theorem test_rleDecode_three_forms :
    (nextOf (exec .rleDecode (streams [0xA0] [0x80] [0xC0] [0x02, 0x01] [pixA, pixB] 3 2 2))).map
      (fun t => (t.out, t.ri, t.fk, t.bd.pos)) = some ([pixA, pixA, 0, pixB], 3, 0, 16) := by decide
theorem test_rleDecode_bad_index :
    (nextOf (exec .rleDecode (streams [0x80] [0x00] [0x00] [0x02] [pixA, pixB] 1 1 1))).map
      (fun t => (t.fk, t.info, t.nf, t.ri)) = some (6, ⟨2, 2, 2⟩, true, 0) := by decide

/-- V52(b) and V52(c). -/
theorem test_talSerialize_fileG :
    (nextOf (exec .talSerialize (streams [0xA0] [0x80] [0xC0] [0x02, 0x01] [pixA, pixB] 3 2 2))).map
      (fun t => (t.fr, t.lch, t.lcn, t.lct)) = some (⟨fileG, 42, 0, .writing⟩, 1, 1, 1) := by decide +kernel
theorem test_talSerialize_too_wide :
    (nextOf (exec .talSerialize { State.reset with w := 8193, h := 9000 })).map (fun t => (t.fk, t.info)) =
      some (5, ⟨1, 8192, 8193⟩) := by decide

/-- V41a and V48a. -/
theorem test_talParse_fileG :
    nextOf (exec .talParse (file fileG)) =
      some { streams [0xA0] [0x80] [0xC0] [0x02, 0x01] [pixA, pixB] 3 2 2 with
        fr := Cursor.loaded fileG, lch := 1, lcn := 1, lct := 1 } := by decide
theorem test_talParse_chroma_too_short :
    nextOf (exec .talParse (file (fileG.set 36 9))) =
      some { State.reset with fr := Cursor.loaded (fileG.set 36 9), fk := 6, info := ⟨5, 2, 1⟩ } := by decide

/-- V53b. -/
theorem test_talEncode_one_pixel :
    (nextOf (exec .talEncode (raster [pixA] []))).map (·.fr.buf) =
      some ([0x08, 0x09, 0x03, 0x01, 0, 0, 0, 1, 0, 0, 0, 1, 1, 0xFF, 0, 0, 0xFF, 0, 0, 0, 1, 0, 0, 0, 1, 0, 0, 0, 1,
        0, 0, 0, 1, 0x80, 0, 0x80, 0]) := by decide
/-- V54(f). -/
theorem test_talEncode_zero_area :
    nextOf (exec .talEncode State.reset) = some { State.reset with fk := 8, info := ⟨0, 0, 0x60000000⟩ } := by decide

/-- P5 step 7 and V55(f). -/
theorem test_talDecode_fileG :
    (nextOf (exec .talDecode (file fileG))).map (fun t => (t.out, t.w, t.h, t.fk, t.nf)) =
      some ([pixA, pixA, 0, pixB], 2, 2, 0, false) := by decide
theorem test_talDecode_bad_index :
    (nextOf (exec .talDecode (file (fileG.set 41 3)))).map (fun t => (t.fk, t.info)) = some (6, ⟨1, 2, 3⟩) := by decide

/-- The record forms, on streams that hold them (V38, V35, V36, V40b). -/
theorem test_stT1 : (nextOf (exec .stT1 (streams [0] [0] [] [] [] 1 1 1))).map (·.out) = some [0] := by decide
theorem test_stTR_256 :
    (nextOf (exec (.stTR 0) (streams [0] [0x80] [] [0] [] 1 256 1))).map (·.out) = some (List.replicate 256 0) := by
  decide +kernel
theorem test_stF1_bad_index :
    (nextOf (exec (.stF1 3) (streams [0x80] [0] [0x80] [0x30] [pixA, pixB] 1 1 1))).map (fun t => (t.fk, t.info)) =
      some (6, ⟨1, 2, 3⟩) := by decide
theorem test_stFR :
    (nextOf (exec (.stFR 2 1) (streams [0x80] [0x80] [0x80] [0x02, 0x10] [pixA, pixB] 1 2 1))).map
      (fun t => (t.out, t.bd.pos)) = some ([pixB, pixB], 12) := by decide
theorem test_stP1 :
    (nextOf (exec (.stP1 1) (streams [0x80] [0] [0] [1] [pixA, pixB] 1 1 1))).map (fun t => (t.out, t.nf)) =
      some ([pixB], true) := by decide
theorem test_stPR :
    (nextOf (exec (.stPR 2 1) (streams [0x80] [0x80] [0] [2, 1] [pixA, pixB] 1 2 1))).map
      (fun t => (t.out, t.bd.pos, t.nf)) = some ([pixB, pixB], 16, true) := by decide

/-- V57 steps 1 and 5, and V59: a standing fault ignores legal and illegal words alike. -/
theorem test_sticky :
    nextOf (step { file fileG with fk := 3, inbox := [.command 0x11600000#32] }) = some { file fileG with fk := 3 } ∧
    nextOf (step { file fileG with fk := 3, inbox := [.command 0xFF000000#32] }) = some { file fileG with fk := 3 } ∧
    nextOf (step { State.reset with inbox := [.command 0x31000000#32] }) =
      some { State.reset with fk := 8, info := ⟨0, 0, 0x31000000⟩ } := by decide

/-! ### Witnesses: for each statement with hypotheses, a state and operands that meet them together, clause by clause -/

/-- `s` with this one item in its inbox. -/
def next1 (s : State) (a : HostAction) : State := { s with inbox := [a] }

/-- The four streams of V20's result, as `RLE_ENCODE` leaves them. -/
def encoded : State := (nextOf (exec .rleEncode (raster [pixA, pixA, 0, pixB] [pixA, pixB]))).getD State.reset

/-- The records of V20. -/
def records : List Instr := [.stFR 2 0, .stT1, .stF1 1]

theorem witness_DecodeUndoesEncode :
    Instr.wellFormed (.rdbits .fr 32) = true ∧ Instr.wellFormed (.wrbits .ch 0) = true ∧
    Instr.wellFormed (.stPR 0 255) = true := by decide

theorem witness_CommandWordsDecodeUniquely :
    legalWord 0x13900000#32 = true ∧ legalWord 0x13908000#32 = false ∧ legalWord 0x10A00000#32 = false ∧
    commandRows.any (selects 0x13900000#32) = true := by decide

theorem witness_RecordFormsDecodeUniquely :
    (some true).isSome = true ∧ (bitsOf 12 0x031).length = recordBodyBits true true ((some true).getD false) ∧
    decode (.record ⟨true, true, some true, bitsOf 12 0x031⟩) = .ok (.stFR 3 1) := by decide

theorem witness_StepRunsTheDecodedInstruction :
    (next1 State.reset (.command 0x11600000#32)).inbox = .command 0x11600000#32 :: [] ∧
    decode (.command 0x11600000#32) = .ok (.curOpenW .bd) ∧
    (next1 (streams [0] [0x80] [] [7] [] 1 7 1) .record).inbox = .record :: [] ∧
    fetchRecord { next1 (streams [0] [0x80] [] [7] [] 1 7 1) .record with inbox := [] } = some (.stTR 7) ∧
    State.reset.inbox = [] := by decide

theorem witness_IllegalWordIsRefused :
    (next1 State.reset (.command 0x17708000#32)).inbox = .command 0x17708000#32 :: [] ∧
    legalFields 0x17708000#32 = false ∧ legalFields 0x11A00000#32 = false ∧ legalFields 0x16600002#32 = false ∧
    legalFields 0x00000000#32 = false ∧ legalFields 0x16600101#32 = false := by decide

theorem witness_StepTakesOneAction :
    step (next1 State.reset .hardReset) = .next State.reset := rfl

/-- 256 palette entries are taken and 257 refused; a write takes effect while a fault stands (log 11). -/
theorem witness_HostWritesTakeEffect :
    (List.replicate 256 pixA).length ≤ 256 ∧ ¬ (List.replicate 257 pixA).length ≤ 256 ∧
    nextOf (step (next1 State.reset (.write (.pal (List.replicate 256 pixA))))) =
      some { State.reset with pal := List.replicate 256 pixA } ∧
    nextOf (step (next1 State.reset (.write (.pal (List.replicate 257 pixA))))) = none ∧
    nextOf (step (next1 { State.reset with fk := 3 } (.write (.opd 7)))) =
      some { State.reset with fk := 3, opd := 7 } := by decide +kernel

theorem witness_ResetCommandRestoresReset :
    (next1 State.reset (.command 0x01000001#32)).inbox = .command 0x01000001#32 :: [] ∧
    (0x01000001#32) >>> (24 : Nat) = 1#32 ∧ 0x01000001#32 ≠ 0x01000000#32 := by decide

theorem witness_FaultIsSticky :
    (next1 { State.reset with fk := 3 } (.command 0xFF000000#32)).inbox = .command 0xFF000000#32 :: [] ∧
    (next1 { State.reset with fk := 3 } (.command 0xFF000000#32)).fk ≠ 0 ∧ Instr.palBuild ≠ .reset := by decide

theorem witness_OnlyResetLeavesAFault :
    step (next1 { State.reset with fk := 3 } (.write (.opd 1))) = .next { State.reset with fk := 3, opd := 1 } ∧
    (next1 { State.reset with fk := 3 } (.write (.opd 1))).fk ≠ 0 := ⟨rfl, by decide⟩

theorem witness_FaultKindsByCommand :
    State.reset.fk = 0 ∧
    exec .talParse State.reset =
      .next { State.reset with fr := Cursor.loaded [], fk := 5, info := ⟨0, 19, 0⟩ } := ⟨rfl, rfl⟩

theorem witness_NeverRaisesFileAlreadyExists :
    step (next1 State.reset .hardReset) = .next State.reset ∧ (next1 State.reset .hardReset).fk ≠ 2 := ⟨rfl, by decide⟩

theorem witness_RdbitReadsOneBit :
    ({ reading [0xA5] 7 with fk := 3 } : State).fk ≠ 0 ∧
    (reading [0xA5] 7).fk = 0 ∧ ((reading [0xA5] 7).cur .bd).mode = .reading ∧
    (bytesBits ((reading [0xA5] 7).cur .bd).buf)[((reading [0xA5] 7).cur .bd).pos]? = some true ∧
    ((reading [0xA5] 8).cur .bd).mode = .reading ∧
    ((reading [0xA5] 8).cur .bd).buf.length ≤ ((reading [0xA5] 8).cur .bd).byte ∧
    (State.reset.cur .bd).mode ≠ .reading := by decide

theorem witness_RdbitsReadsGroup :
    (reading [1, 2, 3, 4] 0).fk = 0 ∧
    ((reading [1, 2, 3, 4] 0).cur .bd).pos ≤ 8 * ((reading [1, 2, 3, 4] 0).cur .bd).buf.length ∧
    (32#6).toNat ≤ 32 ∧ ((reading [1, 2, 3, 4] 0).cur .bd).mode = .reading ∧
    ((reading [1, 2, 3, 4] 0).cur .bd).pos + (32#6).toNat ≤ 8 * ((reading [1, 2, 3, 4] 0).cur .bd).buf.length ∧
    8 * ((reading [1, 2, 3, 4] 1).cur .bd).buf.length < ((reading [1, 2, 3, 4] 1).cur .bd).pos + (32#6).toNat ∧
    32 < (33#6).toNat ∧ (writing []).fk = 0 ∧ ((writing []).cur .bd).mode ≠ .reading := by decide

theorem witness_RdbyteReadsEightBits :
    (reading [1, 2] 8).fk = 0 ∧ ((reading [1, 2] 8).cur .bd).mode = .reading ∧
    ((reading [1, 2] 8).cur .bd).pos + 8 ≤ 8 * ((reading [1, 2] 8).cur .bd).buf.length ∧
    ((reading [1, 2] 8).cur .bd).bit = 0 ∧
    ((reading [1, 2] 8).cur .bd).buf[((reading [1, 2] 8).cur .bd).byte]? = some 2 ∧
    8 * ((reading [1, 2] 9).cur .bd).buf.length < ((reading [1, 2] 9).cur .bd).pos + 8 ∧
    (State.reset.cur .bd).pos ≤ 8 * (State.reset.cur .bd).buf.length ∧ (State.reset.cur .bd).mode ≠ .reading := by decide

theorem witness_RdbytesFillsTransferBuffer :
    ({ reading [1, 2] 0 with opd := 2 } : State).fk = 0 ∧ ((reading [1, 2] 0).cur .bd).mode = .reading ∧
    ((reading [1, 2] 0).cur .bd).pos + 8 * (2#32).toNat ≤ 8 * ((reading [1, 2] 0).cur .bd).buf.length ∧
    ((reading [1, 2] 0).cur .bd).bit = 0 ∧
    ((reading [1, 2] 0).cur .bd).byte + (2#32).toNat ≤ ((reading [1, 2] 0).cur .bd).buf.length ∧
    8 * ((reading [1, 2] 1).cur .bd).buf.length < ((reading [1, 2] 1).cur .bd).pos + 8 * (2#32).toNat ∧
    (State.reset.cur .bd).mode ≠ .reading := by decide

/-- A capacity of one byte, with eight bits written: room for nothing; with seven: room for one bit. -/
theorem witness_writes_and_capacity :
    (writing (List.replicate 7 true)).cur .bd = writeCursor (List.replicate 7 true) ∧
    roomFor (some 1) 7 1 = 1 ∧ roomFor (some 1) 8 1 = 0 ∧ roomFor none 8 1 = 1 ∧
    ((writing (List.replicate 7 true)).cur .bd).mode = .writing ∧
    ((writing (List.replicate 7 true)).cur .bd).byte < ((writing (List.replicate 7 true)).cur .bd).buf.length ∧
    (32#6).toNat ≤ 32 ∧ roomFor none 7 (32#6).toNat = (32#6).toNat ∧ roomFor (some 4) 7 (32#6).toNat < (32#6).toNat ∧
    32 < (33#6).toNat ∧ roomFor (some 2) 8 8 = 8 ∧ roomFor (some 2) 9 8 < 8 ∧
    roomFor (some 2) 0 (8 * [1#8, 2#8].length) = 8 * [1#8, 2#8].length ∧
    roomFor (some 1) 0 (8 * [1#8, 2#8].length) < 8 * [1#8, 2#8].length ∧
    (State.reset.cur .bd).mode ≠ .writing := by decide

theorem witness_WritesTouchOnlyTheirBytes :
    writeExtent (writing []) (.wrbyte .bd 7) = some (.bd, 8) ∧
    exec (.wrbyte .bd 7) (writing []) = .next (writing (bitsOf 8 7)) := ⟨rfl, rfl⟩

theorem witness_ReadsLeaveBuffersAlone :
    readsBuffersOnly (.rdbit .bd) = true ∧
    exec (.rdbit .bd) (reading [0x80] 0) = .next { reading [0x80] 1 with res := 1 } := ⟨rfl, rfl⟩

theorem witness_WrittenBitsReadBack :
    (writing [true, false, true]).fk = 0 ∧ (writing [true, false, true]).cur .bd = writeCursor [true, false, true] ∧
    (∀ n ∈ [3#6, 0#6, 5#6], n.toNat ≤ 32) ∧
    ([3#6, 0#6, 5#6].map (·.toNat)).sum = 8 * ceil8 [true, false, true].length ∧
    exec (.curOpenR .bd) (writing [true, false, true]) = .next (reading [0xA0] 0) := ⟨rfl, rfl, by decide, by decide, rfl⟩

theorem witness_PalBuildOrdersColours :
    (raster [5, 0, 7, 7] []).fk = 0 ∧
    (raster [5, 0, 7, 7] []).pix.length = (raster [5, 0, 7, 7] []).w.toNat * (raster [5, 0, 7, 7] []).h.toNat ∧
    colourCount (raster [5, 0, 7, 7] []).pix ≤ 256 := by decide

/-- V17's raster: 257 colours. -/
def raster257 : State := raster ((List.range 257).map fun i => BitVec.ofNat 32 (i + 1)) []

theorem witness_PalBuildTooManyColours :
    raster257.fk = 0 ∧ raster257.pix.length = raster257.w.toNat * raster257.h.toNat ∧ 256 < colourCount raster257.pix := by
  decide +kernel

theorem witness_PaletteDependsOnlyOnRaster :
    (raster [5] []).fk = 0 ∧ ({ raster [5] [9] with nf := true } : State).pix = (raster [5] []).pix ∧
    exec .palBuild (raster [5] []) = .next { raster [5] [5] with tally := [⟨5, 1⟩], si := 1 } ∧
    exec .palBuild { raster [5] [9] with nf := true } =
      .next { raster [5] [5] with tally := [⟨5, 1⟩], si := 1, nf := true } := ⟨rfl, rfl, rfl, rfl⟩

theorem witness_RasterChecksComeFirst :
    State.reset.fk = 0 ∧
    ({ State.reset with w := 2, h := 2, pix := [1, 2, 3] } : State).pix.length ≠ 2 * 2 ∧
    State.reset.w.toNat * State.reset.h.toNat = 0 ∧ State.reset.w.toNat ≤ 8192 ∧ State.reset.h.toNat ≤ 8192 ∧
    8192 < ({ State.reset with w := 8193 } : State).w.toNat ∧ 8192 < ({ State.reset with h := 8193 } : State).h.toNat := by
  decide

theorem witness_RleEncodeWritesMaximalStreaks :
    (raster [pixA, pixA, 0, pixB] [pixA, pixB]).fk = 0 ∧
    capAtLeast (raster [pixA, pixA, 0, pixB] [pixA, pixB]) 4 ∧
    (raster [pixA, pixA, 0, pixB] [pixA, pixB]).pix.length = (4#32).toNat * (1#32).toNat ∧
    (raster [pixA, pixA, 0, pixB] [pixA, pixB]).pix ≠ [] ∧
    ∀ p ∈ (raster [pixA, pixA, 0, pixB] [pixA, pixB]).pix, p ≠ 0 → p ∈ [pixA, pixB] :=
  ⟨rfl, fun _ h => (by simp [raster, State.reset] at h), rfl, List.cons_ne_nil _ _, fun p hp h0 => by
    simp only [raster, List.mem_cons, List.not_mem_nil, or_false] at hp ⊢
    rcases hp with h | h | h | h
    · exact .inl h
    · exact .inl h
    · exact absurd h h0
    · exact .inr h⟩

theorem witness_RleEncodeRefusesForeignColour :
    (raster [pixA, pixB] [pixA]).fk = 0 ∧ (raster [pixA, pixB] [pixA]).pix.length = (2#32).toNat * (1#32).toNat ∧
    ∃ p ∈ (raster [pixA, pixB] [pixA]).pix, p ≠ 0 ∧ p ∉ (raster [pixA, pixB] [pixA]).pal :=
  ⟨rfl, rfl, pixB, List.mem_cons_of_mem _ (List.mem_singleton.2 rfl), by decide,
    List.not_mem_cons_of_ne_of_not_mem (by decide) List.not_mem_nil⟩

/-- A capacity of one byte and two `ST.FR` records, whose body needs three. -/
theorem witness_RleEncodeRefusedWithoutRoom :
    ({ raster [pixA, pixA, pixB, pixB] [pixA, pixB] with params := ⟨some 1, []⟩ } : State).fk = 0 ∧
    (raster [pixA, pixA, pixB, pixB] [pixA, pixB]).pix.length = (4#32).toNat * (1#32).toNat ∧
    MaximalStreaks [(pixA, 2), (pixB, 2)] ∧ expand [(pixA, 2), (pixB, 2)] = [pixA, pixA, pixB, pixB] ∧
    1 < ceil8 (bodyBits ([(pixA, 2), (pixB, 2)].map (streakRecord [] [pixA, pixB]))).length := by
  refine ⟨rfl, rfl, ⟨?_, ?_⟩, rfl, by decide⟩
  · intro r hr
    simp only [List.mem_cons, List.not_mem_nil, or_false] at hr
    rcases hr with rfl | rfl <;> decide
  · exact .cons_cons (fun h => absurd h (by decide)) (.singleton _)

theorem witness_record_forms :
    (streams [0x80] [0x80] [0x80] [2, 0x10] [pixA, pixB] 1 2 1).fk = 0 ∧
    (streams [0x80] [0x80] [0x80] [2, 0x10] [pixA, pixB] 1 2 1).cn.pos < 8 * 1 ∧
    (streams [0x80] [0x80] [0x80] [2, 0x10] [pixA, pixB] 1 2 1).bd.pos + 16 ≤
      8 * (streams [0x80] [0x80] [0x80] [2, 0x10] [pixA, pixB] 1 2 1).bd.buf.length ∧
    (1#4).toNat < 16 ∧ [pixA, pixB][(1#4).toNat]? = some pixB ∧ [pixA, pixB].length ≤ (2#4).toNat ∧
    [pixA, pixB][(1#8).toNat]? = some pixB ∧ [pixA, pixB].length ≤ (2#8).toNat := by decide +kernel

theorem witness_RecordStepIsItsForm :
    fetchRecord (streams [0x80] [0x80] [0x80] [2, 0x10] [pixA, pixB] 1 2 1) = some (.stFR 2 1) := by decide

/-- Streams that run dry at each of the five places. -/
theorem witness_TruncatedRecordNamesItsStream :
    (streams [] [] [] [] [] 1 1 1).cn.rest = [] ∧
    (streams [] [0] [] [] [] 1 1 1).cn.rest ≠ [] ∧ (streams [] [0] [] [] [] 1 1 1).ch.rest = [] ∧
    (streams [0x80] [0] [] [] [] 1 1 1).ch.rest.head? = some true ∧ (streams [0x80] [0] [] [] [] 1 1 1).ct.rest = [] ∧
    (streams [0x80] [0x80] [0x80] [5] [pixA] 1 5 1).cn.rest.head? = some true ∧
    (streams [0x80] [0x80] [0x80] [5] [pixA] 1 5 1).ct.rest.head? = some true ∧
    (streams [0x80] [0x80] [0x80] [5] [pixA] 1 5 1).bd.rest.length < recordBodyBits true true true ∧
    (streams [0] [0x80] [] [] [] 1 5 1).ch.rest.head? = some false ∧
    (streams [0] [0x80] [] [] [] 1 5 1).bd.rest.length < 8 := by decide +kernel

theorem witness_RleDecodeReplaysRecords :
    (streams [0xA0] [0x80] [0xC0] [2, 1] [pixA, pixB] 3 2 2).sc.toNat = records.length ∧
    (∀ i ∈ records, recordFits [pixA, pixB] i = true) ∧
    chromaBits records <+: bytesBits [0xA0] ∧ countBits records <+: bytesBits [0x80] ∧
    colourTypeBits records <+: bytesBits [0xC0] ∧ bodyBits records <+: bytesBits [2, 1] ∧
    (records.flatMap (recordPixels [pixA, pixB])).length = (2#32).toNat * (2#32).toNat := by decide +kernel

/-- V55(f)'s streams: two whole records, then a favourite index that addresses no colour, with `SC = 3`. -/
theorem witness_RleDecodeStopsAtTheFirstBadRecord :
    [Instr.stFR 2 0, .stT1].length < (3#32).toNat ∧
    (∀ i ∈ [Instr.stFR 2 0, .stT1], recordFits [pixA, pixB] i = true) ∧
    chromaBits [.stFR 2 0, .stT1] <+: bytesBits [0xA0] ∧ countBits [.stFR 2 0, .stT1] <+: bytesBits [0x80] ∧
    colourTypeBits [.stFR 2 0, .stT1] <+: bytesBits [0xC0] ∧ bodyBits [.stFR 2 0, .stT1] <+: bytesBits [2, 3] ∧
    (record { streams [0xA0] [0x80] [0xC0] [2, 3] [pixA, pixB] 3 2 2 with
      ch := (Cursor.loaded [0xA0]).at 2, cn := (Cursor.loaded [0x80]).at 2, ct := (Cursor.loaded [0xC0]).at 1
      bd := (Cursor.loaded [2, 3]).at 12, out := [pixA, pixA, 0], ri := 2 }).state.fk ≠ 0 := by decide +kernel

theorem witness_RleDecodeInvertsRleEncode :
    exec .rleEncode (raster [pixA, pixA, 0, pixB] [pixA, pixB]) = .next encoded ∧ encoded.fk = 0 ∧
    (raster [pixA, pixA, 0, pixB] [pixA, pixB]).params.nonfav = [] ∧ encoded.nf = false := ⟨rfl, rfl, rfl, rfl⟩

theorem witness_SerializeWritesLayout :
    encoded.w.toNat ≤ 8192 ∧ encoded.h.toNat ≤ 8192 ∧ encoded.pal.length ≤ 255 ∧ capAtLeast encoded 42 ∧
    ∀ k, k ≠ .fr → (encoded.cur k).buf.length < 2 ^ 32 :=
  have hc : encoded.params.bufCap = none := rfl
  ⟨by decide, by decide, by decide, fun b h => (by rw [hc] at h; cases h), fun k _ => by cases k <;> decide⟩

theorem witness_SerializeChecksInOrder :
    8192 < ({ State.reset with w := 8193 } : State).w.toNat ∧ 8192 < ({ State.reset with h := 8193 } : State).h.toNat ∧
    255 < ({ State.reset with pal := List.replicate 256 1 } : State).pal.length := by decide +kernel

theorem witness_ParseReadsContainer :
    containerBytes 2 2 [pixA, pixB] 3 [0xA0] [0x80] [0xC0] [2, 1] = (file fileG).fr.buf ∧
    ceil8 (3#32).toNat ≤ [0xA0#8].length := by decide

theorem witness_ParseChecksInOrder :
    (file (fileG.take 18)).fr.buf.length < 19 ∧ 19 ≤ (file (fileG.take 19)).fr.buf.length ∧
    (file (fileG.set 2 4)).fr.buf.take 3 ≠ [0x08#8, 0x09#8, 0x03#8] ∧ (fileG.set 3 2).getD 3 0 ≠ 1 ∧
    8192 < be32Nat ((fileG.set 6 0x20).set 7 1) 4 ∧ 8192 < be32Nat ((fileG.set 10 0x20).set 11 1) 8 ∧
    (fileG.take 36).length < 29 + 4 * 2 ∧ (fileG.take 39).length < 29 + 4 * 2 + 1 + 1 + 1 ∧
    be32Nat (fileG.set 36 9) (13 + 4 * 2) < ceil8 (be32Nat (fileG.set 36 9) (25 + 4 * 2)) := by decide +kernel

theorem witness_ParseAndSerializeAreInverse :
    (∃ t, exec .talSerialize encoded = .next t ∧ t.fk = 0) ∧
    ceil8 encoded.sc.toNat ≤ encoded.ch.buf.length ∧ ceil8 encoded.sc.toNat ≤ encoded.cn.buf.length ∧
    ∃ t, exec .talParse (file fileG) = .next t ∧ t.fk = 0 ∧ t.bd.buf.length < 2 ^ 32 :=
  ⟨⟨_, rfl, rfl⟩, by decide, by decide, ⟨_, rfl, rfl, by decide⟩⟩

theorem witness_PipelinesAreTheirStages :
    (∃ t, exec .talParse { file fileG with nf := false } = .next t) ∧
    ∃ t u v, exec .palBuild { raster [pixA] [] with nf := false } = .next t ∧ exec .rleEncode t = .next u ∧
      exec .talSerialize u = .next v := ⟨⟨_, rfl⟩, ⟨_, _, _, rfl, rfl, rfl⟩⟩

theorem witness_TalEncodeCompletesExactly : State.reset.fk = 0 ∧ capAtLeast State.reset (2 ^ 28) :=
  ⟨rfl, fun _ h => by simp [State.reset] at h⟩

theorem witness_TalDecodeReadsFile :
    (file fileG).fr.buf = containerBytes 2 2 [pixA, pixB] 3 [0xA0] [0x80] [0xC0] [2, 1] ∧
    (3#32).toNat = records.length ∧ (∀ i ∈ records, recordFits [pixA, pixB] i = true) ∧
    (records.flatMap (recordPixels [pixA, pixB])).length = (2#32).toNat * (2#32).toNat := by decide

theorem witness_TalEncodeDecodeRoundTrip :
    ∃ t, exec .talEncode (raster [pixA] []) = .next t ∧ t.fk = 0 ∧ t.nf = false ∧
      (file t.fr.buf).fk = 0 ∧ (file t.fr.buf).fr.buf = t.fr.buf := ⟨_, rfl, rfl, rfl, rfl, rfl⟩

/-- A state other than reset, with a context open for writing and a colour counted. -/
theorem witness_StateInv : StateInv { writing [true] with tally := [⟨5, 1⟩], rl := 256 } where
  memory := by decide
  tallySize := by decide
  tallyEntries := by decide
  tallyDistinct := by decide
  runLength := by decide
  faultCode := by decide
  infoAtReset := fun _ => rfl

theorem witness_StepKeepsTheInvariant :
    step { writing [true] with tally := [⟨5, 1⟩], rl := 256 } =
      .next { writing [true] with tally := [⟨5, 1⟩], rl := 256 } := rfl

theorem witness_CommandsWriteOnlyTheirState :
    exec (.rdbit .bd) (reading [0x80] 0) = .next { reading [0x80] 1 with res := 1 } ∧
    (∃ t, exec .palBuild (raster [5] []) = .next t) ∧ (∃ t, exec .rleEncode (raster [5] [5]) = .next t) ∧
    (∃ t, exec .talDecode (file fileG) = .next t) := ⟨rfl, ⟨_, rfl⟩, ⟨_, rfl⟩, ⟨_, rfl⟩⟩

end Sys2Proof.Tests
end

/-! The model's own two fields, the open parameters and the host's coming actions (log 1, log 4, log 5): no operation of
the block writes them, so a step changes the inbox only by taking its first item off. -/

namespace Sys2Proof.Machine

/-- The two fields that are no state of R21: the open parameters and the host's coming actions. -/
def State.ownFields (s : State) : Config.Params × List HostAction := (s.params, s.inbox)

theorem State.ownFields_eq_iff (s : State) (p : Config.Params) (l : List HostAction) :
    s.ownFields = (p, l) ↔ s.params = p ∧ s.inbox = l := by
  simp [State.ownFields]

/-! ### The updates of the state -/

@[simp] theorem State.ownFields_setCur (s : State) (k : CurId) (c : Cursor) :
    (s.setCur k c).ownFields = s.ownFields := by
  simp [State.ownFields]

@[simp] theorem State.ownFields_takeFault (s : State) (kind : FaultKind) (a b c : Nat) :
    (s.takeFault kind a b c).ownFields = s.ownFields := rfl

@[simp] theorem State.ownFields_leaveFault (s : State) : s.leaveFault.ownFields = s.ownFields := rfl

@[simp] theorem ownFields_openR (k : CurId) (s : State) : (openR k s).ownFields = s.ownFields :=
  State.ownFields_setCur s k _

@[simp] theorem ownFields_openW (k : CurId) (s : State) : (openW k s).ownFields = s.ownFields :=
  State.ownFields_setCur s k _

theorem DecodeKeeps.ownFields {s t : State} (h : DecodeKeeps s t) : t.ownFields = s.ownFields := by
  obtain ⟨-, -, hframe⟩ := h
  rw [hframe]
  rfl

theorem EncodeKeeps.ownFields {s t : State} (h : EncodeKeeps s t) : t.ownFields = s.ownFields := by
  unfold EncodeKeeps at h
  rw [h]
  rfl

/-! ### The parts of a command -/

/-- `bind` keeps the two fields when both its parts do. -/
theorem Res.bind_ownFields {α β : Type} {s : State} {r : Res α} {f : α → State → Res β}
    (hr : r.state.ownFields = s.ownFields) (hf : ∀ a t, (f a t).state.ownFields = t.ownFields) :
    (r.bind f).state.ownFields = s.ownFields :=
  Res.bind_keeps (fun t => t.ownFields = s.ownFields) r f hr fun a t _ ht => (hf a t).trans ht

theorem rdBits_ownFields (k : CurId) (n : Nat) (s : State) : (rdBits k n s).state.ownFields = s.ownFields :=
  (rdBits_decodeKeeps k n s).ownFields

theorem rdBytes_ownFields (k : CurId) (m : Nat) (s : State) : (rdBytes k m s).state.ownFields = s.ownFields := by
  unfold rdBytes
  split <;> simp

theorem wrSeq_ownFields (cw : Word) (k : CurId) (bits : List Bool) (s : State) :
    (wrSeq cw k bits s).state.ownFields = s.ownFields := by
  unfold wrSeq
  split <;> simp

theorem readIntoRes_ownFields (k : CurId) (n : Nat) (s : State) : (readIntoRes k n s).state.ownFields = s.ownFields :=
  Res.bind_ownFields (rdBits_ownFields k n s) fun _ _ => rfl

theorem consume_ownFields (k : CurId) (n : Nat) (s : State) : (consume k n s).state.ownFields = s.ownFields :=
  Res.bind_ownFields (rdBits_ownFields k n s) fun _ _ => rfl

theorem consumeFlags_ownFields (coloured : Bool) (s : State) :
    (consumeFlags coloured s).state.ownFields = s.ownFields := by
  refine Res.bind_ownFields (consume_ownFields _ _ s) fun _ t => ?_
  refine Res.bind_ownFields (consume_ownFields _ _ t) fun _ u => ?_
  split
  · exact consume_ownFields _ _ u
  · rfl

theorem favouriteRun_ownFields (i l : Nat) (s : State) : (favouriteRun i l s).state.ownFields = s.ownFields :=
  (favouriteRun_decodeKeeps i l s).ownFields

theorem paletteRun_ownFields (j l : Nat) (s : State) : (paletteRun j l s).state.ownFields = s.ownFields :=
  (paletteRun_decodeKeeps j l s).ownFields

/-! ### Whole commands -/

theorem palBuild_ownFields (s : State) : (palBuild s).state.ownFields = s.ownFields := by
  unfold palBuild
  split <;> rfl

theorem rleEncode_ownFields (cw : Word) (s : State) : (rleEncode cw s).state.ownFields = s.ownFields :=
  (rleEncode_encodeKeeps cw s).ownFields

theorem rleDecode_ownFields (s : State) : (rleDecode s).state.ownFields = s.ownFields := by
  have hloop : (decodeLoop s.sc.toNat (decodeStart s)).state.ownFields = s.ownFields :=
    (decodeLoop_decodeKeeps _ (decodeStart s)).ownFields
  refine Res.bind_ownFields hloop fun _ t => ?_
  unfold decodeEnd
  split <;> rfl

theorem talSerialize_ownFields (cw : Word) (s : State) : (talSerialize cw s).state.ownFields = s.ownFields := by
  have hheader : (wrSeq cw .fr (groupBits (headerGroups s)) (openW .fr s)).state.ownFields = s.ownFields :=
    (wrSeq_ownFields _ _ _ _).trans (ownFields_openW .fr s)
  unfold talSerialize
  split_ifs
  · rfl
  · rfl
  · rfl
  · rfl
  · exact Res.bind_ownFields hheader fun _ t => wrSeq_ownFields cw .fr _ t.setLengths

/-- Each check of `TalParse()` and its commit start from the container opened for reading (R236). -/
theorem talParse_ownFields (s : State) : (talParse s).state.ownFields = s.ownFields := by
  unfold talParse
  dsimp only
  split_ifs <;> exact ownFields_openR .fr s

theorem talEncode_ownFields (cw : Word) (s : State) : (talEncode cw s).state.ownFields = s.ownFields := by
  unfold talEncode
  split_ifs
  · rfl
  · rfl
  · rfl
  · exact Res.bind_ownFields (palBuild_ownFields { s with nf := false }) fun _ t =>
      Res.bind_ownFields (rleEncode_ownFields cw t) fun _ u => talSerialize_ownFields cw u

theorem talDecode_ownFields (s : State) : (talDecode s).state.ownFields = s.ownFields :=
  Res.bind_ownFields (talParse_ownFields { s with nf := false }) fun _ t => rleDecode_ownFields t

/-! ### Whole transitions -/

/-- A transition that, where it goes on, keeps the model's own two fields. -/
def KeepsOwnFields (transition : State → Out) : Prop := ∀ s t, transition s = .next t → t.ownFields = s.ownFields

/-- The prologue of R271 adds no write of the two fields. -/
theorem command_keepsOwnFields {body : State → Res Unit} (hbody : ∀ s, (body s).state.ownFields = s.ownFields) :
    KeepsOwnFields (command body) := by
  intro s t ht
  rw [command_next] at ht
  cases ht
  split
  · exact hbody s
  · rfl

theorem checked_ownFields {body : State → Res Unit} (hbody : ∀ s, (body s).state.ownFields = s.ownFields)
    (cw : Word) (legal : Bool) (k : CurId) (mode : Mode) (s : State) :
    (checked cw legal k mode body s).state.ownFields = s.ownFields := by
  unfold checked
  split_ifs
  · rfl
  · rfl
  · exact hbody s

theorem readCommand_keepsOwnFields {body : State → Res Unit} (hbody : ∀ s, (body s).state.ownFields = s.ownFields)
    (cw : Word) (legal : Bool) (k : CurId) : KeepsOwnFields (readCommand cw legal k body) :=
  command_keepsOwnFields (checked_ownFields hbody cw legal k .reading)

theorem writeCommand_keepsOwnFields {body : State → Res Unit} (hbody : ∀ s, (body s).state.ownFields = s.ownFields)
    (cw : Word) (legal : Bool) (k : CurId) : KeepsOwnFields (writeCommand cw legal k body) := by
  intro s t ht
  unfold writeCommand at ht
  split at ht
  · cases ht
  · exact command_keepsOwnFields (checked_ownFields hbody cw legal k .writing) s t ht

/-- A record form reads its field bits and goes on with its payload (R204, R206 to R211). -/
theorem recordForm_keepsOwnFields (coloured : Bool) {payload : State → Res Unit}
    (hpayload : ∀ s, (payload s).state.ownFields = s.ownFields) :
    KeepsOwnFields (command fun s => (consumeFlags coloured s).bind fun _ s => payload s) :=
  command_keepsOwnFields fun s => Res.bind_ownFields (consumeFlags_ownFields coloured s) fun _ t => hpayload t

/-- No instruction writes the open parameters or the host's coming actions. -/
theorem exec_keepsOwnFields (i : Instr) : KeepsOwnFields (exec i) := by
  cases i with
  | reset => intro s t ht; cases ht; exact s.ownFields_leaveFault
  | curOpenR k => exact command_keepsOwnFields fun s => ownFields_openR k s
  | curOpenW k => exact command_keepsOwnFields fun s => ownFields_openW k s
  | rdbit k => exact readCommand_keepsOwnFields (readIntoRes_ownFields k 1) _ _ _
  | rdbits k n => exact readCommand_keepsOwnFields (readIntoRes_ownFields k n.toNat) _ _ _
  | rdbyte k => exact readCommand_keepsOwnFields (readIntoRes_ownFields k 8) _ _ _
  | rdbytes k =>
    exact readCommand_keepsOwnFields (fun s => Res.bind_ownFields (rdBytes_ownFields k _ s) fun _ _ => rfl) _ _ _
  | wrbit k v => exact writeCommand_keepsOwnFields (fun s => wrSeq_ownFields _ k _ s) _ _ _
  | wrbits k n => exact writeCommand_keepsOwnFields (fun s => wrSeq_ownFields _ k _ s) _ _ _
  | wrbyte k b => exact writeCommand_keepsOwnFields (fun s => wrSeq_ownFields _ k _ s) _ _ _
  | wrbytes k => exact writeCommand_keepsOwnFields (fun s => wrSeq_ownFields _ k _ s) _ _ _
  | palBuild =>
    refine command_keepsOwnFields fun s => ?_
    split
    · rfl
    · exact palBuild_ownFields s
  | rleEncode => exact command_keepsOwnFields (rleEncode_ownFields _)
  | rleDecode => exact command_keepsOwnFields rleDecode_ownFields
  | talSerialize => exact command_keepsOwnFields (talSerialize_ownFields _)
  | talParse => exact command_keepsOwnFields talParse_ownFields
  | talEncode => exact command_keepsOwnFields (talEncode_ownFields _)
  | talDecode => exact command_keepsOwnFields talDecode_ownFields
  | stT1 => exact recordForm_keepsOwnFields false fun _ => rfl
  | stTR len =>
    exact recordForm_keepsOwnFields false fun s => Res.bind_ownFields (consume_ownFields .bd 8 s) fun _ _ => rfl
  | stF1 idx =>
    exact recordForm_keepsOwnFields true fun s =>
      Res.bind_ownFields (consume_ownFields .bd 4 s) fun _ t => favouriteRun_ownFields _ _ t
  | stFR len idx =>
    exact recordForm_keepsOwnFields true fun s =>
      Res.bind_ownFields (consume_ownFields .bd 8 s) fun _ t =>
        Res.bind_ownFields (consume_ownFields .bd 4 t) fun _ u => favouriteRun_ownFields _ _ u
  | stP1 idx =>
    exact recordForm_keepsOwnFields true fun s =>
      Res.bind_ownFields (consume_ownFields .bd 8 { s with nf := true }) fun _ t => paletteRun_ownFields _ _ t
  | stPR len idx =>
    exact recordForm_keepsOwnFields true fun s =>
      Res.bind_ownFields (consume_ownFields .bd 8 s) fun _ t =>
        Res.bind_ownFields (consume_ownFields .bd 8 { t with nf := true }) fun _ u => paletteRun_ownFields _ _ u

theorem illegalWord_keepsOwnFields (cw : Word) : KeepsOwnFields (illegalWord cw) :=
  command_keepsOwnFields fun _ => rfl

theorem truncatedRecord_keepsOwnFields : KeepsOwnFields truncatedRecord :=
  command_keepsOwnFields fun s => (record_decodeKeeps s).ownFields

/-- A host write (R40) has no form that reaches the two fields. -/
theorem hostWrite_keepsOwnFields (w : HostWrite) : KeepsOwnFields (hostWrite w) := by
  intro s t ht
  cases w with
  | pal p =>
    simp only [hostWrite] at ht
    split at ht
    · cases ht
    · cases ht; rfl
  | buf k b => cases ht; exact State.ownFields_setCur s k _
  | opd v => cases ht; rfl
  | xb b => cases ht; rfl
  | w v => cases ht; rfl
  | h v => cases ht; rfl
  | pix p => cases ht; rfl
  | sc v => cases ht; rfl

theorem hardReset_keepsOwnFields : KeepsOwnFields hardReset := by
  intro s t ht
  cases ht
  exact s.ownFields_leaveFault

/-- A step that goes on leaves the two fields as they were, but for the item it took off the inbox. -/
theorem step_ownFields (s t : State) (h : step s = .next t) : t.ownFields = (s.params, s.inbox.tail) := by
  rcases step_cases s _ h with ⟨hnil, hidle⟩ | ⟨a, rest, hcons, hdo⟩
  · cases hidle
    rw [State.ownFields, hnil, List.tail_nil]
  rw [hcons, List.tail_cons]
  rcases hdo with ⟨_, i, -, -, ho⟩ | ⟨cw, _, -, -, ho⟩ | ⟨w, -, ho⟩ | ⟨-, ho⟩ | ⟨i, -, -, ho⟩ | ⟨-, -, ho⟩
  · exact exec_keepsOwnFields i _ t ho.symm
  · exact illegalWord_keepsOwnFields cw _ t ho.symm
  · exact hostWrite_keepsOwnFields w _ t ho.symm
  · exact hardReset_keepsOwnFields _ t ho.symm
  · exact exec_keepsOwnFields i _ t ho.symm
  · exact truncatedRecord_keepsOwnFields _ t ho.symm

/-- Settles O7: every kind of inbox item, performed on the state without it, keeps the model's own two fields. -/
theorem stepTakesOneAction : Obligations.StepTakesOneAction := by
  intro s t h
  obtain ⟨hparams, hinbox⟩ := (t.ownFields_eq_iff _ _).1 (step_ownFields s t h)
  exact ⟨hinbox, hparams⟩

end Sys2Proof.Machine

/-! What the prologues can answer, and the one induction over the record step of R205 that the frames and the invariant
below share. -/

namespace Sys2Proof.Machine

/-! ### The prologues (R130, R271) -/

/-- A command is ignored, or its body runs with no fault standing. -/
theorem command_inv {body : State → Res Unit} {s t : State} (h : command body s = .next t) :
    t = s ∨ s.fk = 0 ∧ t = (body s).state := by
  rw [command_next] at h
  cases h
  split
  · exact .inr ⟨by assumption, rfl⟩
  · exact .inl rfl

/-- The checks refuse, or the operands are legal, the mode is the required one and the body runs. -/
theorem checked_state (cw : Word) (legal : Bool) (k : CurId) (mode : Mode) (body : State → Res Unit) (s : State) :
    (checked cw legal k mode body s).state = s.takeFault .refused 0 0 cw.toNat ∨
    legal = true ∧ (s.cur k).mode = mode ∧ (checked cw legal k mode body s).state = (body s).state := by
  unfold checked
  split_ifs with hlegal hmode
  · exact .inl rfl
  · exact .inl rfl
  · exact .inr ⟨Bool.eq_true_of_not_eq_false hlegal, not_not.1 hmode, rfl⟩

/-- A cursor read command is ignored, refused, or runs in mode R. -/
theorem readCommand_inv {cw : Word} {legal : Bool} {k : CurId} {body : State → Res Unit} {s t : State}
    (h : readCommand cw legal k body s = .next t) :
    t = s ∨ t = s.takeFault .refused 0 0 cw.toNat ∨ (s.cur k).mode = .reading ∧ t = (body s).state := by
  rcases command_inv h with rfl | ⟨-, rfl⟩
  · exact .inl rfl
  · rcases checked_state cw legal k .reading body s with hrefused | ⟨-, hmode, hrun⟩
    · exact .inr (.inl hrefused)
    · exact .inr (.inr ⟨hmode, hrun⟩)

/-- A cursor write command that goes on is ignored, refused, or runs in mode W with `byte <= len` (log 9). -/
theorem writeCommand_inv {cw : Word} {legal : Bool} {k : CurId} {body : State → Res Unit} {s t : State}
    (h : writeCommand cw legal k body s = .next t) :
    t = s ∨ t = s.takeFault .refused 0 0 cw.toNat ∨
    (s.cur k).mode = .writing ∧ (s.cur k).byte ≤ (s.cur k).buf.length ∧ t = (body s).state := by
  unfold writeCommand at h
  split at h
  · cases h
  · rename_i hpast
    rcases command_inv h with rfl | ⟨hfk, rfl⟩
    · exact .inl rfl
    · rcases checked_state cw legal k .writing body s with hrefused | ⟨hlegal, hmode, hrun⟩
      · exact .inr (.inl hrefused)
      · exact .inr (.inr ⟨hmode, not_lt.1 fun hlt => hpast ⟨hfk, hlegal, hmode, hlt⟩, hrun⟩)

/-! ### The record step (R205) and the record forms (R206 to R211) -/

/-- `P` survives whatever a record can do to the state: reads of the four streams, the growth of `OUT`, setting `NF`,
advancing `RI`, and a `CorruptStream` fault. -/
structure KeptByRecords (P : State → Prop) : Prop where
  read : ∀ k n s, k ≠ .fr → P s → P (rdBits k n s).state
  out : ∀ pixels s, P s → P { s with out := pixels }
  setNf : ∀ s, P s → P { s with nf := true }
  setRi : ∀ n s, P s → P { s with ri := n }
  fault : ∀ sub expected actual s, P s → P (s.takeFault .corruptStream sub expected actual)

namespace KeptByRecords

variable {P : State → Prop} (hP : KeptByRecords P)
include hP

theorem appendRun (l : Nat) (col : Pixel) {s : State} (h : P s) : P (appendRun l col s).state := hP.out _ s h

theorem favouriteRun (i l : Nat) {s : State} (h : P s) : P (favouriteRun i l s).state := by
  rw [favouriteRun_cases]
  split
  · exact hP.out _ _ h
  · exact hP.fault _ _ _ _ h

theorem paletteRun (j l : Nat) {s : State} (h : P s) : P (paletteRun j l s).state := by
  rw [paletteRun_cases]
  split
  · exact hP.out _ _ h
  · exact hP.fault _ _ _ _ h

theorem recordColour (c f : Bool) (l : Nat) {s : State} (h : P s) : P (recordColour c f l s).state := by
  unfold Machine.recordColour
  split_ifs
  · exact Res.bind_keeps P _ _ (hP.read .bd _ s (by decide) h) fun i t _ ht => hP.favouriteRun i l ht
  · exact Res.bind_keeps P _ _ (hP.read .bd _ _ (by decide) (hP.setNf s h)) fun j t _ ht => hP.paletteRun j l ht
  · exact hP.appendRun l _ h

theorem record {s : State} (h : P s) : P (record s).state := by
  refine Res.bind_keeps P _ _ (hP.read .cn 1 s (by decide) h) fun m t _ ht => ?_
  refine Res.bind_keeps P _ _ (hP.read .ch 1 t (by decide) ht) fun c t _ ht => ?_
  refine Res.bind_keeps P _ _ ?colourType fun f t _ ht => ?_
  case colourType =>
    split
    · exact hP.read .ct 1 t (by decide) ht
    · exact ht
  refine Res.bind_keeps P _ _ ?length fun l t _ ht => hP.recordColour _ _ l ht
  case length =>
    split
    · exact Res.bind_keeps P _ _ (hP.read .bd _ t (by decide) ht) fun _ _ _ ht => ht
    · exact ht

theorem decodeLoop (n : Nat) {s : State} (h : P s) : P (decodeLoop n s).state := by
  induction n generalizing s with
  | zero => exact h
  | succ n ih => exact Res.bind_keeps P _ _ (hP.record h) fun _ t _ ht => ih (hP.setRi _ t ht)

theorem consume (k : CurId) (n : Nat) (hk : k ≠ .fr) {s : State} (h : P s) : P (consume k n s).state :=
  Res.bind_keeps P _ _ (hP.read k n s hk h) fun _ _ _ ht => ht

theorem consumeFlags (coloured : Bool) {s : State} (h : P s) : P (consumeFlags coloured s).state := by
  refine Res.bind_keeps P _ _ (hP.consume .cn 1 (by decide) h) fun _ t _ ht => ?_
  refine Res.bind_keeps P _ _ (hP.consume .ch 1 (by decide) ht) fun _ t _ ht => ?_
  split
  · exact hP.consume .ct 1 (by decide) ht
  · exact ht

/-- A record form reads its field bits and goes on with its payload (R204). -/
theorem form (coloured : Bool) {payload : State → Res Unit} (hpayload : ∀ s, P s → P (payload s).state)
    {s t : State} (h : P s)
    (ht : command (fun s => (Machine.consumeFlags coloured s).bind fun _ s => payload s) s = .next t) : P t := by
  rcases command_inv ht with rfl | ⟨-, rfl⟩
  · exact h
  · exact Res.bind_keeps P _ _ (hP.consumeFlags coloured h) fun _ u _ hu => hpayload u hu

/-- A payload that begins with body bits. -/
theorem afterBody (n : Nat) {payload : State → Res Unit} (hpayload : ∀ s, P s → P (payload s).state) {s : State}
    (h : P s) : P ((Machine.consume .bd n s).bind fun _ s => payload s).state :=
  Res.bind_keeps P _ _ (hP.consume .bd n (by decide) h) fun _ u _ hu => hpayload u hu

/-- Every record form, as an instruction of its own, keeps what the record step keeps (log 7). -/
theorem exec {i : Instr} {r : RecordBits} (hi : encode i = .record r) {s t : State} (h : P s)
    (ht : exec i s = .next t) : P t := by
  cases i with
  | stT1 => exact hP.form false (fun u hu => hP.appendRun 1 _ hu) h ht
  | stTR len => exact hP.form false (fun u hu => hP.afterBody 8 (fun v hv => hP.appendRun _ _ hv) hu) h ht
  | stF1 idx => exact hP.form true (fun u hu => hP.afterBody 4 (fun v hv => hP.favouriteRun _ _ hv) hu) h ht
  | stFR len idx =>
    exact hP.form true (fun u hu => hP.afterBody 8 (fun v hv =>
      hP.afterBody 4 (fun w hw => hP.favouriteRun _ _ hw) hv) hu) h ht
  | stP1 idx =>
    exact hP.form true (fun u hu => hP.afterBody 8 (fun v hv => hP.paletteRun _ _ hv) (hP.setNf u hu)) h ht
  | stPR len idx =>
    exact hP.form true (fun u hu => hP.afterBody 8 (fun v hv =>
      hP.afterBody 8 (fun w hw => hP.paletteRun _ _ hw) (hP.setNf v hv)) hu) h ht
  | _ => cases hi

end KeptByRecords

end Sys2Proof.Machine

/-! The invariant of R24, R29 to R31, R34 and R263: it is the canonical form of the stored data, which the laws keep, and a
bound on `TALLY`, `RL`, `FK` and `INFO`, which is kept here. -/

namespace Sys2Proof.Machine

/-! ### The part of the invariant beside the stored data -/

/-- The clauses of `StateInv` about registers, on the four registers they read. -/
structure RegistersOk (tally : List TallyEntry) (rl : BitVec 9) (fk : BitVec 4) (info : Info) : Prop where
  tallySize : tally.length ≤ 256
  tallyEntries : ∀ e ∈ tally, e.colour ≠ 0 ∧ 0 < e.count
  tallyDistinct : (tally.map (·.colour)).Nodup
  runLength : rl.toNat ≤ 256
  faultCode : fk.toNat ≤ 8 ∧ fk ≠ 2
  infoAtReset : fk = 0 → info = ⟨0, 0, 0⟩

/-- The clauses of `StateInv` about registers. -/
def State.registersOk (s : State) : Prop := RegistersOk s.tally s.rl s.fk s.info

theorem stateInv_iff (s : State) : StateInv s ↔ Memory.wf s = true ∧ s.registersOk :=
  ⟨fun h => ⟨h.memory, h.tallySize, h.tallyEntries, h.tallyDistinct, h.runLength, h.faultCode, h.infoAtReset⟩,
    fun ⟨hm, hr⟩ =>
      ⟨hm, hr.tallySize, hr.tallyEntries, hr.tallyDistinct, hr.runLength, hr.faultCode, hr.infoAtReset⟩⟩

theorem StateInv.registersOk {s : State} (h : StateInv s) : s.registersOk := ((stateInv_iff s).1 h).2

theorem State.registersOk_reset : State.reset.registersOk where
  tallySize := by decide
  tallyEntries := by decide
  tallyDistinct := by decide
  runLength := by decide
  faultCode := by decide
  infoAtReset := fun _ => rfl

theorem StateInv.reset : StateInv State.reset := (stateInv_iff _).2 ⟨Memory.wf_reset, State.registersOk_reset⟩

/-- The codes the block can raise (R262, R263). -/
theorem FaultKind.code_raised (kind : FaultKind) :
    kind ≠ .fileAlreadyExists → kind.code ≠ 0 ∧ kind.code.toNat ≤ 8 ∧ kind.code ≠ 2 := by
  cases kind <;> decide

theorem RegistersOk.withRl {tally : List TallyEntry} {rl : BitVec 9} {fk : BitVec 4} {info : Info}
    (h : RegistersOk tally rl fk info) {rl' : BitVec 9} (hrl : rl'.toNat ≤ 256) : RegistersOk tally rl' fk info :=
  { h with runLength := hrl }

/-- Every fault kind but `FileAlreadyExists` may be taken (R263); from then on `FK` is not 0 and `INFO` is free. -/
theorem State.registersOk.takeFault {s : State} (h : s.registersOk) (kind : FaultKind) (sub expected actual : Nat)
    (hkind : kind ≠ .fileAlreadyExists) : (s.takeFault kind sub expected actual).registersOk where
  tallySize := h.tallySize
  tallyEntries := h.tallyEntries
  tallyDistinct := h.tallyDistinct
  runLength := h.runLength
  faultCode := (kind.code_raised hkind).2
  infoAtReset h0 := absurd h0 (kind.code_raised hkind).1

theorem State.registersOk.setCur {s : State} (h : s.registersOk) (k : CurId) (c : Cursor) :
    (s.setCur k c).registersOk := by
  cases k <;> exact h

/-! ### The parts of a command -/

theorem State.registersOk.rdBits {s : State} (h : s.registersOk) (k : CurId) (n : Nat) :
    (rdBits k n s).state.registersOk := by
  unfold Machine.rdBits
  split
  · exact h.setCur k _
  · exact (h.setCur k _).takeFault _ _ _ _ (by decide)

theorem State.registersOk.rdBytes {s : State} (h : s.registersOk) (k : CurId) (m : Nat) :
    (rdBytes k m s).state.registersOk := by
  unfold Machine.rdBytes
  split
  · exact h.setCur k _
  · exact (h.setCur k _).takeFault _ _ _ _ (by decide)

theorem State.registersOk.wrSeq {s : State} (h : s.registersOk) (cw : Word) (k : CurId) (bits : List Bool) :
    (wrSeq cw k bits s).state.registersOk := by
  unfold Machine.wrSeq
  split
  · exact h.setCur k _
  · exact (h.setCur k _).takeFault _ _ _ _ (by decide)

theorem State.registersOk.emitColour {s : State} (h : s.registersOk) (cw : Word) (col : Pixel) :
    (emitColour cw col s).state.registersOk := by
  unfold Machine.emitColour
  split
  · exact h.takeFault _ _ _ _ (by decide)
  · refine Res.bind_keeps State.registersOk _ _ (h.wrSeq cw _ _) fun _ t _ ht => ?_
    split
    · exact ht.wrSeq cw _ _
    · exact State.registersOk.wrSeq (s := { t with nf := true }) ht cw _ _

theorem State.registersOk.emit {s : State} (h : s.registersOk) (cw : Word) (col : Pixel) (l : Nat) :
    (emit cw col l s).state.registersOk := by
  refine Res.bind_keeps State.registersOk _ _ (h.wrSeq cw _ _) fun _ t _ ht => ?_
  refine Res.bind_keeps State.registersOk _ _ (ht.wrSeq cw _ _) fun _ t _ ht => ?_
  refine Res.bind_keeps State.registersOk _ _ ?length fun _ t _ ht =>
    Res.bind_keeps State.registersOk _ _ ?colour fun _ _ _ ht => ht
  case length =>
    split
    · exact ht.wrSeq cw _ _
    · exact ht
  case colour =>
    split
    · exact ht.emitColour cw col
    · exact ht

/-- `RL` counts up only while it is below 256 (R186). -/
theorem State.registersOk.encodeScan {s : State} (h : s.registersOk) (cw : Word) (ps : List Pixel) :
    (encodeScan cw ps s).state.registersOk := by
  induction ps generalizing s with
  | nil => exact h
  | cons p ps ih =>
    unfold Machine.encodeScan
    split
    · rename_i hlt
      have hrl : (s.rl + 1).toNat ≤ 256 := by
        have := hlt.2
        simp only [Config.runMax] at this
        bv_omega
      exact ih (h.withRl hrl)
    · refine Res.bind_keeps State.registersOk _ _ (h.emit cw _ _) fun _ t _ ht => ih ?_
      exact ht.withRl (rl' := 1) (by decide)

/-! ### Whole commands -/

theorem State.registersOk.rleEncode {s : State} (h : s.registersOk) (cw : Word) :
    (rleEncode cw s).state.registersOk := by
  have hstart : (encodeStart s).registersOk := h.withRl (rl' := 0) (by decide)
  unfold Machine.rleEncode
  split
  · exact h.takeFault _ _ _ _ (by decide)
  · exact Res.bind_keeps State.registersOk _ _ (hstart.encodeScan cw _) fun _ t _ ht => ht.emit cw _ _

/-- A tally of pixels holds distinct non-zero colours, each seen at least once (R31). -/
theorem RegistersOk.withTally {tally : List TallyEntry} {rl : BitVec 9} {fk : BitVec 4} {info : Info}
    (h : RegistersOk tally rl fk info) {pix : List Pixel} {t : List TallyEntry} (ht : TallyOf pix t)
    (hsize : t.length ≤ Config.palMax) : RegistersOk t rl fk info :=
  { h with
    tallySize := hsize
    tallyEntries := fun e he => by
      obtain ⟨hne, hmem⟩ := (ht.colours e.colour).1 (List.mem_map_of_mem he)
      rw [ht.counts e he]
      exact ⟨hne, List.count_pos_iff.2 hmem⟩
    tallyDistinct := ht.nodup }

theorem State.registersOk.palBuild {s : State} (h : s.registersOk) : (palBuild s).state.registersOk := by
  rcases palBuild_cases s with ⟨t, htally, hsize, hrun⟩ | ⟨t, i, p, -, -, -, htally, hsize, hrun⟩ <;> rw [hrun]
  · exact RegistersOk.withTally h htally hsize
  · have hscan : ({ s with tally := t, si := i } : State).registersOk := RegistersOk.withTally h htally hsize.le
    exact hscan.takeFault _ _ _ _ (by decide)

theorem State.registersOk.talSerialize {s : State} (h : s.registersOk) (cw : Word) :
    (talSerialize cw s).state.registersOk := by
  have hopen : (openW .fr s).registersOk := h.setCur .fr _
  unfold Machine.talSerialize
  split_ifs
  · exact h.takeFault _ _ _ _ (by decide)
  · exact h.takeFault _ _ _ _ (by decide)
  · exact h.takeFault _ _ _ _ (by decide)
  · exact h.takeFault _ _ _ _ (by decide)
  · refine Res.bind_keeps State.registersOk _ _ (hopen.wrSeq cw .fr _) fun _ t _ ht => ?_
    exact State.registersOk.wrSeq (s := t.setLengths) ht cw .fr _

theorem State.registersOk.talParse {s : State} (h : s.registersOk) : (talParse s).state.registersOk := by
  have hopen : (openR .fr s).registersOk := h.setCur .fr _
  unfold Machine.talParse
  dsimp only
  split_ifs
  iterate 9 exact hopen.takeFault _ _ _ _ (by decide)
  exact hopen

end Sys2Proof.Machine

/-! Every step keeps the invariant. -/

namespace Sys2Proof.Machine

/-! ### Transitions that keep the invariant -/

theorem StateInv.of_parts {s t : State} (h : StateInv s) (hmem : Memory.wf s = true → Memory.wf t = true)
    (hregs : s.registersOk → t.registersOk) : StateInv t :=
  (stateInv_iff t).2 ⟨hmem h.memory, hregs h.registersOk⟩

theorem StateInv.takeFault {s : State} (h : StateInv s) (kind : FaultKind) (sub expected actual : Nat)
    (hkind : kind ≠ .fileAlreadyExists) : StateInv (s.takeFault kind sub expected actual) :=
  h.of_parts id fun hr => hr.takeFault kind sub expected actual hkind

theorem StateInv.rdBits {s : State} (h : StateInv s) (k : CurId) (n : Nat) : StateInv (rdBits k n s).state :=
  h.of_parts (Memory.wf_rdBits k n s) fun hr => hr.rdBits k n

theorem StateInv.wrSeq {s : State} (h : StateInv s) (cw : Word) (k : CurId) (bits : List Bool)
    (hmode : (s.cur k).mode = .writing) : StateInv (wrSeq cw k bits s).state :=
  h.of_parts (fun hm => Memory.wf_wrSeq cw k bits s hm hmode) fun hr => hr.wrSeq cw k bits

theorem StateInv.readIntoRes {s : State} (h : StateInv s) (k : CurId) (n : Nat) :
    StateInv (readIntoRes k n s).state :=
  Res.bind_keeps StateInv _ _ (h.rdBits k n) fun _ _ _ ht => ht.of_parts id id

/-- A record step only reads the streams, grows `OUT` and sets registers the invariant does not bound. -/
theorem StateInv.keptByRecords : KeptByRecords StateInv where
  read k n _ _ h := h.rdBits k n
  out _ _ h := h.of_parts id id
  setNf _ h := h.of_parts id id
  setRi _ _ h := h.of_parts id id
  fault _ _ _ _ h := h.takeFault _ _ _ _ (by decide)

theorem StateInv.rleDecode {s : State} (h : StateInv s) : StateInv (rleDecode s).state := by
  have hstart : StateInv (decodeStart s) :=
    h.of_parts (fun hm => Memory.wf_openR _ _ (Memory.wf_openR _ _ (Memory.wf_openR _ _ (Memory.wf_openR _ _ hm)))) id
  refine Res.bind_keeps StateInv _ _ (StateInv.keptByRecords.decodeLoop _ hstart) fun _ t _ ht => ?_
  unfold decodeEnd
  split
  · exact ht.takeFault _ _ _ _ (by decide)
  · exact ht

theorem StateInv.palBuild {s : State} (h : StateInv s) : StateInv (palBuild s).state :=
  h.of_parts (Memory.wf_palBuild s) fun hr => hr.palBuild

theorem StateInv.rleEncode {s : State} (h : StateInv s) (cw : Word) : StateInv (rleEncode cw s).state :=
  h.of_parts (Memory.wf_rleEncode cw s) fun hr => hr.rleEncode cw

theorem StateInv.talSerialize {s : State} (h : StateInv s) (cw : Word) : StateInv (talSerialize cw s).state :=
  h.of_parts (Memory.wf_talSerialize cw s) fun hr => hr.talSerialize cw

theorem StateInv.talParse {s : State} (h : StateInv s) : StateInv (talParse s).state :=
  h.of_parts (Memory.wf_talParse s) fun hr => hr.talParse

theorem StateInv.talEncode {s : State} (h : StateInv s) (cw : Word) : StateInv (talEncode cw s).state := by
  have hnf : StateInv { s with nf := false } := h.of_parts id id
  unfold Machine.talEncode
  split_ifs
  · exact h.takeFault _ _ _ _ (by decide)
  · exact h.takeFault _ _ _ _ (by decide)
  · exact h.takeFault _ _ _ _ (by decide)
  · exact Res.bind_keeps StateInv _ _ hnf.palBuild fun _ t _ ht =>
      Res.bind_keeps StateInv _ _ (ht.rleEncode cw) fun _ u _ hu => hu.talSerialize cw

theorem StateInv.talDecode {s : State} (h : StateInv s) : StateInv (talDecode s).state := by
  have hnf : StateInv { s with nf := false } := h.of_parts id id
  exact Res.bind_keeps StateInv _ _ hnf.talParse fun _ t _ ht => ht.rleDecode

/-! ### Instructions and the other items of the inbox -/

/-- A transition that, where it goes on, keeps the invariant. -/
def KeepsInv (transition : State → Out) : Prop := ∀ s t, StateInv s → transition s = .next t → StateInv t

theorem command_keepsInv {body : State → Res Unit} (hbody : ∀ s, StateInv s → StateInv (body s).state) :
    KeepsInv (command body) := by
  intro s t h ht
  rcases command_inv ht with rfl | ⟨-, rfl⟩
  · exact h
  · exact hbody s h

theorem readCommand_keepsInv {body : State → Res Unit} (hbody : ∀ s, StateInv s → StateInv (body s).state)
    (cw : Word) (legal : Bool) (k : CurId) : KeepsInv (readCommand cw legal k body) := by
  intro s t h ht
  rcases readCommand_inv ht with rfl | rfl | ⟨-, rfl⟩
  · exact h
  · exact h.takeFault _ _ _ _ (by decide)
  · exact hbody s h

/-- A write command writes only through a context in mode W, where the canonical form is kept (R24). -/
theorem writeCommand_keepsInv (cw : Word) (legal : Bool) (k : CurId) (bits : State → List Bool) :
    KeepsInv (writeCommand cw legal k fun s => wrSeq cw k (bits s) s) := by
  intro s t h ht
  rcases writeCommand_inv ht with rfl | rfl | ⟨hmode, -, rfl⟩
  · exact h
  · exact h.takeFault _ _ _ _ (by decide)
  · exact h.wrSeq cw k _ hmode

/-- Both resets leave a state with the invariant (R37). -/
theorem leaveFault_keepsInv : KeepsInv fun s => .next s.leaveFault := by
  intro s t _ ht
  cases ht
  exact StateInv.reset.of_parts id id

/-- Every instruction keeps the invariant. -/
theorem exec_keepsInv (i : Instr) : KeepsInv (exec i) := by
  cases i with
  | reset => exact leaveFault_keepsInv
  | curOpenR k => exact command_keepsInv fun s h => h.of_parts (Memory.wf_openR k s) fun hr => hr.setCur k _
  | curOpenW k => exact command_keepsInv fun s h => h.of_parts (Memory.wf_openW k s) fun hr => hr.setCur k _
  | rdbit k => exact readCommand_keepsInv (fun _ h => h.readIntoRes k 1) _ _ _
  | rdbits k n => exact readCommand_keepsInv (fun _ h => h.readIntoRes k n.toNat) _ _ _
  | rdbyte k => exact readCommand_keepsInv (fun _ h => h.readIntoRes k 8) _ _ _
  | rdbytes k =>
    refine readCommand_keepsInv (fun s h => ?_) _ _ _
    have hread : StateInv (rdBytes k s.opd.toNat s).state :=
      h.of_parts (Memory.wf_rdBytes k _ s) fun hr => hr.rdBytes k _
    exact Res.bind_keeps StateInv _ _ hread fun _ _ _ ht => ht.of_parts id id
  | wrbit k v => exact writeCommand_keepsInv _ _ k fun _ => bitsOf 1 v.toNat
  | wrbits k n => exact writeCommand_keepsInv _ _ k fun s => bitsOf n.toNat s.opd.toNat
  | wrbyte k b => exact writeCommand_keepsInv _ _ k fun _ => bitsOf 8 b.toNat
  | wrbytes k => exact writeCommand_keepsInv _ _ k fun s => groupBits (byteGroups s.xb)
  | palBuild =>
    refine command_keepsInv fun s h => ?_
    split
    · exact h.takeFault _ _ _ _ (by decide)
    · exact h.palBuild
  | rleEncode => exact command_keepsInv fun _ h => h.rleEncode _
  | rleDecode => exact command_keepsInv fun _ h => h.rleDecode
  | talSerialize => exact command_keepsInv fun _ h => h.talSerialize _
  | talParse => exact command_keepsInv fun _ h => h.talParse
  | talEncode => exact command_keepsInv fun _ h => h.talEncode _
  | talDecode => exact command_keepsInv fun _ h => h.talDecode
  | stT1 | stTR | stF1 | stFR | stP1 | stPR => exact fun _ _ => StateInv.keptByRecords.exec rfl

theorem illegalWord_keepsInv (cw : Word) : KeepsInv (illegalWord cw) :=
  command_keepsInv fun _ h => h.takeFault .refused 0 0 cw.toNat (by decide)

theorem truncatedRecord_keepsInv : KeepsInv truncatedRecord :=
  command_keepsInv fun _ h => StateInv.keptByRecords.record h

/-- No host write reaches a register the invariant bounds (R40). -/
theorem hostWrite_registersOk {w : HostWrite} {s t : State} (ht : hostWrite w s = .next t) (h : s.registersOk) :
    t.registersOk := by
  cases w with
  | pal p =>
    simp only [hostWrite] at ht
    split at ht
    · cases ht
    · cases ht; exact h
  | buf k b => cases ht; exact h.setCur k _
  | opd | xb | w | h | pix | sc => cases ht; exact h

theorem hostWrite_keepsInv (w : HostWrite) : KeepsInv (hostWrite w) := fun s t h ht =>
  h.of_parts (fun hm => Memory.wf_hostWrite w s t hm ht) (hostWrite_registersOk ht)

/-- Settles O50: each item of the inbox, performed on the state without it, keeps the invariant. -/
theorem stepKeepsTheInvariant : Obligations.StepKeepsTheInvariant := by
  intro s t hs h
  rcases step_cases s _ h with ⟨-, hidle⟩ | ⟨a, rest, -, hdo⟩
  · cases hidle; exact hs
  have hrest : StateInv { s with inbox := rest } := hs.of_parts id id
  rcases hdo with ⟨_, i, -, -, ho⟩ | ⟨cw, _, -, -, ho⟩ | ⟨w, -, ho⟩ | ⟨-, ho⟩ | ⟨i, -, -, ho⟩ | ⟨-, -, ho⟩
  · exact exec_keepsInv i _ t hrest ho.symm
  · exact illegalWord_keepsInv cw _ t hrest ho.symm
  · exact hostWrite_keepsInv w _ t hrest ho.symm
  · exact leaveFault_keepsInv _ t hrest ho.symm
  · exact exec_keepsInv i _ t hrest ho.symm
  · exact truncatedRecord_keepsInv _ t hrest ho.symm

/-- Settles O51: every buffer is empty, and every register the invariant bounds is 0 or empty. -/
theorem resetHasTheInvariant : Obligations.ResetHasTheInvariant := StateInv.reset

end Sys2Proof.Machine

/-! Where a step goes on: under the invariant every instruction does, and while a fault stands every instruction but `RESET`
leaves the state as it is. -/

namespace Sys2Proof.Machine

/-- `RESET` apart, every instruction is a command with the prologue of R130, the four writes with the test of log 9. -/
theorem exec_prologue (i : Instr) :
    i = .reset ∨ (∃ cw legal k body, exec i = writeCommand cw legal k body) ∨ ∃ body, exec i = command body := by
  cases i with
  | reset => exact .inl rfl
  | wrbit | wrbits | wrbyte | wrbytes => exact .inr (.inl ⟨_, _, _, _, rfl⟩)
  | _ => exact .inr (.inr ⟨_, rfl⟩)

/-! ### Instructions go on (log 9) -/

/-- R24's bound on the position in bytes. -/
theorem Cursor.byte_le_of_wf {c : Cursor} (h : c.wf = true) : c.byte ≤ c.buf.length := by
  obtain ⟨hpos, -⟩ := (Cursor.wf_iff c).1 h
  unfold Cursor.pos at hpos
  omega

theorem command_goes_on (body : State → Res Unit) (s : State) : ∃ t, command body s = .next t :=
  ⟨_, command_next body s⟩

theorem writeCommand_goes_on (cw : Word) (legal : Bool) {k : CurId} (body : State → Res Unit) {s : State}
    (hle : (s.cur k).byte ≤ (s.cur k).buf.length) : ∃ t, writeCommand cw legal k body s = .next t := by
  rcases writeCommand_cases cw legal k body s with ⟨-, hpast⟩ | hnext
  · exact absurd hpast (not_lt.2 hle)
  · exact ⟨_, hnext⟩

/-- Only a write past the end stops an instruction (log 9). -/
theorem exec_goes_on (i : Instr) {s : State} (hle : ∀ k, (s.cur k).byte ≤ (s.cur k).buf.length) :
    ∃ t, exec i s = .next t := by
  rcases exec_prologue i with rfl | ⟨cw, legal, k, body, hi⟩ | ⟨body, hi⟩
  · exact ⟨_, rfl⟩
  · rw [hi]; exact writeCommand_goes_on cw legal body (hle k)
  · rw [hi]; exact command_goes_on body s

/-- Settles O52: under the invariant no item of the inbox stops the machine but a palette the host may not supply. -/
theorem invariantStatesNeverStop : Obligations.InvariantStatesNeverStop := by
  intro s hs
  rcases step_cases s _ rfl with ⟨-, hidle⟩ | ⟨a, rest, hinbox, hdo⟩
  · exact .inl ⟨s, hidle⟩
  have hrest : Memory.wf { s with inbox := rest } = true := hs.memory
  have hexec : ∀ i, ∃ t, exec i { s with inbox := rest } = .next t :=
    fun i => exec_goes_on i fun k => Cursor.byte_le_of_wf (((Memory.wf_iff _).1 hrest).1 k)
  rcases hdo with ⟨_, i, -, -, ho⟩ | ⟨cw, _, -, -, ho⟩ | ⟨w, rfl, ho⟩ | ⟨-, ho⟩ | ⟨i, -, -, ho⟩ | ⟨-, -, ho⟩
  all_goals rw [ho]
  · exact .inl (hexec i)
  · exact .inl (command_goes_on _ _)
  · cases w with
    | pal p =>
      by_cases hp : 256 < p.length
      · exact .inr ⟨p, rest, hinbox, hp, if_pos hp⟩
      · exact .inl ⟨_, if_neg hp⟩
    | _ => exact .inl ⟨_, rfl⟩
  · exact .inl ⟨_, rfl⟩
  · exact .inl (hexec i)
  · exact .inl (command_goes_on _ _)

/-! ### Instructions under a standing fault (R271) -/

theorem command_of_fault (body : State → Res Unit) {s : State} (h : s.fk ≠ 0) : command body s = .next s := by
  rw [command_next, if_neg h]

theorem writeCommand_of_fault (cw : Word) (legal : Bool) (k : CurId) (body : State → Res Unit) {s : State}
    (h : s.fk ≠ 0) : writeCommand cw legal k body s = .next s := by
  unfold writeCommand
  rw [if_neg fun hpast => h hpast.1]
  exact command_of_fault _ h

/-- While a fault stands every instruction but `RESET` is ignored. -/
theorem exec_of_fault {i : Instr} (hi : i ≠ .reset) {s : State} (h : s.fk ≠ 0) : exec i s = .next s := by
  rcases exec_prologue i with hreset | ⟨cw, legal, k, body, he⟩ | ⟨body, he⟩
  · exact absurd hreset hi
  · rw [he, writeCommand_of_fault cw legal k body h]
  · rw [he, command_of_fault body h]

/-- A host write leaves a fault standing (R34). -/
theorem hostWrite_fault {w : HostWrite} {s t : State} (ht : hostWrite w s = .next t) :
    t.fk = s.fk ∧ t.info = s.info := by
  cases w with
  | pal p =>
    simp only [hostWrite] at ht
    split at ht
    · cases ht
    · cases ht; exact ⟨rfl, rfl⟩
  | buf k b => cases ht; exact ⟨State.setCur_fk s k _, State.setCur_info s k _⟩
  | opd | xb | w | h | pix | sc => cases ht; exact ⟨rfl, rfl⟩

end Sys2Proof.Machine

/-! The one command word of `RESET` (R93, R275). -/

namespace Sys2Proof

/-- The instructions an operand shape can build. -/
def Shape.builds : Shape → Instr → Prop
  | .plain j, i => i = j
  | .ctx mk, i => ∃ k, i = mk k
  | .ctxCount mk, i => ∃ k n, i = mk k n
  | .ctxBit mk, i => ∃ k v, i = mk k v
  | .ctxByte mk, i => ∃ k b, i = mk k b

theorem withContext_eq_ok {f : BitVec 3} {mk : CurId → Instr} {i : Instr} (h : withContext f mk = .ok i) :
    ∃ k, i = mk k := by
  unfold withContext at h
  split at h
  · cases h; exact ⟨_, rfl⟩
  · cases h

/-- A word that decodes has the opcode of a shape that builds the instruction, and `RSV = 0`; where the shape has no
operands its other fields are 0 too (R92). -/
theorem decodeCommand_eq_ok {cw : Word} {i : Instr} (h : decodeCommand cw = .ok i) :
    ∃ shape, opcodeShape (cw.extractLsb' 24 8) = some shape ∧ shape.builds i ∧ cw.extractLsb' 8 7 = 0#7 ∧
      (shape = .plain i → cw.extractLsb' 21 3 = 0#3 ∧ cw.extractLsb' 15 6 = 0#6 ∧ cw.extractLsb' 0 8 = 0#8) := by
  unfold decodeCommand at h
  dsimp only at h
  split at h
  · cases h
  rename_i shape hshape
  split at h
  · cases h
  rename_i hrsv
  refine ⟨shape, hshape, ?_⟩
  cases shape with
  | plain j =>
    dsimp only at h
    split at h
    · rename_i hfields
      cases h
      exact ⟨rfl, not_not.1 hrsv, fun _ => hfields⟩
    · cases h
  | ctx mk =>
    dsimp only at h
    split at h
    · exact ⟨withContext_eq_ok h, not_not.1 hrsv, by rintro ⟨⟩⟩
    · cases h
  | ctxCount mk =>
    dsimp only at h
    split_ifs at h
    obtain ⟨k, rfl⟩ := withContext_eq_ok h
    exact ⟨⟨k, _, rfl⟩, not_not.1 hrsv, by rintro ⟨⟩⟩
  | ctxBit mk =>
    dsimp only at h
    split_ifs at h
    obtain ⟨k, rfl⟩ := withContext_eq_ok h
    exact ⟨⟨k, _, rfl⟩, not_not.1 hrsv, by rintro ⟨⟩⟩
  | ctxByte mk =>
    dsimp only at h
    split_ifs at h
    obtain ⟨k, rfl⟩ := withContext_eq_ok h
    exact ⟨⟨k, _, rfl⟩, not_not.1 hrsv, by rintro ⟨⟩⟩

/-- Of R93's opcodes only 0x01 stands for `RESET`. -/
theorem opcode_of_reset {op : BitVec 8} {shape : Shape} (h : opcodeShape op = some shape)
    (hbuilds : shape.builds .reset) : op.toNat = 1 ∧ shape = .plain .reset := by
  unfold opcodeShape at h
  split at h <;> cases h <;> simp only [Shape.builds, reduceCtorEq, exists_false] at hbuilds
  exact ⟨by assumption, rfl⟩

/-- `RESET` is encoded by the word 0x01000000 only. -/
theorem decode_eq_reset {cw : Word} (h : decode (.command cw) = .ok .reset) : cw = 0x01000000#32 := by
  obtain ⟨shape, hshape, hbuilds, hrsv, hplain⟩ := decodeCommand_eq_ok h
  obtain ⟨hop, rfl⟩ := opcode_of_reset hshape hbuilds
  obtain ⟨hk, hnb, himm⟩ := hplain rfl
  have field : ∀ {n a : Nat}, cw.extractLsb' a n = 0#n → cw.toNat / 2 ^ a % 2 ^ n = 0 := by
    intro n a hz
    simpa [BitVec.extractLsb'_toNat, Nat.shiftRight_eq_div_pow] using congrArg BitVec.toNat hz
  have hop' : cw.toNat / 2 ^ 24 % 2 ^ 8 = 1 := by
    simpa [BitVec.extractLsb'_toNat, Nat.shiftRight_eq_div_pow] using hop
  have hk' := field hk
  have hnb' := field hnb
  have hrsv' := field hrsv
  have himm' := field himm
  apply BitVec.eq_of_toNat_eq
  rw [show (0x01000000#32).toNat = 2 ^ 24 from rfl]
  have := cw.isLt
  omega

end Sys2Proof

/-! What single steps do: sticky faults, decoded instructions, host writes, the two resets, and the raster checks. -/

namespace Sys2Proof.Machine

/-- The records in the streams are the six forms of R101. -/
theorem decodeRecord_ne_reset (r : RecordBits) : decodeRecord r ≠ .ok .reset := by
  intro h
  unfold decodeRecord at h
  split at h <;> (try split at h) <;> cases h

theorem fetchRecord_ne_reset {s : State} {i : Instr} (h : fetchRecord s = some i) : i ≠ .reset := by
  rintro rfl
  unfold fetchRecord at h
  split at h
  · cases h
  · rename_i r _
    cases hdec : decodeRecord r with
    | error e => rw [hdec] at h; cases h
    | ok j =>
      rw [hdec] at h
      cases h
      exact decodeRecord_ne_reset r hdec

/-- Settles O12: an instruction other than `RESET` is ignored under a fault, and so is an illegal word. -/
theorem onlyResetLeavesAFault : Obligations.OnlyResetLeavesAFault := by
  intro s t h hfk
  rcases step_cases s _ h with ⟨-, hidle⟩ | ⟨a, rest, hinbox, hdo⟩
  · cases hidle; exact .inl ⟨rfl, rfl⟩
  have ignored : ∀ i, i ≠ .reset → .next t = exec i { s with inbox := rest } → t.fk = s.fk ∧ t.info = s.info := by
    intro i hi ho
    rw [exec_of_fault hi (s := { s with inbox := rest }) hfk] at ho
    cases ho
    exact ⟨rfl, rfl⟩
  rw [hinbox]
  rcases hdo with
    ⟨cw, i, rfl, hdec, ho⟩ | ⟨cw, _, -, -, ho⟩ | ⟨w, -, ho⟩ | ⟨rfl, -⟩ | ⟨i, rfl, hfetch, ho⟩ | ⟨-, -, ho⟩
  · by_cases hi : i = .reset
    · subst hi
      rw [decode_eq_reset hdec]
      exact .inr (.inl rfl)
    · exact .inl (ignored i hi ho)
  · rw [illegalWord, command_of_fault _ (s := { s with inbox := rest }) hfk] at ho
    cases ho
    exact .inl ⟨rfl, rfl⟩
  · exact .inl (hostWrite_fault (s := { s with inbox := rest }) ho.symm)
  · exact .inr (.inr rfl)
  · exact .inl (ignored i (fetchRecord_ne_reset hfetch) ho)
  · rw [truncatedRecord, command_of_fault _ (s := { s with inbox := rest }) hfk] at ho
    cases ho
    exact .inl ⟨rfl, rfl⟩

/-- Settles O5: a step performs the item it takes off, and performing a word or a record runs what it decodes to. -/
theorem stepRunsTheDecodedInstruction : Obligations.StepRunsTheDecodedInstruction := by
  refine ⟨fun s cw i rest hinbox hdec => ?_, fun s i rest hinbox hfetch => ?_, step_idle⟩
  · rw [step_perform s _ rest hinbox]
    exact issue_decoded cw i _ hdec
  · rw [step_perform s _ rest hinbox, perform, runRecord, hfetch]

/-- Settles O8: only the length of a palette is tested (log 10). -/
theorem hostWritesTakeEffect : Obligations.HostWritesTakeEffect := by
  intro s rest
  refine ⟨fun _ => rfl, fun _ => rfl, fun _ => rfl, fun _ => rfl, fun _ => rfl, fun p => ?_, fun _ => rfl,
    fun _ _ => rfl⟩
  rw [step_perform _ _ rest rfl]
  by_cases hp : p.length ≤ 256
  · rw [if_pos hp]
    exact if_neg (not_lt.2 hp)
  · rw [if_neg hp]
    exact if_pos (not_le.1 hp)

theorem resetValues_reset : resetValues State.reset :=
  ⟨fun k => by cases k <;> exact ⟨rfl, rfl, rfl, rfl⟩, by decide⟩

/-- The model's own two fields are no part of R37's table (log 16). -/
theorem resetValues_leaveFault (s : State) : resetValues s.leaveFault :=
  ⟨fun k => by cases k <;> exact ⟨rfl, rfl, rfl, rfl⟩, resetValues_reset.2⟩

/-- Settles O9: both resets leave `State.leaveFault`. -/
theorem resetStateValues : Obligations.ResetStateValues := by
  refine ⟨resetValues_reset, fun s => ⟨s.leaveFault, rfl, resetValues_leaveFault s⟩, fun s rest hinbox => ?_⟩
  refine ⟨State.leaveFault { s with inbox := rest }, ?_, resetValues_leaveFault _, ?_⟩
  · rw [step_perform s _ rest hinbox]
    rfl
  · rw [step_perform _ _ rest rfl]
    exact issue_decoded 0x01000000#32 .reset _ (by decide)

/-! ### The raster checks (R26, R177, R250, R253) -/

theorem command_of_raise (body : State → Res Unit) {kind : FaultKind} {sub expected actual : Nat} {s : State}
    (hfk : s.fk = 0) (h : body s = raise kind sub expected actual s) :
    command body s = .next (s.takeFault kind sub expected actual) := by
  rw [command_next, if_pos hfk, h, raise_state]

theorem rleEncode_of_bad_raster (cw : Word) {s : State} (h : s.pix.length ≠ s.area ∨ s.area = 0) :
    rleEncode cw s = refuse cw s := if_pos h

theorem talEncode_of_wide (cw : Word) {s : State} (h : Config.dimMax < s.w.toNat) :
    talEncode cw s = raise .imageSize 1 Config.dimMax s.w.toNat s := if_pos h

theorem talEncode_of_high (cw : Word) {s : State} (hw : s.w.toNat ≤ Config.dimMax) (h : Config.dimMax < s.h.toNat) :
    talEncode cw s = raise .imageSize 2 Config.dimMax s.h.toNat s :=
  (if_neg (not_lt.2 hw)).trans (if_pos h)

theorem talEncode_of_bad_raster (cw : Word) {s : State} (hw : s.w.toNat ≤ Config.dimMax)
    (hh : s.h.toNat ≤ Config.dimMax) (h : s.pix.length ≠ s.area ∨ s.area = 0) : talEncode cw s = refuse cw s :=
  (if_neg (not_lt.2 hw)).trans ((if_neg (not_lt.2 hh)).trans (if_pos h))

/-- Settles O31: each check is the first test its command makes, after those before it have passed. -/
theorem rasterChecksComeFirst : Obligations.RasterChecksComeFirst := by
  intro s hfk
  refine ⟨fun hlen => ?_, fun hraster => ?_, fun hw => ?_, fun hw hh => ?_, fun hw hh hraster => ?_⟩
  · exact command_of_raise (fun s => if s.pix.length ≠ s.area then refuse Instr.palBuild.word s else palBuild s) hfk
      (if_pos hlen)
  · exact command_of_raise _ hfk (rleEncode_of_bad_raster Instr.rleEncode.word hraster)
  · exact command_of_raise _ hfk (talEncode_of_wide Instr.talEncode.word hw)
  · exact command_of_raise _ hfk (talEncode_of_high Instr.talEncode.word hw hh)
  · exact command_of_raise _ hfk (talEncode_of_bad_raster Instr.talEncode.word hw hh hraster)

end Sys2Proof.Machine

/-! The frames: which bytes the cursor write commands change, that the reading instructions change none, and what each
command writes besides (R39, R72, R74, R77, R82). -/

namespace Sys2Proof.Machine

/-! ### The bytes a cursor write lies in (R72) -/

/-- One written bit changes no byte but the one at the position, and keeps the position within the buffer. -/
theorem Cursor.wrBit_frame {cap : Option Nat} {v : Bool} {c d : Cursor} (h : c.wrBit cap v = some d)
    (hle : c.byte ≤ c.buf.length) :
    d.pos = c.pos + 1 ∧ d.byte ≤ d.buf.length ∧ ∀ a, a ≠ c.byte → d.buf[a]? = c.buf[a]? := by
  have put : ∀ e : Cursor, e.byte < e.buf.length →
      (e.putBit v).byte ≤ (e.putBit v).buf.length ∧ ∀ a, a ≠ e.byte → (e.putBit v).buf[a]? = e.buf[a]? := by
    intro e hlt
    constructor
    · have hbit := e.bit.isLt
      rw [Cursor.byte_eq, Cursor.putBit_pos, Cursor.putBit_buf, List.length_modify, Cursor.pos]
      omega
    · intro a ha
      rw [Cursor.putBit_buf, List.getElem?_modify_ne _ _ ha.symm]
  unfold Cursor.wrBit at h
  split_ifs at h with hlt hcap <;> cases h
  · exact ⟨Cursor.putBit_pos c v, put c hlt⟩
  · have hend : c.byte = c.buf.length := by omega
    obtain ⟨hbyte, hbuf⟩ := put { c with buf := c.buf ++ [0#8] } (by simp [hend])
    refine ⟨Cursor.putBit_pos { c with buf := c.buf ++ [0#8] } v, hbyte, fun a ha => ?_⟩
    rw [hbuf a ha, List.getElem?_append]
    split
    · rfl
    · have ha' : a ≠ c.buf.length := hend ▸ ha
      rw [List.getElem?_eq_none (by simp; omega), List.getElem?_eq_none (by omega)]

/-- A written bit sequence changes no byte that lies wholly before or wholly behind its bits. -/
theorem Cursor.wrSeq_frame (cap : Option Nat) (vs : List Bool) {c : Cursor} (hle : c.byte ≤ c.buf.length) {a : Nat}
    (ha : a < c.byte ∨ c.pos + vs.length ≤ 8 * a) : (c.wrSeq cap vs).2.buf[a]? = c.buf[a]? := by
  induction vs generalizing c with
  | nil => rfl
  | cons v vs ih =>
    rw [Cursor.wrSeq]
    cases hw : c.wrBit cap v with
    | none => rfl
    | some d =>
      obtain ⟨hpos, hd, hbuf⟩ := Cursor.wrBit_frame hw hle
      have hc := c.byte_eq
      have hdb := d.byte_eq
      rw [List.length_cons] at ha
      rw [← hbuf a (by omega)]
      exact ih hd (by omega)

/-- What a cursor write command may have changed: bytes of context `k` that its `m` bits lie in, that context's position,
and the fault. -/
def WritesWithin (k : CurId) (m : Nat) (s t : State) : Prop :=
  (∀ j a, (j = k → a < (s.cur k).byte ∨ (s.cur k).byte + ceil8 ((s.cur k).bit.val + m) ≤ a) →
    t.readByte j a = s.readByte j a) ∧
  t = { s.setCur k (t.cur k) with fk := t.fk, info := t.info }

theorem WritesWithin.same (k : CurId) (m : Nat) (s : State) : WritesWithin k m s s :=
  ⟨fun _ _ _ => rfl, by rw [State.setCur_cur]⟩

theorem WritesWithin.takeFault {k : CurId} {m : Nat} {s t : State} (h : WritesWithin k m s t) (kind : FaultKind)
    (sub expected actual : Nat) : WritesWithin k m s (t.takeFault kind sub expected actual) := by
  obtain ⟨hbytes, hrest⟩ := h
  refine ⟨fun j a hja => ?_, ?_⟩
  · rw [State.readByte, State.takeFault_cur]
    exact hbytes j a hja
  · rw [State.takeFault_cur]
    exact (congrArg (State.takeFault · kind sub expected actual) hrest).trans rfl

theorem wrSeq_writesWithin (cw : Word) (k : CurId) (bits : List Bool) {s : State}
    (hle : (s.cur k).byte ≤ (s.cur k).buf.length) : WritesWithin k bits.length s (wrSeq cw k bits s).state := by
  have hset : WritesWithin k bits.length s (s.setCur k ((s.cur k).wrSeq s.params.bufCap bits).2) := by
    refine ⟨fun j a hja => ?_, by cases k <;> rfl⟩
    by_cases hjk : j = k
    · subst hjk
      rw [State.readByte, State.cur_setCur_same]
      refine Cursor.wrSeq_frame s.params.bufCap bits hle ?_
      have := hja rfl
      simp only [ceil8, Cursor.pos] at this ⊢
      omega
    · rw [State.readByte, State.cur_setCur_ne _ _ _ _ hjk]
      rfl
  unfold wrSeq
  split <;> rename_i heq <;> rw [heq] at hset
  · exact hset
  · exact hset.takeFault _ _ _ _

theorem writeCommand_writesWithin {cw : Word} {legal : Bool} {k : CurId} (bits : State → List Bool) {s t : State}
    (h : writeCommand cw legal k (fun s => wrSeq cw k (bits s) s) s = .next t) :
    WritesWithin k (bits s).length s t := by
  rcases writeCommand_inv h with rfl | rfl | ⟨-, hle, rfl⟩
  · exact .same k _ _
  · exact (WritesWithin.same k _ s).takeFault _ _ _ _
  · exact wrSeq_writesWithin cw k (bits s) hle

/-- Settles O25: each of the four write commands writes its extent's bits through its context. -/
theorem writesTouchOnlyTheirBytes : Obligations.WritesTouchOnlyTheirBytes := by
  intro i k m s t hextent h
  show WritesWithin k m s t
  cases i with
  | wrbit k v =>
    cases hextent
    exact writeCommand_writesWithin (fun _ => bitsOf 1 v.toNat) h
  | wrbits k n =>
    cases hextent
    simpa using writeCommand_writesWithin (fun s => bitsOf n.toNat s.opd.toNat) h
  | wrbyte k b =>
    cases hextent
    exact writeCommand_writesWithin (fun _ => bitsOf 8 b.toNat) h
  | wrbytes k =>
    cases hextent
    simpa [groupBits_byteGroups] using writeCommand_writesWithin (fun s => groupBits (byteGroups s.xb)) h
  | _ => cases hextent

end Sys2Proof.Machine

/-! The access table of R39: what each command that is no cursor write may change, and that the reading ones change no
byte. -/

namespace Sys2Proof.Machine

/-! ### Cursor reads -/

/-- Only the position of context `k` and the fault differ. -/
def MovesCursor (k : CurId) (s t : State) : Prop :=
  ∃ (byte : Nat) (bit : Fin 8) (fk : BitVec 4) (info : Info),
    t = { s.setCur k { s.cur k with byte := byte, bit := bit } with fk := fk, info := info }

theorem MovesCursor.takeFault {k : CurId} {s t : State} (h : MovesCursor k s t) (kind : FaultKind)
    (sub expected actual : Nat) : MovesCursor k s (t.takeFault kind sub expected actual) := by
  obtain ⟨byte, bit, fk, info, rfl⟩ := h
  exact ⟨byte, bit, _, _, rfl⟩

theorem MovesCursor.same (k : CurId) (s : State) : MovesCursor k s s :=
  ⟨(s.cur k).byte, (s.cur k).bit, s.fk, s.info, by cases k <;> rfl⟩

theorem MovesCursor.of_setCur {k : CurId} {s : State} {c : Cursor} (hbuf : c.buf = (s.cur k).buf)
    (hmode : c.mode = (s.cur k).mode) : MovesCursor k s (s.setCur k c) := by
  obtain ⟨buf, byte, bit, mode⟩ := c
  dsimp only at hbuf hmode
  subst hbuf hmode
  exact ⟨byte, bit, s.fk, s.info, by cases k <;> rfl⟩

theorem rdBits_movesCursor (k : CurId) (n : Nat) (s : State) : MovesCursor k s (rdBits k n s).state := by
  have hframe := Cursor.rdBits_frame n (s.cur k)
  unfold rdBits
  split <;> rename_i heq <;> rw [heq] at hframe <;> obtain ⟨hbuf, hmode⟩ := hframe
  · exact .of_setCur hbuf hmode
  · exact (MovesCursor.of_setCur hbuf hmode).takeFault _ _ _ _

theorem rdBytes_movesCursor (k : CurId) (m : Nat) (s : State) : MovesCursor k s (rdBytes k m s).state := by
  have hframe := Cursor.rdBytesFrom_frame [] m (s.cur k)
  unfold rdBytes
  split <;> rename_i heq <;> rw [heq] at hframe <;> obtain ⟨hbuf, hmode⟩ := hframe
  · exact .of_setCur hbuf hmode
  · exact (MovesCursor.of_setCur hbuf hmode).takeFault _ _ _ _

/-- R39's row of `RDBIT`, `RDBITS` and `RDBYTE`. -/
def ReadKeeps (k : CurId) (s t : State) : Prop :=
  t = { s.setCur k { s.cur k with byte := (t.cur k).byte, bit := (t.cur k).bit } with
    res := t.res, fk := t.fk, info := t.info }

/-- R39's row of `RDBYTES`. -/
def ReadBytesKeeps (k : CurId) (s t : State) : Prop :=
  t = { s.setCur k { s.cur k with byte := (t.cur k).byte, bit := (t.cur k).bit } with
    xb := t.xb, fk := t.fk, info := t.info }

theorem MovesCursor.readKeeps {k : CurId} {s t : State} (h : MovesCursor k s t) : ReadKeeps k s t := by
  obtain ⟨byte, bit, fk, info, rfl⟩ := h
  cases k <;> rfl

theorem MovesCursor.readKeeps_setRes {k : CurId} {s t : State} (h : MovesCursor k s t) (v : Word) :
    ReadKeeps k s (t.setRes v) := by
  obtain ⟨byte, bit, fk, info, rfl⟩ := h
  cases k <;> rfl

theorem MovesCursor.readBytesKeeps {k : CurId} {s t : State} (h : MovesCursor k s t) : ReadBytesKeeps k s t := by
  obtain ⟨byte, bit, fk, info, rfl⟩ := h
  cases k <;> rfl

theorem MovesCursor.readBytesKeeps_setXb {k : CurId} {s t : State} (h : MovesCursor k s t) (bytes : List Byte) :
    ReadBytesKeeps k s (t.setXb bytes) := by
  obtain ⟨byte, bit, fk, info, rfl⟩ := h
  cases k <;> rfl

theorem readIntoRes_readKeeps (k : CurId) (n : Nat) (s : State) : ReadKeeps k s (readIntoRes k n s).state := by
  have hmoves := rdBits_movesCursor k n s
  unfold readIntoRes
  cases hread : rdBits k n s with
  | ok v u => rw [hread] at hmoves; exact hmoves.readKeeps_setRes _
  | raised u => rw [hread] at hmoves; exact hmoves.readKeeps

theorem readCommand_readKeeps {cw : Word} {legal : Bool} {k : CurId} {n : Nat} {s t : State}
    (h : readCommand cw legal k (readIntoRes k n) s = .next t) : ReadKeeps k s t := by
  rcases readCommand_inv h with rfl | rfl | ⟨-, rfl⟩
  · exact (MovesCursor.same k _).readKeeps
  · exact ((MovesCursor.same k s).takeFault _ _ _ _).readKeeps
  · exact readIntoRes_readKeeps k n s

theorem rdbytes_readBytesKeeps {k : CurId} {s t : State} (h : exec (.rdbytes k) s = .next t) :
    ReadBytesKeeps k s t := by
  rcases readCommand_inv h with rfl | rfl | ⟨-, rfl⟩
  · exact (MovesCursor.same k _).readBytesKeeps
  · exact ((MovesCursor.same k s).takeFault _ _ _ _).readBytesKeeps
  · have hmoves := rdBytes_movesCursor k s.opd.toNat s
    cases hread : rdBytes k s.opd.toNat s with
    | ok v u => rw [hread] at hmoves; exact hmoves.readBytesKeeps_setXb _
    | raised u => rw [hread] at hmoves; exact hmoves.readBytesKeeps

/-! ### The whole commands -/

/-- R39's row of `PAL_BUILD`. -/
def PaletteKeeps (s t : State) : Prop :=
  t = { s with si := t.si, pal := t.pal, tally := t.tally, fk := t.fk, info := t.info }

theorem palBuild_paletteKeeps (s : State) : PaletteKeeps s (palBuild s).state := by
  unfold palBuild
  split <;> rfl

/-- R39's row of `RLE_DECODE`: the streams keep their bytes. -/
def RunKeeps (s t : State) : Prop :=
  t = { s with
    ch := { t.ch with buf := s.ch.buf }, cn := { t.cn with buf := s.cn.buf }, ct := { t.ct with buf := s.ct.buf }
    bd := { t.bd with buf := s.bd.buf }, out := t.out, ri := t.ri, nf := t.nf, fk := t.fk, info := t.info }

theorem RunKeeps.same (s : State) : RunKeeps s s := rfl

theorem RunKeeps.trans {s t u : State} (h : RunKeeps s t) (g : RunKeeps t u) : RunKeeps s u := by
  unfold RunKeeps at *
  rw [h] at g
  exact g

theorem MovesCursor.runKeeps {k : CurId} (hk : k ≠ .fr) {s t : State} (h : MovesCursor k s t) : RunKeeps s t := by
  obtain ⟨byte, bit, fk, info, rfl⟩ := h
  cases k with
  | fr => exact absurd rfl hk
  | _ => rfl

/-- The record step stays within R39's row of `RLE_DECODE`. -/
theorem RunKeeps.keptByRecords (s : State) : KeptByRecords (RunKeeps s) where
  read _ _ _ hk h := h.trans ((rdBits_movesCursor _ _ _).runKeeps hk)
  out _ _ h := h.trans rfl
  setNf _ h := h.trans rfl
  setRi _ _ h := h.trans rfl
  fault _ _ _ _ h := h.trans rfl

theorem rleDecode_runKeeps (s : State) : RunKeeps s (rleDecode s).state := by
  have hstart : RunKeeps s (decodeStart s) := rfl
  refine Res.bind_keeps (RunKeeps s) _ _ ((RunKeeps.keptByRecords s).decodeLoop _ hstart) fun _ t _ ht => ?_
  unfold decodeEnd
  split
  · exact ht.trans rfl
  · exact ht

/-- R39's row of `TAL_SERIALIZE`. -/
def SerializeKeeps (s t : State) : Prop :=
  t = { s with fr := t.fr, lch := t.lch, lcn := t.lcn, lct := t.lct, fk := t.fk, info := t.info }

theorem SerializeKeeps.trans {s t u : State} (h : SerializeKeeps s t) (g : SerializeKeeps t u) :
    SerializeKeeps s u := by
  unfold SerializeKeeps at *
  rw [h] at g
  exact g

theorem wrSeq_serializeKeeps (cw : Word) (bits : List Bool) (s : State) :
    SerializeKeeps s (wrSeq cw .fr bits s).state := by
  unfold wrSeq
  split <;> rfl

theorem talSerialize_serializeKeeps (cw : Word) (s : State) : SerializeKeeps s (talSerialize cw s).state := by
  have hopen : SerializeKeeps s (openW .fr s) := rfl
  have hlengths : ∀ t : State, SerializeKeeps t t.setLengths := fun _ => rfl
  unfold talSerialize
  split_ifs
  · rfl
  · rfl
  · rfl
  · rfl
  · exact Res.bind_keeps (SerializeKeeps s) _ _ (hopen.trans (wrSeq_serializeKeeps cw _ _)) fun _ t _ ht =>
      ht.trans ((hlengths t).trans (wrSeq_serializeKeeps cw _ _))

/-- R39's row of `TAL_PARSE`: the container keeps its bytes. -/
def ParseKeeps (s t : State) : Prop :=
  t = { s with
    ch := t.ch, cn := t.cn, ct := t.ct, bd := t.bd, fr := { t.fr with buf := s.fr.buf }, w := t.w, h := t.h
    pal := t.pal, sc := t.sc, lch := t.lch, lcn := t.lcn, lct := t.lct, fk := t.fk, info := t.info }

theorem talParse_parseKeeps (s : State) : ParseKeeps s (talParse s).state := by
  unfold talParse
  dsimp only
  split_ifs <;> rfl

/-! ### The pipelines (R250, R251) -/

/-- R39's row of `TAL_ENCODE`: the rows of its three stages together. -/
def TalEncodeKeeps (s t : State) : Prop :=
  t = { s with
    ch := t.ch, cn := t.cn, ct := t.ct, bd := t.bd, fr := t.fr, si := t.si, cc := t.cc, rl := t.rl
    pal := t.pal, tally := t.tally, sc := t.sc, lch := t.lch, lcn := t.lcn, lct := t.lct
    nf := t.nf, fk := t.fk, info := t.info }

theorem TalEncodeKeeps.trans {s t u : State} (h : TalEncodeKeeps s t) (g : TalEncodeKeeps t u) :
    TalEncodeKeeps s u := by
  unfold TalEncodeKeeps at *
  rw [h] at g
  exact g

theorem PaletteKeeps.talEncodeKeeps {s t : State} (h : PaletteKeeps s t) : TalEncodeKeeps s t := by
  rw [h]; rfl

theorem EncodeKeeps.talEncodeKeeps {s t : State} (h : EncodeKeeps s t) : TalEncodeKeeps s t := by
  rw [h]; rfl

theorem SerializeKeeps.talEncodeKeeps {s t : State} (h : SerializeKeeps s t) : TalEncodeKeeps s t := by
  rw [h]; rfl

theorem talEncode_talEncodeKeeps (cw : Word) (s : State) : TalEncodeKeeps s (talEncode cw s).state := by
  have hnf : TalEncodeKeeps s { s with nf := false } := rfl
  unfold talEncode
  split_ifs
  · rfl
  · rfl
  · rfl
  · refine Res.bind_keeps (TalEncodeKeeps s) _ _ (hnf.trans (palBuild_paletteKeeps _).talEncodeKeeps) fun _ t _ ht => ?_
    exact Res.bind_keeps (TalEncodeKeeps s) _ _ (ht.trans (rleEncode_encodeKeeps cw t).talEncodeKeeps) fun _ u _ hu =>
      hu.trans (talSerialize_serializeKeeps cw u).talEncodeKeeps

/-- R39's row of `TAL_DECODE`: the rows of its two stages together. -/
def TalDecodeKeeps (s t : State) : Prop :=
  t = { s with
    ch := t.ch, cn := t.cn, ct := t.ct, bd := t.bd, fr := { t.fr with buf := s.fr.buf }, w := t.w, h := t.h
    out := t.out, ri := t.ri, pal := t.pal, sc := t.sc, lch := t.lch, lcn := t.lcn, lct := t.lct
    nf := t.nf, fk := t.fk, info := t.info }

theorem TalDecodeKeeps.trans {s t u : State} (h : TalDecodeKeeps s t) (g : TalDecodeKeeps t u) :
    TalDecodeKeeps s u := by
  unfold TalDecodeKeeps at *
  rw [h] at g
  exact g

theorem ParseKeeps.talDecodeKeeps {s t : State} (h : ParseKeeps s t) : TalDecodeKeeps s t := by
  rw [h]; rfl

theorem RunKeeps.talDecodeKeeps {s t : State} (h : RunKeeps s t) : TalDecodeKeeps s t := by
  rw [h]; rfl

theorem talDecode_talDecodeKeeps (s : State) : TalDecodeKeeps s (talDecode s).state := by
  have hnf : TalDecodeKeeps s { s with nf := false } := rfl
  exact Res.bind_keeps (TalDecodeKeeps s) _ _ (hnf.trans (talParse_parseKeeps _).talDecodeKeeps) fun _ t _ ht =>
    ht.trans (rleDecode_runKeeps t).talDecodeKeeps

/-! ### Every row of the table -/

/-- A command leaves what its body leaves, or the state as it was. -/
theorem command_frame (P : State → Prop) {body : State → Res Unit} {s t : State} (h : command body s = .next t)
    (hsame : P s) (hbody : P (body s).state) : P t := by
  rcases command_inv h with rfl | ⟨-, rfl⟩
  · exact hsame
  · exact hbody

theorem execPalBuild_paletteKeeps {s t : State} (h : execPalBuild s = .next t) : PaletteKeeps s t := by
  refine command_frame (PaletteKeeps s) h rfl ?_
  split
  · rfl
  · exact palBuild_paletteKeeps s

theorem execRleDecode_runKeeps {s t : State} (h : execRleDecode s = .next t) : RunKeeps s t :=
  command_frame (RunKeeps s) h rfl (rleDecode_runKeeps s)

/-- Settles O53, row by row of R39's table. -/
theorem commandsWriteOnlyTheirState : Obligations.CommandsWriteOnlyTheirState := by
  intro s t
  refine ⟨fun i k hi h => ?_, fun k h => rdbytes_readBytesKeeps h, fun h => execPalBuild_paletteKeeps h, fun h => ?_,
    fun h => execRleDecode_runKeeps h, fun h => ?_, fun h => ?_, fun h => ?_, fun h => ?_⟩
  · show ReadKeeps k s t
    rcases hi with rfl | ⟨n, rfl⟩ | rfl
    · exact readCommand_readKeeps (n := 1) h
    · exact readCommand_readKeeps (n := n.toNat) h
    · exact readCommand_readKeeps (n := 8) h
  · exact command_frame (EncodeKeeps s) h rfl (rleEncode_encodeKeeps _ s)
  · exact command_frame (SerializeKeeps s) h rfl (talSerialize_serializeKeeps _ s)
  · exact command_frame (ParseKeeps s) h rfl (talParse_parseKeeps s)
  · exact command_frame (TalEncodeKeeps s) h rfl (talEncode_talEncodeKeeps _ s)
  · exact command_frame (TalDecodeKeeps s) h rfl (talDecode_talDecodeKeeps s)

/-! ### The reading instructions (R74, R82) -/

/-- The five buffers hold the same bytes. -/
def SameBytes (s t : State) : Prop := ∀ k, (t.cur k).buf = (s.cur k).buf

theorem ReadKeeps.sameBytes {k : CurId} {s t : State} (h : ReadKeeps k s t) : SameBytes s t := by
  intro j
  rw [h]
  cases k <;> cases j <;> rfl

theorem ReadBytesKeeps.sameBytes {k : CurId} {s t : State} (h : ReadBytesKeeps k s t) : SameBytes s t := by
  intro j
  rw [h]
  cases k <;> cases j <;> rfl

theorem PaletteKeeps.sameBytes {s t : State} (h : PaletteKeeps s t) : SameBytes s t := by
  intro j
  rw [h]
  cases j <;> rfl

theorem RunKeeps.sameBytes {s t : State} (h : RunKeeps s t) : SameBytes s t := by
  intro j
  rw [h]
  cases j <;> rfl

theorem openR_sameBytes (k : CurId) (s : State) : SameBytes s (openR k s) := by
  intro j
  cases k <;> cases j <;> rfl

/-- Settles O26: each reading instruction stays within a row of R39's table that lists no buffer. -/
theorem readsLeaveBuffersAlone : Obligations.ReadsLeaveBuffersAlone := by
  intro i s t hi h j a
  suffices hsame : SameBytes s t by rw [State.readByte, State.readByte, hsame j]
  cases i with
  | curOpenR k =>
    exact command_frame (SameBytes s) (body := fun s => .ok () (openR k s)) h (fun _ => rfl) (openR_sameBytes k s)
  | rdbit k => exact (readCommand_readKeeps (n := 1) h).sameBytes
  | rdbits k n => exact (readCommand_readKeeps (n := n.toNat) h).sameBytes
  | rdbyte k => exact (readCommand_readKeeps (n := 8) h).sameBytes
  | rdbytes k => exact (rdbytes_readBytesKeeps h).sameBytes
  | palBuild => exact (execPalBuild_paletteKeeps h).sameBytes
  | rleDecode => exact (execRleDecode_runKeeps h).sameBytes
  | stT1 | stTR | stF1 | stFR | stP1 | stPR => exact ((RunKeeps.keptByRecords s).exec rfl (.same s) h).sameBytes
  | _ => cases hi

end Sys2Proof.Machine

/-! The command words of R90 to R95: a word is its five fields, a row of R93 is an opcode with an operand shape, and decoding
and encoding go through the two. -/

namespace Sys2Proof

/-! ### A word and its fields (R90) -/

/-- Bits above the lower part of an `++` are bits of the upper part. -/
theorem extractLsb'_append_above {m n : Nat} (x : BitVec m) (y : BitVec n) (start len : Nat) :
    (x ++ y).extractLsb' (n + start) len = x.extractLsb' start len := by
  rw [BitVec.extractLsb'_append_eq_of_le (Nat.le_add_right n start), Nat.add_sub_cancel_left]

/-- A 32-bit word from all five fields of R90. -/
def wordOf (op : BitVec 8) (k : BitVec 3) (nb : BitVec 6) (rsv : BitVec 7) (imm : BitVec 8) : Word :=
  op ++ k ++ nb ++ rsv ++ imm

theorem commandWord_eq_wordOf (op : BitVec 8) (k : BitVec 3) (nb : BitVec 6) (imm : BitVec 8) :
    commandWord op k nb imm = wordOf op k nb 0#7 imm := rfl

section
variable (op : BitVec 8) (k : BitVec 3) (nb : BitVec 6) (rsv : BitVec 7) (imm : BitVec 8)

@[simp] theorem wordOf_op : (wordOf op k nb rsv imm).extractLsb' 24 8 = op :=
  calc (wordOf op k nb rsv imm).extractLsb' 24 8
    _ = (op ++ k ++ nb ++ rsv).extractLsb' 16 8 := extractLsb'_append_above _ imm 16 8
    _ = (op ++ k ++ nb).extractLsb' 9 8 := extractLsb'_append_above _ rsv 9 8
    _ = (op ++ k).extractLsb' 3 8 := extractLsb'_append_above _ nb 3 8
    _ = op := BitVec.extractLsb'_append_eq_left

@[simp] theorem wordOf_k : (wordOf op k nb rsv imm).extractLsb' 21 3 = k :=
  calc (wordOf op k nb rsv imm).extractLsb' 21 3
    _ = (op ++ k ++ nb ++ rsv).extractLsb' 13 3 := extractLsb'_append_above _ imm 13 3
    _ = (op ++ k ++ nb).extractLsb' 6 3 := extractLsb'_append_above _ rsv 6 3
    _ = (op ++ k).extractLsb' 0 3 := extractLsb'_append_above _ nb 0 3
    _ = k := BitVec.extractLsb'_append_eq_right

@[simp] theorem wordOf_nb : (wordOf op k nb rsv imm).extractLsb' 15 6 = nb :=
  (extractLsb'_append_above _ imm 7 6).trans ((extractLsb'_append_above _ rsv 0 6).trans BitVec.extractLsb'_append_eq_right)

@[simp] theorem wordOf_rsv : (wordOf op k nb rsv imm).extractLsb' 8 7 = rsv :=
  (extractLsb'_append_above _ imm 0 7).trans BitVec.extractLsb'_append_eq_right

@[simp] theorem wordOf_imm : (wordOf op k nb rsv imm).extractLsb' 0 8 = imm :=
  BitVec.extractLsb'_append_eq_right

end

/-- Every word is the word of its fields. -/
theorem wordOf_fields (w : Word) :
    wordOf (w.extractLsb' 24 8) (w.extractLsb' 21 3) (w.extractLsb' 15 6) (w.extractLsb' 8 7) (w.extractLsb' 0 8) = w := by
  unfold wordOf
  rw [BitVec.extractLsb'_append_extractLsb'_eq_extractLsb' (by decide),
    BitVec.extractLsb'_append_extractLsb'_eq_extractLsb' (by decide),
    BitVec.extractLsb'_append_extractLsb'_eq_extractLsb' (by decide),
    BitVec.extractLsb'_append_extractLsb'_eq_extractLsb' (by decide)]
  exact BitVec.extractLsb'_eq_self

theorem wordOf_eq_iff {op op' : BitVec 8} {k k' : BitVec 3} {nb nb' : BitVec 6} {rsv rsv' : BitVec 7}
    {imm imm' : BitVec 8} : wordOf op k nb rsv imm = wordOf op' k' nb' rsv' imm' ↔
      op = op' ∧ k = k' ∧ nb = nb' ∧ rsv = rsv' ∧ imm = imm' := by
  refine ⟨fun h => ?_, by rintro ⟨rfl, rfl, rfl, rfl, rfl⟩; rfl⟩
  have field : ∀ a n, (wordOf op k nb rsv imm).extractLsb' a n = (wordOf op' k' nb' rsv' imm').extractLsb' a n :=
    fun a n => by rw [h]
  exact ⟨by simpa using field 24 8, by simpa using field 21 3, by simpa using field 15 6, by simpa using field 8 7,
    by simpa using field 0 8⟩

/-- Masking a word masks each field. -/
theorem wordOf_and (op op' : BitVec 8) (k k' : BitVec 3) (nb nb' : BitVec 6) (rsv rsv' : BitVec 7)
    (imm imm' : BitVec 8) : wordOf op k nb rsv imm &&& wordOf op' k' nb' rsv' imm' =
      wordOf (op &&& op') (k &&& k') (nb &&& nb') (rsv &&& rsv') (imm &&& imm') := by
  ext i hi
  simp only [wordOf, BitVec.getElem_and, BitVec.getElem_append]
  grind

/-! ### Contexts and operand shapes (R91, R92) -/

theorem CurId.ofField_eq_some_iff {f : BitVec 3} {k : CurId} : CurId.ofField f = some k ↔ f = k.field := by
  cases k <;> revert f <;> decide

/-- The `K` fields that name a context are 0 to 4 (R92). -/
theorem CurId.exists_field_iff {f : BitVec 3} : (∃ k : CurId, f = k.field) ↔ f.toNat ≤ 4 := by
  have hsome : ∀ f : BitVec 3, (CurId.ofField f).isSome = true ↔ f.toNat ≤ 4 := by decide
  rw [← hsome, Option.isSome_iff_exists]
  simp only [CurId.ofField_eq_some_iff]

theorem withContext_ok_iff {f : BitVec 3} {mk : CurId → Instr} {i : Instr} :
    withContext f mk = .ok i ↔ ∃ k : CurId, f = k.field ∧ mk k = i := by
  simp only [← CurId.ofField_eq_some_iff, withContext]
  cases CurId.ofField f <;> simp

@[simp] theorem withContext_field (k : CurId) (mk : CurId → Instr) : withContext k.field mk = .ok (mk k) :=
  withContext_ok_iff.2 ⟨k, rfl, rfl⟩

/-- The operands of a shape, read from the fields `K`, `NB` and `IMM8` (R91, R92). -/
def Shape.operands (k : BitVec 3) (nb : BitVec 6) (imm : BitVec 8) : Shape → Except DecodeError Instr
  | .plain i => if k = 0#3 ∧ nb = 0#6 ∧ imm = 0#8 then .ok i else .error .unusedFieldSet
  | .ctx mk => if nb = 0#6 ∧ imm = 0#8 then withContext k mk else .error .unusedFieldSet
  | .ctxCount mk =>
    if imm ≠ 0#8 then .error .unusedFieldSet
    else if 32 < nb.toNat then .error .bitCountOutOfRange
    else withContext k (fun c => mk c nb)
  | .ctxBit mk =>
    if nb ≠ 0#6 then .error .unusedFieldSet
    else if 1 < imm.toNat then .error .bitValueOutOfRange
    else withContext k (fun c => mk c (imm.getLsbD 0))
  | .ctxByte mk => if nb ≠ 0#6 then .error .unusedFieldSet else withContext k (fun c => mk c imm)

/-- The decoder on a word given by its fields (R90 to R94). -/
theorem decodeCommand_wordOf (op : BitVec 8) (k : BitVec 3) (nb : BitVec 6) (rsv : BitVec 7) (imm : BitVec 8) :
    decodeCommand (wordOf op k nb rsv imm) =
      match opcodeShape op with
      | none => .error .reservedOpcode
      | some shape => if rsv ≠ 0#7 then .error .reservedFieldSet else shape.operands k nb imm := by
  simp only [decodeCommand, wordOf_op, wordOf_k, wordOf_nb, wordOf_rsv, wordOf_imm]
  cases opcodeShape op with
  | none => rfl
  | some shape => cases shape <;> rfl

theorem decodeCommand_of_shape {op : BitVec 8} {shape : Shape} (h : opcodeShape op = some shape)
    (k : BitVec 3) (nb : BitVec 6) (imm : BitVec 8) :
    decodeCommand (commandWord op k nb imm) = shape.operands k nb imm := by
  rw [commandWord_eq_wordOf, decodeCommand_wordOf, h]
  rfl

/-- The fields `K`, `NB` and `IMM8` are ones the shape admits (R92). -/
def Shape.admits (k : BitVec 3) (nb : BitVec 6) (imm : BitVec 8) : Shape → Prop
  | .plain _ => k = 0#3 ∧ nb = 0#6 ∧ imm = 0#8
  | .ctx _ => k.toNat ≤ 4 ∧ nb = 0#6 ∧ imm = 0#8
  | .ctxCount _ => k.toNat ≤ 4 ∧ nb.toNat ≤ 32 ∧ imm = 0#8
  | .ctxBit _ => k.toNat ≤ 4 ∧ nb = 0#6 ∧ imm.toNat ≤ 1
  | .ctxByte _ => k.toNat ≤ 4 ∧ nb = 0#6

/-- `encode` writes the instructions of a shape with the opcode `op`, and they are well-formed where `NB` is in range
(R92, R93). -/
def Shape.encodedWith (op : BitVec 8) : Shape → Prop
  | .plain i => encode i = .command (commandWord op 0#3 0#6 0#8) ∧ i.wellFormed = true
  | .ctx mk => ∀ k, encode (mk k) = .command (commandWord op k.field 0#6 0#8) ∧ (mk k).wellFormed = true
  | .ctxCount mk => ∀ k n, encode (mk k n) = .command (commandWord op k.field n 0#8) ∧
      (n.toNat ≤ 32 → (mk k n).wellFormed = true)
  | .ctxBit mk => ∀ k v, encode (mk k v) = .command (commandWord op k.field 0#6 (if v then 1#8 else 0#8)) ∧
      (mk k v).wellFormed = true
  | .ctxByte mk => ∀ k b, encode (mk k b) = .command (commandWord op k.field 0#6 b) ∧ (mk k b).wellFormed = true

/-- The opcode map of the decoder is the encoder's, row by row (R93). -/
theorem opcodeShape_encodedWith {op : BitVec 8} {shape : Shape} (h : opcodeShape op = some shape) :
    shape.encodedWith op := by
  have hnum : op = BitVec.ofNat 8 op.toNat := by simp
  unfold opcodeShape at h
  split at h <;> rename_i hop <;> cases h <;> rw [hop] at hnum <;> subst hnum <;>
    simp [Shape.encodedWith, encode, Instr.wellFormed]

/-- A shape has operands exactly at the fields it admits. -/
theorem Shape.operands_ok_iff_admits {shape : Shape} {k : BitVec 3} {nb : BitVec 6} {imm : BitVec 8} :
    (∃ i, shape.operands k nb imm = .ok i) ↔ shape.admits k nb imm := by
  cases shape with
  | plain i =>
    simp only [Shape.operands, Shape.admits]
    split <;> simp_all
  | ctx mk | ctxCount mk | ctxBit mk | ctxByte mk =>
    simp only [Shape.operands, Shape.admits, ← CurId.exists_field_iff]
    split_ifs <;> simp_all [withContext_ok_iff]

/-- The one bit of `IMM8` that `WRBIT` uses, when the others are 0 (R92). -/
theorem imm_of_bit {imm : BitVec 8} (h : imm.toNat ≤ 1) : (if imm.getLsbD 0 then 1#8 else 0#8) = imm := by
  revert imm
  decide

/-- Reading a shape's operands and encoding what they build gives the fields back (R92, R93). -/
theorem Shape.encode_operands {op : BitVec 8} {shape : Shape} (hop : shape.encodedWith op) {k : BitVec 3} {nb : BitVec 6}
    {imm : BitVec 8} {i : Instr} (h : shape.operands k nb imm = .ok i) :
    encode i = .command (commandWord op k nb imm) ∧ i.wellFormed = true := by
  cases shape with
  | plain j =>
    simp only [Shape.operands] at h
    split_ifs at h with hfields
    obtain ⟨rfl, rfl, rfl⟩ := hfields
    cases h
    exact hop
  | ctx mk =>
    simp only [Shape.operands] at h
    split_ifs at h with hfields
    obtain ⟨rfl, rfl⟩ := hfields
    obtain ⟨c, rfl, rfl⟩ := withContext_ok_iff.1 h
    exact hop c
  | ctxCount mk =>
    simp only [Shape.operands] at h
    split_ifs at h with himm hnb
    obtain rfl := not_not.1 himm
    obtain ⟨c, rfl, rfl⟩ := withContext_ok_iff.1 h
    exact ⟨(hop c nb).1, (hop c nb).2 (not_lt.1 hnb)⟩
  | ctxBit mk =>
    simp only [Shape.operands] at h
    split_ifs at h with hnb himm
    obtain rfl := not_not.1 hnb
    obtain ⟨c, rfl, rfl⟩ := withContext_ok_iff.1 h
    have hcode := hop c (imm.getLsbD 0)
    rwa [imm_of_bit (not_lt.1 himm)] at hcode
  | ctxByte mk =>
    simp only [Shape.operands] at h
    split_ifs at h with hnb
    obtain rfl := not_not.1 hnb
    obtain ⟨c, rfl, rfl⟩ := withContext_ok_iff.1 h
    exact hop c imm

/-- A word decodes exactly when its opcode has a shape, `RSV` is 0 and the shape admits its other fields (R92 to R94). -/
theorem decodeCommand_ok_iff_admits {op : BitVec 8} {k : BitVec 3} {nb : BitVec 6} {rsv : BitVec 7} {imm : BitVec 8} :
    (∃ i, decodeCommand (wordOf op k nb rsv imm) = .ok i) ↔
      ∃ shape, opcodeShape op = some shape ∧ rsv = 0#7 ∧ shape.admits k nb imm := by
  rw [decodeCommand_wordOf]
  cases opcodeShape op with
  | none => simp
  | some shape =>
    simp only [← Shape.operands_ok_iff_admits]
    split_ifs with hrsv <;> simp_all

/-- What a word decodes to is well-formed and encodes to that word. -/
theorem encode_of_decodeCommand {w : Word} {i : Instr} (h : decodeCommand w = .ok i) :
    encode i = .command w ∧ i.wellFormed = true := by
  rw [← wordOf_fields w] at h ⊢
  rw [decodeCommand_wordOf] at h
  split at h
  · cases h
  · rename_i shape hshape
    split_ifs at h with hrsv
    rw [not_not.1 hrsv]
    exact Shape.encode_operands (opcodeShape_encodedWith hshape) h

/-! ### Decoding an encoded command (R90 to R93) -/

section
variable {op : BitVec 8}

theorem decode_plain {i : Instr} (h : opcodeShape op = some (.plain i)) :
    decode (.command (commandWord op 0#3 0#6 0#8)) = .ok i :=
  decodeCommand_of_shape h _ _ _

theorem decode_ctx {mk : CurId → Instr} (h : opcodeShape op = some (.ctx mk)) (k : CurId) :
    decode (.command (commandWord op k.field 0#6 0#8)) = .ok (mk k) := by
  rw [decode, decodeCommand_of_shape h, Shape.operands, if_pos ⟨rfl, rfl⟩, withContext_field]

theorem decode_ctxCount {mk : CurId → BitVec 6 → Instr} (h : opcodeShape op = some (.ctxCount mk)) (k : CurId)
    {n : BitVec 6} (hn : n.toNat ≤ 32) : decode (.command (commandWord op k.field n 0#8)) = .ok (mk k n) := by
  rw [decode, decodeCommand_of_shape h, Shape.operands, if_neg (not_not.2 rfl), if_neg (not_lt.2 hn), withContext_field]

theorem decode_ctxBit {mk : CurId → Bool → Instr} (h : opcodeShape op = some (.ctxBit mk)) (k : CurId) (v : Bool) :
    decode (.command (commandWord op k.field 0#6 (if v then 1#8 else 0#8))) = .ok (mk k v) := by
  rw [decode, decodeCommand_of_shape h, Shape.operands, if_neg (not_not.2 rfl)]
  cases v
  · exact withContext_field k _
  · exact withContext_field k _

theorem decode_ctxByte {mk : CurId → Byte → Instr} (h : opcodeShape op = some (.ctxByte mk)) (k : CurId) (b : Byte) :
    decode (.command (commandWord op k.field 0#6 b)) = .ok (mk k b) := by
  rw [decode, decodeCommand_of_shape h, Shape.operands, if_neg (not_not.2 rfl), withContext_field]

end

/-! ### Decoding an encoded record (R100 to R102) -/

theorem ofNat_valOf_bitsOf {n : Nat} (v : BitVec n) : BitVec.ofNat n (valOf (bitsOf n v.toNat)) = v := by
  rw [valOf_bitsOf, Nat.mod_eq_of_lt v.isLt, BitVec.ofNat_toNat, BitVec.setWidth_eq]

theorem bitsOf_ofNat_valOf {n : Nat} {l : List Bool} (h : l.length = n) :
    bitsOf n (BitVec.ofNat n (valOf l)).toNat = l := by
  subst h
  rw [Machine.bitsOf_ofNat _ _ _ le_rfl, bitsOf_valOf]

/-- A body of one payload gives it back. -/
theorem decode_record_payload {n : Nat} (v : BitVec n) {mk : BitVec n → Instr} {c m : Bool} {f : Option Bool}
    (h : ∀ bd : List Bool, bd.length = n → decodeRecord ⟨c, m, f, bd⟩ = .ok (mk (BitVec.ofNat n (valOf bd)))) :
    decode (.record ⟨c, m, f, bitsOf n v.toNat⟩) = .ok (mk v) := by
  rw [decode, h _ (bitsOf_length n _), ofNat_valOf_bitsOf]

/-- A body of a length payload and an index gives both back. -/
theorem decode_record_payloads {n : Nat} (l : BitVec 8) (v : BitVec n) {mk : BitVec 8 → BitVec n → Instr} {c m : Bool}
    {f : Option Bool}
    (h : ∀ bd : List Bool, bd.length = 8 + n → decodeRecord ⟨c, m, f, bd⟩ =
      .ok (mk (BitVec.ofNat 8 (valOf (bd.take 8))) (BitVec.ofNat n (valOf (bd.drop 8))))) :
    decode (.record ⟨c, m, f, bitsOf 8 l.toNat ++ bitsOf n v.toNat⟩) = .ok (mk l v) := by
  rw [decode, h _ (by simp), List.take_left' (bitsOf_length 8 _), List.drop_left' (bitsOf_length 8 _),
    ofNat_valOf_bitsOf, ofNat_valOf_bitsOf]

/-- Settles O1: every command through its opcode's shape, every record through its payloads. -/
theorem decodeUndoesEncode : Obligations.DecodeUndoesEncode := by
  intro i hwf
  cases i with
  | reset | palBuild | rleEncode | rleDecode | talSerialize | talParse | talEncode | talDecode => exact decode_plain rfl
  | curOpenR k | curOpenW k | rdbit k | rdbyte k | rdbytes k | wrbytes k => exact decode_ctx rfl k
  | rdbits k n | wrbits k n => exact decode_ctxCount rfl k (of_decide_eq_true hwf)
  | wrbit k v => exact decode_ctxBit rfl k v
  | wrbyte k b => exact decode_ctxByte rfl k b
  | stT1 => rfl
  | stTR l | stF1 l | stP1 l => exact decode_record_payload l fun _ hlen => if_pos hlen
  | stFR l v | stPR l v => exact decode_record_payloads l v fun _ hlen => if_pos hlen

/-! ### Every record pattern (R105, R106) -/

/-- A body of a length payload and an index, written out again. -/
theorem bitsOf_payloads {n : Nat} {bd : List Bool} (h : bd.length = 8 + n) :
    bitsOf 8 (BitVec.ofNat 8 (valOf (bd.take 8))).toNat ++ bitsOf n (BitVec.ofNat n (valOf (bd.drop 8))).toNat = bd := by
  rw [bitsOf_ofNat_valOf (by rw [List.length_take, h]; omega), bitsOf_ofNat_valOf (by rw [List.length_drop, h]; omega),
    List.take_append_drop]

/-- A record's colour-type bit stands exactly when it is coloured, and its body has the width of R105. -/
def RecordBits.shaped (r : RecordBits) : Prop :=
  r.ct.isSome = r.ch ∧ r.bd.length = Machine.recordBodyBits r.ch r.cn (r.ct.getD false)

theorem decodeRecord_of_shaped {r : RecordBits} (h : r.shaped) : ∃ i, decodeRecord r = .ok i := by
  obtain ⟨ch, cn, ct, bd⟩ := r
  obtain ⟨hct, hbd⟩ := h
  cases ch with
  | false =>
    obtain rfl : ct = none := by simpa using hct
    cases cn
    · exact ⟨_, if_pos hbd⟩
    · exact ⟨_, if_pos hbd⟩
  | true =>
    obtain ⟨f, rfl⟩ : ∃ f, ct = some f := Option.isSome_iff_exists.1 hct
    cases cn <;> cases f
    · exact ⟨_, if_pos hbd⟩
    · exact ⟨_, if_pos hbd⟩
    · exact ⟨_, if_pos hbd⟩
    · exact ⟨_, if_pos hbd⟩

/-- What record bits decode to encodes back to them. -/
theorem encode_of_decodeRecord {r : RecordBits} {i : Instr} (h : decodeRecord r = .ok i) : encode i = .record r := by
  obtain ⟨ch, cn, ct, bd⟩ := r
  unfold decodeRecord at h
  dsimp only at h
  split at h
  · split_ifs at h with hbd
    cases h
    rw [List.eq_nil_of_length_eq_zero hbd]
    rfl
  · split_ifs at h with hbd
    cases h
    rw [encode, bitsOf_ofNat_valOf hbd]
  · split_ifs at h with hbd
    cases h
    rw [encode, bitsOf_ofNat_valOf hbd]
  · split_ifs at h with hbd
    cases h
    rw [encode, bitsOf_payloads hbd]
  · split_ifs at h with hbd
    cases h
    rw [encode, bitsOf_ofNat_valOf hbd]
  · split_ifs at h with hbd
    cases h
    rw [encode, bitsOf_payloads hbd]
  · cases h
  · cases h

/-- An instruction encoded as a record has the shape of R105. -/
theorem shaped_of_encode {r : RecordBits} {i : Instr} (h : encode i = .record r) : r.shaped := by
  cases i with
  | stT1 | stTR | stF1 | stFR | stP1 | stPR => cases h; exact ⟨rfl, by
      simp [Machine.recordBodyBits, Config.lenBits, Config.favIdxBits, Config.palIdxBits]⟩
  | _ => cases h

/-- Settles O3: decoding the six forms and encoding them are inverse (R101). -/
theorem recordFormsDecodeUniquely : Obligations.RecordFormsDecodeUniquely := by
  refine fun r => ⟨fun hct hbd => decodeRecord_of_shaped ⟨hct, hbd⟩, fun i h => ?_⟩
  have hcode := encode_of_decodeRecord h
  exact ⟨hcode, shaped_of_encode hcode⟩

/-! ### Every command word (R93, R95) -/

/-- The mask of a shape's rows in R93: all ones in `OP`, `RSV` and the fields the shape does not use. -/
def Shape.mask : Shape → Word
  | .plain _ => wordOf 0xFF#8 0x7#3 0x3F#6 0x7F#7 0xFF#8
  | .ctx _ => wordOf 0xFF#8 0x0#3 0x3F#6 0x7F#7 0xFF#8
  | .ctxCount _ => wordOf 0xFF#8 0x0#3 0x0#6 0x7F#7 0xFF#8
  | .ctxBit _ => wordOf 0xFF#8 0x0#3 0x3F#6 0x7F#7 0xFE#8
  | .ctxByte _ => wordOf 0xFF#8 0x0#3 0x3F#6 0x7F#7 0x00#8

/-- The row of R93 for an opcode and its shape. -/
def rowOf (op : BitVec 8) (shape : Shape) : Word × Word := (wordOf op 0#3 0#6 0#7 0#8, shape.mask)

/-- R93's table and the opcode map list the same rows. -/
theorem mem_commandRows_iff {row : Word × Word} :
    row ∈ Machine.commandRows ↔ ∃ op shape, opcodeShape op = some shape ∧ row = rowOf op shape := by
  constructor
  · intro hrow
    have hmap : (opcodeShape (row.1.extractLsb' 24 8)).map (rowOf (row.1.extractLsb' 24 8)) = some row := by
      fin_cases hrow <;> rfl
    obtain ⟨shape, hshape, heq⟩ := Option.map_eq_some_iff.1 hmap
    exact ⟨_, shape, hshape, heq.symm⟩
  · rintro ⟨op, shape, hshape, rfl⟩
    have hnum : op = BitVec.ofNat 8 op.toNat := by simp
    unfold opcodeShape at hshape
    split at hshape <;> rename_i hop <;> cases hshape <;> rw [hop] at hnum <;> subst hnum <;>
      decide

/-- The fields a shape does not use are 0 (R92). -/
def Shape.unusedZero (k : BitVec 3) (nb : BitVec 6) (imm : BitVec 8) : Shape → Prop
  | .plain _ => k = 0#3 ∧ nb = 0#6 ∧ imm = 0#8
  | .ctx _ => nb = 0#6 ∧ imm = 0#8
  | .ctxCount _ => imm = 0#8
  | .ctxBit _ => nb = 0#6 ∧ imm.toNat ≤ 1
  | .ctxByte _ => nb = 0#6

/-- A word selects a row when it has the row's opcode and every field the row does not use is 0 (R93). -/
theorem selects_rowOf {op op' : BitVec 8} {k : BitVec 3} {nb : BitVec 6} {rsv : BitVec 7} {imm : BitVec 8} {shape : Shape} :
    Machine.selects (wordOf op k nb rsv imm) (rowOf op' shape) = true ↔
      op = op' ∧ rsv = 0#7 ∧ shape.unusedZero k nb imm := by
  have himm : imm &&& 0xFE#8 = 0#8 ↔ imm.toNat ≤ 1 := by revert imm; decide
  have hop : op &&& 0xFF#8 = op := BitVec.and_allOnes
  have hk : k &&& 0x7#3 = k := BitVec.and_allOnes
  have hnb : nb &&& 0x3F#6 = nb := BitVec.and_allOnes
  have hrsv : rsv &&& 0x7F#7 = rsv := BitVec.and_allOnes
  have himm' : imm &&& 0xFF#8 = imm := BitVec.and_allOnes
  rw [Machine.selects, decide_eq_true_iff, rowOf]
  cases shape <;> simp only [Shape.mask, Shape.unusedZero, wordOf_and, wordOf_eq_iff, himm, hop, hk, hnb, hrsv, himm',
    BitVec.and_zero] <;> tauto

/-- A word selects a row of R93 exactly when its opcode has a shape and the unused fields are 0. -/
theorem any_selects_iff {op : BitVec 8} {k : BitVec 3} {nb : BitVec 6} {rsv : BitVec 7} {imm : BitVec 8} :
    Machine.commandRows.any (Machine.selects (wordOf op k nb rsv imm)) = true ↔
      ∃ shape, opcodeShape op = some shape ∧ rsv = 0#7 ∧ shape.unusedZero k nb imm := by
  rw [List.any_eq_true]
  constructor
  · rintro ⟨row, hrow, hsel⟩
    obtain ⟨op', shape, hshape, rfl⟩ := mem_commandRows_iff.1 hrow
    obtain ⟨rfl, hrsv, hunused⟩ := selects_rowOf.1 hsel
    exact ⟨shape, hshape, hrsv, hunused⟩
  · rintro ⟨shape, hshape, hrsv, hunused⟩
    exact ⟨_, mem_commandRows_iff.2 ⟨op, shape, hshape, rfl⟩, selects_rowOf.2 ⟨rfl, hrsv, hunused⟩⟩

/-- A shape admits the fields that are in range and 0 where it does not use them. -/
theorem Shape.admits_iff_unusedZero {shape : Shape} {k : BitVec 3} {nb : BitVec 6} {imm : BitVec 8} :
    shape.admits k nb imm ↔ shape.unusedZero k nb imm ∧ k.toNat ≤ 4 ∧ nb.toNat ≤ 32 := by
  cases shape with
  | plain i =>
    refine ⟨?_, fun h => h.1⟩
    rintro ⟨rfl, rfl, rfl⟩
    exact ⟨⟨rfl, rfl, rfl⟩, by decide, by decide⟩
  | ctx mk | ctxBit mk =>
    refine ⟨?_, fun ⟨⟨hnb, himm⟩, hk, _⟩ => ⟨hk, hnb, himm⟩⟩
    rintro ⟨hk, rfl, himm⟩
    exact ⟨⟨rfl, himm⟩, hk, by decide⟩
  | ctxCount mk => exact ⟨fun ⟨hk, hnb, himm⟩ => ⟨himm, hk, hnb⟩, fun ⟨himm, hk, hnb⟩ => ⟨hk, hnb, himm⟩⟩
  | ctxByte mk =>
    refine ⟨?_, fun ⟨hnb, hk, _⟩ => ⟨hk, hnb⟩⟩
    rintro ⟨hk, rfl⟩
    exact ⟨rfl, hk, by decide⟩

/-- The legal words of R92 and R93 are those that decode. -/
theorem legalWord_iff_decodes (w : Word) : Machine.legalWord w = true ↔ ∃ i, decodeCommand w = .ok i := by
  have hk : (w >>> 21).toNat % 8 = (w.extractLsb' 21 3).toNat := by rw [BitVec.toNat_ushiftRight, BitVec.extractLsb'_toNat]
  have hnb : (w >>> 15).toNat % 64 = (w.extractLsb' 15 6).toNat := by
    rw [BitVec.toNat_ushiftRight, BitVec.extractLsb'_toNat]
  rw [Machine.legalWord, hk, hnb]
  conv => lhs; rw [← wordOf_fields w]
  conv => rhs; rw [← wordOf_fields w]
  simp only [Bool.and_eq_true, decide_eq_true_iff, any_selects_iff, decodeCommand_ok_iff_admits, wordOf_k, wordOf_nb,
    Shape.admits_iff_unusedZero]
  constructor
  · rintro ⟨⟨⟨shape, hshape, hrsv, hunused⟩, hk4⟩, hnb32⟩
    exact ⟨shape, hshape, hrsv, hunused, hk4, hnb32⟩
  · rintro ⟨shape, hshape, hrsv, hunused, hk4, hnb32⟩
    exact ⟨⟨⟨shape, hshape, hrsv, hunused⟩, hk4⟩, hnb32⟩

/-- A word selects at most one row of R93: the row of its opcode. -/
theorem row_unique {w : Word} {r q : Word × Word} (hr : r ∈ Machine.commandRows) (hq : q ∈ Machine.commandRows)
    (hwr : Machine.selects w r = true) (hwq : Machine.selects w q = true) : r = q := by
  rw [← wordOf_fields w] at hwr hwq
  obtain ⟨op, shape, hshape, rfl⟩ := mem_commandRows_iff.1 hr
  obtain ⟨op', shape', hshape', rfl⟩ := mem_commandRows_iff.1 hq
  obtain ⟨rfl, -⟩ := selects_rowOf.1 hwr
  obtain ⟨rfl, -⟩ := selects_rowOf.1 hwq
  rw [hshape] at hshape'
  cases hshape'
  rfl

theorem decodeCommand_error {w : Word} (h : ¬ ∃ i, decodeCommand w = .ok i) : ∃ e, decodeCommand w = .error e := by
  cases hd : decodeCommand w with
  | ok i => exact absurd ⟨i, hd⟩ h
  | error e => exact ⟨e, rfl⟩

/-- Settles O2: a legal word decodes, what it decodes to encodes back, and by O1 nothing else encodes to it. -/
theorem commandWordsDecodeUniquely : Obligations.CommandWordsDecodeUniquely := by
  refine ⟨fun w => ⟨fun hlegal => ?_, fun hillegal => ?_, fun r hr q hq => row_unique hr hq⟩, by decide⟩
  · obtain ⟨i, hdec⟩ := (legalWord_iff_decodes w).1 hlegal
    obtain ⟨hcode, hwf⟩ := encode_of_decodeCommand hdec
    refine ⟨i, hdec, hwf, hcode, fun j hj hjcode => ?_⟩
    have hdecj := decodeUndoesEncode j hj
    rw [hjcode, decode, hdec] at hdecj
    cases hdecj
    rfl
  · refine decodeCommand_error fun hok => ?_
    rw [(legalWord_iff_decodes w).2 hok] at hillegal
    cases hillegal

/-- R92 and R105 on every well-formed instruction at once. -/
theorem legalEncoding_encode {i : Instr} (h : i.wellFormed = true) : Laws.legalEncoding (encode i) = true := by
  cases i with
  | reset => exact Laws.EncodesLegally.reset h
  | curOpenR k => exact Laws.EncodesLegally.curOpenR k h
  | curOpenW k => exact Laws.EncodesLegally.curOpenW k h
  | rdbit k => exact Laws.EncodesLegally.rdbit k h
  | rdbits k n => exact Laws.EncodesLegally.rdbits k n h
  | rdbyte k => exact Laws.EncodesLegally.rdbyte k h
  | rdbytes k => exact Laws.EncodesLegally.rdbytes k h
  | wrbit k v => exact Laws.EncodesLegally.wrbit k v h
  | wrbits k n => exact Laws.EncodesLegally.wrbits k n h
  | wrbyte k b => exact Laws.EncodesLegally.wrbyte k b h
  | wrbytes k => exact Laws.EncodesLegally.wrbytes k h
  | palBuild => exact Laws.EncodesLegally.palBuild h
  | rleEncode => exact Laws.EncodesLegally.rleEncode h
  | rleDecode => exact Laws.EncodesLegally.rleDecode h
  | talSerialize => exact Laws.EncodesLegally.talSerialize h
  | talParse => exact Laws.EncodesLegally.talParse h
  | talEncode => exact Laws.EncodesLegally.talEncode h
  | talDecode => exact Laws.EncodesLegally.talDecode h
  | stT1 => exact Laws.EncodesLegally.stT1 h
  | stTR l => exact Laws.EncodesLegally.stTR l h
  | stF1 i => exact Laws.EncodesLegally.stF1 i h
  | stFR l i => exact Laws.EncodesLegally.stFR l i h
  | stP1 j => exact Laws.EncodesLegally.stP1 j h
  | stPR l j => exact Laws.EncodesLegally.stPR l j h

/-- Settles O6: a word that decodes has R92's fields, because what it decodes to encodes back to it. -/
theorem illegalWordIsRefused : Obligations.IllegalWordIsRefused := by
  intro s cw rest hinbox hillegal
  obtain ⟨e, he⟩ : ∃ e, decodeCommand cw = .error e := by
    refine decodeCommand_error fun ⟨i, hdec⟩ => ?_
    obtain ⟨hcode, hwf⟩ := encode_of_decodeCommand hdec
    have hlegal : Laws.legalEncoding (encode i) = true := legalEncoding_encode hwf
    rw [hcode, Laws.legalEncoding, hillegal] at hlegal
    cases hlegal
  rw [Machine.step_perform s _ rest hinbox]
  exact Machine.issue_illegal cw e _ he

/-- Settles O4, by running the decoder on each word and record. -/
theorem writtenOutWordsDecode : Obligations.WrittenOutWordsDecode := by
  unfold Obligations.WrittenOutWordsDecode
  decide

end Sys2Proof

/-! The container of R110: `TAL_SERIALIZE` writes its bytes and `TAL_PARSE` finds each field at its offset. -/

namespace Sys2Proof.Machine

/-! ### Its parts (R110) -/

/-- The bytes of a container before its length registers. -/
def containerHeader (w h : Word) (pal : List Pixel) : List Byte :=
  [0x08#8, 0x09#8, 0x03#8, 0x01#8] ++ be32 w ++ be32 h ++ [BitVec.ofNat 8 pal.length] ++ pal.flatMap be32

/-- The bytes of a container from its length registers on. -/
def containerPayload (sc : Word) (ch cn ct bd : List Byte) : List Byte :=
  be32 (BitVec.ofNat 32 ch.length) ++ be32 (BitVec.ofNat 32 cn.length) ++ be32 (BitVec.ofNat 32 ct.length) ++
    be32 sc ++ ch ++ cn ++ ct ++ bd

@[simp] theorem be32_length (v : Word) : (be32 v).length = 4 := rfl

@[simp] theorem flatMap_be32_length (pal : List Pixel) : (pal.flatMap be32).length = 4 * pal.length := by
  induction pal with
  | nil => rfl
  | cons p ps ih => rw [List.flatMap_cons, List.length_append, ih, be32_length, List.length_cons]; omega

section
variable (w h : Word) (pal : List Pixel) (sc : Word) (ch cn ct bd : List Byte)

theorem containerBytes_eq : containerBytes w h pal sc ch cn ct bd =
    containerHeader w h pal ++ containerPayload sc ch cn ct bd := by
  simp only [containerBytes, containerHeader, containerPayload, List.append_assoc]

theorem containerHeader_length : (containerHeader w h pal).length = 13 + 4 * pal.length := by
  simp only [containerHeader, List.length_append, List.length_cons, List.length_nil, be32_length, flatMap_be32_length]

theorem containerPayload_length :
    (containerPayload sc ch cn ct bd).length = 16 + ch.length + cn.length + ct.length + bd.length := by
  simp only [containerPayload, List.length_append, be32_length]

theorem containerBytes_length : (containerBytes w h pal sc ch cn ct bd).length =
    29 + 4 * pal.length + ch.length + cn.length + ct.length + bd.length := by
  rw [containerBytes_eq, List.length_append, containerHeader_length, containerPayload_length]
  omega

end

theorem headerGroups_eq_containerHeader (s : State) :
    groupBits (headerGroups s) = bytesBits (containerHeader s.w s.h s.pal) := headerGroups_bits s

theorem payloadGroups_eq_containerPayload (s : State) : groupBits (payloadGroups s.setLengths) =
    bytesBits (containerPayload s.sc s.ch.buf s.cn.buf s.ct.buf s.bd.buf) := payloadGroups_bits s.setLengths

/-! ### Writing it (R231) -/

/-- Whole bytes written behind whole bytes, where the capacity holds them all (R139, R146). -/
theorem wrSeq_bytes (cw : Word) (k : CurId) (done more : List Byte) (s : State) (hcur : s.cur k = writeCursor (bytesBits done))
    (hcap : capAtLeast s (done.length + more.length)) :
    wrSeq cw k (bytesBits more) s = .ok () (s.setCur k (writeCursor (bytesBits (done ++ more)))) := by
  have hroom : roomFor s.params.bufCap (bytesBits done).length (bytesBits more).length = (bytesBits more).length :=
    hasRoom_of_le _ _ _ fun b hb => by have := hcap b hb; simp only [bytesBits_length]; omega
  rw [wrSeq_cases cw k _ _ s hcur, if_pos hroom, bytesBits_append]

/-- `TalSerialize()` where its checks pass and the capacity holds the file (R231, R233). -/
theorem talSerialize_spec (cw : Word) (s : State) {file : List Byte} (h : serializable s)
    (hfile : file = containerBytes s.w s.h s.pal s.sc s.ch.buf s.cn.buf s.ct.buf s.bd.buf)
    (hcap : capAtLeast s file.length) :
    talSerialize cw s = .ok () (s.setLengths.setCur .fr ⟨file, file.length, 0, .writing⟩) := by
  obtain ⟨header, hheader⟩ : ∃ header, containerHeader s.w s.h s.pal = header := ⟨_, rfl⟩
  obtain ⟨payload, hpayload⟩ : ∃ payload, containerPayload s.sc s.ch.buf s.cn.buf s.ct.buf s.bd.buf = payload :=
    ⟨_, rfl⟩
  rw [containerBytes_eq, hheader, hpayload] at hfile
  have hlen : file.length = header.length + payload.length := by rw [hfile, List.length_append]
  have hwriteHeader : wrSeq cw .fr (bytesBits header) (openW .fr s) =
      .ok () (s.setCur .fr (writeCursor (bytesBits header))) :=
    wrSeq_bytes cw .fr [] header (openW .fr s) rfl fun b hb => by
      have := hcap b hb
      rw [List.length_nil]
      omega
  have hwritePayload : wrSeq cw .fr (bytesBits payload) (s.setCur .fr (writeCursor (bytesBits header))).setLengths =
      .ok () (s.setLengths.setCur .fr (writeCursor (bytesBits file))) := by
    rw [hfile]
    exact wrSeq_bytes cw .fr header payload _ rfl fun b hb => hlen ▸ hcap b hb
  rw [talSerialize_of_serializable cw s h, headerGroups_eq_containerHeader, hheader, hwriteHeader, Res.bind_ok,
    payloadGroups_eq_containerPayload, ← writeCursor_bytes, ← hwritePayload, ← hpayload]
  rfl

/-- Settles O41: the checks pass, so the file is written whole behind the emptied context. -/
theorem serializeWritesLayout : Obligations.SerializeWritesLayout := by
  intro s hfk hw hh hpal hstreams
  refine ⟨_, rfl, containerBytes_length _ _ _ _ _ _ _ _, fun hcap => ?_⟩
  have hlong : streamTooLong s = false := by
    have hch := hstreams .ch (by decide)
    have hcn := hstreams .cn (by decide)
    have hct := hstreams .ct (by decide)
    have hbd := hstreams .bd (by decide)
    simp only [State.cur] at hch hcn hct hbd
    simp only [streamTooLong, Bool.or_eq_false_iff, decide_eq_false_iff_not, not_le]
    exact ⟨⟨⟨hch, hcn⟩, hct⟩, hbd⟩
  show command (talSerialize _) s = _
  rw [command_next, if_pos hfk, talSerialize_spec _ s ⟨hw, hh, hpal, hlong⟩ rfl hcap]
  rfl

/-! ### Reading it (R236) -/

theorem be32At_of_append {b pre post : List Byte} {v : Word} {a : Nat} (hb : b = pre ++ (be32 v ++ post))
    (ha : pre.length = a) : be32At b a = v := by
  rw [hb, ← ha, be32At_be32]

theorem slice_of_append {b pre x post : List Byte} {a n : Nat} (hb : b = pre ++ (x ++ post)) (ha : pre.length = a)
    (hn : x.length = n) : slice b a n = x := by
  rw [slice, hb, List.drop_left' ha, List.take_left' hn]

section
variable (w h : Word) (pal : List Pixel) (sc : Word) (ch cn ct bd : List Byte)

theorem slice_containerBytes_signature : slice (containerBytes w h pal sc ch cn ct bd) 0 3 = Config.signature := rfl

theorem byteAt_containerBytes_version : byteAt (containerBytes w h pal sc ch cn ct bd) 3 = Config.version := rfl

theorem be32At_containerBytes_w : be32At (containerBytes w h pal sc ch cn ct bd) 4 = w :=
  be32At_of_append (pre := [0x08#8, 0x09#8, 0x03#8, 0x01#8]) (by simp only [containerBytes, List.append_assoc]; rfl) rfl

theorem be32At_containerBytes_h : be32At (containerBytes w h pal sc ch cn ct bd) 8 = h :=
  be32At_of_append (pre := [0x08#8, 0x09#8, 0x03#8, 0x01#8] ++ be32 w)
    (by simp only [containerBytes, List.append_assoc]; rfl) rfl

theorem byteAt_containerBytes_count :
    byteAt (containerBytes w h pal sc ch cn ct bd) 12 = BitVec.ofNat 8 pal.length := rfl

theorem be32At_containerBytes_lch :
    be32At (containerBytes w h pal sc ch cn ct bd) (13 + 4 * pal.length) = BitVec.ofNat 32 ch.length :=
  be32At_of_append (pre := containerHeader w h pal)
    (by simp only [containerBytes, containerHeader, List.append_assoc]; rfl) (containerHeader_length w h pal)

theorem be32At_containerBytes_lcn :
    be32At (containerBytes w h pal sc ch cn ct bd) (17 + 4 * pal.length) = BitVec.ofNat 32 cn.length :=
  be32At_of_append (pre := containerHeader w h pal ++ be32 (BitVec.ofNat 32 ch.length))
    (by simp only [containerBytes, containerHeader, List.append_assoc]; rfl)
    (by simp only [List.length_append, containerHeader_length, be32_length]; omega)

theorem be32At_containerBytes_lct :
    be32At (containerBytes w h pal sc ch cn ct bd) (21 + 4 * pal.length) = BitVec.ofNat 32 ct.length :=
  be32At_of_append
    (pre := containerHeader w h pal ++ be32 (BitVec.ofNat 32 ch.length) ++ be32 (BitVec.ofNat 32 cn.length))
    (by simp only [containerBytes, containerHeader, List.append_assoc]; rfl)
    (by simp only [List.length_append, containerHeader_length, be32_length]; omega)

theorem be32At_containerBytes_sc : be32At (containerBytes w h pal sc ch cn ct bd) (25 + 4 * pal.length) = sc :=
  be32At_of_append
    (pre := containerHeader w h pal ++ be32 (BitVec.ofNat 32 ch.length) ++ be32 (BitVec.ofNat 32 cn.length) ++
      be32 (BitVec.ofNat 32 ct.length))
    (by simp only [containerBytes, containerHeader, List.append_assoc]; rfl)
    (by simp only [List.length_append, containerHeader_length, be32_length]; omega)

/-- The bytes of a container before its streams. -/
def containerHead : List Byte :=
  containerHeader w h pal ++ be32 (BitVec.ofNat 32 ch.length) ++ be32 (BitVec.ofNat 32 cn.length) ++
    be32 (BitVec.ofNat 32 ct.length) ++ be32 sc

theorem containerHead_length : (containerHead w h pal sc ch cn ct).length = 29 + 4 * pal.length := by
  simp only [containerHead, List.length_append, containerHeader_length, be32_length]; omega

theorem containerBytes_eq_head :
    containerBytes w h pal sc ch cn ct bd = containerHead w h pal sc ch cn ct ++ (ch ++ (cn ++ (ct ++ bd))) := by
  simp only [containerBytes, containerHead, containerHeader, List.append_assoc]

theorem slice_containerBytes_ch :
    slice (containerBytes w h pal sc ch cn ct bd) (29 + 4 * pal.length) ch.length = ch :=
  slice_of_append (containerBytes_eq_head w h pal sc ch cn ct bd) (containerHead_length w h pal sc ch cn ct) rfl

theorem slice_containerBytes_cn :
    slice (containerBytes w h pal sc ch cn ct bd) (29 + 4 * pal.length + ch.length) cn.length = cn :=
  slice_of_append (pre := containerHead w h pal sc ch cn ct ++ ch)
    (by rw [containerBytes_eq_head, List.append_assoc]) (by rw [List.length_append, containerHead_length]) rfl

theorem slice_containerBytes_ct :
    slice (containerBytes w h pal sc ch cn ct bd) (29 + 4 * pal.length + ch.length + cn.length) ct.length = ct :=
  slice_of_append (pre := containerHead w h pal sc ch cn ct ++ (ch ++ cn))
    (by rw [containerBytes_eq_head]; simp only [List.append_assoc]; rfl)
    (by simp only [List.length_append, containerHead_length]; omega) rfl

theorem drop_containerBytes_bd : (containerBytes w h pal sc ch cn ct bd).drop
    (29 + 4 * pal.length + ch.length + cn.length + ct.length) = bd := by
  have hsplit : containerBytes w h pal sc ch cn ct bd = containerHead w h pal sc ch cn ct ++ (ch ++ (cn ++ ct)) ++ bd := by
    rw [containerBytes_eq_head]; simp only [List.append_assoc]
  rw [hsplit, List.drop_left' (by simp only [List.length_append, containerHead_length]; omega)]

/-- Palette entry `j` stands at offset `13 + 4*j` (R110). -/
theorem be32At_containerBytes_palette {j : Nat} (hj : j < pal.length) :
    be32At (containerBytes w h pal sc ch cn ct bd) (13 + 4 * j) = pal[j] := by
  have hpal : pal.flatMap be32 = (pal.take j).flatMap be32 ++ (be32 pal[j] ++ (pal.drop (j + 1)).flatMap be32) := by
    rw [← List.flatMap_cons, List.cons_getElem_drop_succ, ← List.flatMap_append, List.take_append_drop]
  exact be32At_of_append
    (pre := [0x08#8, 0x09#8, 0x03#8, 0x01#8] ++ be32 w ++ be32 h ++ [BitVec.ofNat 8 pal.length] ++
      (pal.take j).flatMap be32)
    (by rw [containerBytes, hpal]; simp only [List.append_assoc]; rfl)
    (by simp only [List.length_append, List.length_cons, List.length_nil, be32_length, flatMap_be32_length,
          List.length_take]; omega)

theorem parsePalette_containerBytes : parsePalette (containerBytes w h pal sc ch cn ct bd) pal.length = pal := by
  refine List.ext_getElem (parsePalette_length _ _) fun j hj hj' => ?_
  rw [← be32At_containerBytes_palette w h pal sc ch cn ct bd hj']
  simp [parsePalette]

end

/-- Settles O43: every check of R236 passes, and every field read is the one R110 puts there. -/
theorem parseReadsContainer : Obligations.ParseReadsContainer := by
  intro s w h sc pal ch cn ct bd hfk hw hh hpal hch hcn hct hscch hsccn hbuf
  have hopen : (openR .fr s).fr.buf = containerBytes w h pal sc ch cn ct bd := hbuf
  have hcount : (BitVec.ofNat 8 pal.length).toNat = pal.length := by simp; omega
  have hlch : (BitVec.ofNat 32 ch.length).toNat = ch.length := by simp; omega
  have hlcn : (BitVec.ofNat 32 cn.length).toNat = cn.length := by simp; omega
  have hlct : (BitVec.ofNat 32 ct.length).toNat = ct.length := by simp; omega
  show command talParse s = _
  rw [command_next, if_pos hfk]
  unfold talParse
  simp only [hopen, slice_containerBytes_signature, byteAt_containerBytes_version, be32At_containerBytes_w,
    be32At_containerBytes_h, byteAt_containerBytes_count, hcount, be32At_containerBytes_lch, be32At_containerBytes_lcn,
    be32At_containerBytes_lct, be32At_containerBytes_sc, hlch, hlcn, hlct, slice_containerBytes_ch,
    slice_containerBytes_cn, slice_containerBytes_ct, drop_containerBytes_bd, parsePalette_containerBytes,
    containerBytes_length, Config.minFile, Config.dimMax]
  rw [if_neg (by omega), if_neg (not_not.2 rfl), if_neg (not_not.2 rfl), if_neg (by omega), if_neg (by omega),
    if_neg (by omega), if_neg (by omega), if_neg (by omega), if_neg (by omega)]
  rfl

end Sys2Proof.Machine

/-! The pipelines of R250 and R251 against their stages. A stage run inside `TAL_ENCODE` differs from the command of its own
only in the word a refusal names (R262), and it ends with a fault exactly when it was cut short (R270). -/

namespace Sys2Proof.Machine

/-! ### Ending with a fault (R270) -/

/-- The part went on without a fault, or it was cut short by one. -/
def Res.settled {α : Type} : Res α → Prop
  | .ok _ s => s.fk = 0
  | .raised s => s.fk ≠ 0

theorem FaultKind.code_ne_zero (kind : FaultKind) : kind.code ≠ 0 := by cases kind <;> decide

theorem raise_settled {α : Type} (kind : FaultKind) (sub expected actual : Nat) (s : State) :
    (raise kind sub expected actual s : Res α).settled := kind.code_ne_zero

/-- What follows a settled part runs exactly when that part left no fault. -/
theorem Res.settled.bind_state {r : Res Unit} (hr : r.settled) (f : State → Res Unit) :
    (r.bind fun _ s => f s).state = if r.state.fk = 0 then (f r.state).state else r.state := by
  cases r with
  | ok a s => exact (if_pos hr).symm
  | raised s => exact (if_neg hr).symm

theorem palBuild_settled {s : State} (h : s.fk = 0) : (palBuild s).settled := by
  unfold palBuild
  split
  · exact h
  · exact raise_settled _ _ _ _ _

theorem talParse_settled {s : State} (h : s.fk = 0) : (talParse s).settled := by
  have hopen : (openR .fr s).fk = 0 := h
  unfold talParse
  dsimp only
  split_ifs
  iterate 9 exact raise_settled _ _ _ _ _
  exact hopen

/-! ### The word a refusal names (R262, R264) -/

/-- Two runs of one part of a command under two words: both go on alike without a fault, or both are refused in one state,
each under its own word. -/
inductive SameButWord {α : Type} (cw cw' : Word) : Res α → Res α → Prop
  | ok (a : α) (s : State) (h : s.fk = 0) : SameButWord cw cw' (.ok a s) (.ok a s)
  | refused (s : State) : SameButWord cw cw' (refuse cw s) (refuse cw' s)

section
variable {cw cw' : Word}

theorem SameButWord.bind {α β : Type} {r r' : Res α} {f f' : α → State → Res β} (hr : SameButWord cw cw' r r')
    (hf : ∀ a s, r = .ok a s → s.fk = 0 → SameButWord cw cw' (f a s) (f' a s)) :
    SameButWord cw cw' (r.bind f) (r'.bind f') := by
  cases hr with
  | ok a s h => exact hf a s rfl h
  | refused s => exact .refused s

theorem SameButWord.wrSeq (k : CurId) (bits : List Bool) {s : State} (h : s.fk = 0) :
    SameButWord cw cw' (wrSeq cw k bits s) (wrSeq cw' k bits s) := by
  unfold Machine.wrSeq
  split
  · exact .ok _ _ (by rw [State.setCur_fk, h])
  · exact .refused _

theorem SameButWord.emitColour (col : Pixel) {s : State} (h : s.fk = 0) :
    SameButWord cw cw' (emitColour cw col s) (emitColour cw' col s) := by
  unfold Machine.emitColour
  split
  · exact .refused _
  · refine .bind (.wrSeq _ _ h) fun _ t _ ht => ?_
    split
    · exact .wrSeq _ _ ht
    · exact .wrSeq _ _ ht

theorem SameButWord.emit (col : Pixel) (l : Nat) {s : State} (h : s.fk = 0) :
    SameButWord cw cw' (emit cw col l s) (emit cw' col l s) := by
  refine .bind (.wrSeq _ _ h) fun _ t _ ht => .bind (.wrSeq _ _ ht) fun _ t _ ht => ?_
  refine .bind ?length fun _ t _ ht => .bind ?colour fun _ t _ ht => .ok _ _ ht
  case length =>
    split
    · exact .wrSeq _ _ ht
    · exact .ok _ _ ht
  case colour =>
    split
    · exact .emitColour col ht
    · exact .ok _ _ ht

theorem SameButWord.encodeScan (ps : List Pixel) {s : State} (h : s.fk = 0) :
    SameButWord cw cw' (encodeScan cw ps s) (encodeScan cw' ps s) := by
  induction ps generalizing s with
  | nil => exact .ok _ _ h
  | cons p ps ih =>
    unfold Machine.encodeScan
    split
    · exact ih h
    · exact .bind (.emit _ _ h) fun _ t _ ht => ih ht

theorem SameButWord.rleEncode {s : State} (h : s.fk = 0) :
    SameButWord cw cw' (rleEncode cw s) (rleEncode cw' s) := by
  unfold Machine.rleEncode
  split
  · exact .refused _
  · exact .bind (.encodeScan _ h) fun _ t _ ht => .emit _ _ ht

/-- Within the size limits `TalSerialize()` raises nothing but `Refused` (R232). -/
theorem SameButWord.talSerialize {s : State} (h : s.fk = 0) (hw : s.w.toNat ≤ 8192) (hh : s.h.toNat ≤ 8192) :
    SameButWord cw cw' (talSerialize cw s) (talSerialize cw' s) := by
  unfold Machine.talSerialize
  have hw' : ¬ Config.dimMax < s.w.toNat := not_lt.2 hw
  have hh' : ¬ Config.dimMax < s.h.toNat := not_lt.2 hh
  rw [if_neg hw', if_neg hh', if_neg hw', if_neg hh']
  split
  · exact .refused _
  split
  · exact .refused _
  · exact .bind (.wrSeq _ _ h) fun _ t _ ht => .wrSeq _ _ ht

/-- The two runs leave one state, but for the word in `INFO` where they were refused. -/
theorem SameButWord.state_eq {α : Type} {r r' : Res α} (h : SameButWord cw cw' r r') :
    r'.state = if r.state.fk = 0 then r.state else { r.state with info := ⟨0, 0, cw'.toNat⟩ } := by
  cases h with
  | ok a s h => rw [Res.state_ok, if_pos h]
  | refused s => rfl

/-- A part that runs the same under two words but for a refusal ends settled. -/
theorem SameButWord.settled {α : Type} {r r' : Res α} (h : SameButWord cw cw' r r') : r.settled := by
  cases h with
  | ok a s h => exact h
  | refused s => exact raise_settled _ _ _ _ _

end

/-! ### The pipelines -/

theorem EncodeKeeps.size {s t : State} (h : EncodeKeeps s t) : t.w = s.w ∧ t.h = s.h := by
  unfold EncodeKeeps at h
  rw [h]
  exact ⟨rfl, rfl⟩

theorem PaletteKeeps.size {s t : State} (h : PaletteKeeps s t) : t.w = s.w ∧ t.h = s.h := by
  unfold PaletteKeeps at h
  rw [h]
  exact ⟨rfl, rfl⟩

/-- A command that runs leaves what its body leaves. -/
theorem command_run {body : State → Res Unit} {s t : State} (hfk : s.fk = 0) (h : command body s = .next t) :
    t = (body s).state := by
  rw [command_next, if_pos hfk] at h
  exact (Host.Outcome.next.inj h).symm

/-- `PAL_BUILD` of a raster of the right size (R26, R161). -/
theorem execPalBuild_of_raster {s : State} (h : s.pix.length = s.area) : execPalBuild s = command palBuild s := by
  rw [execPalBuild, command_next, command_next, if_neg (not_not.2 h)]

/-- R251: `TAL_DECODE` is `TAL_PARSE` from `NF = 0` and then `RLE_DECODE`. -/
theorem talDecode_state {s : State} (hfk : s.fk = 0) {t : State} (ht : t = (talParse { s with nf := false }).state) :
    (talDecode s).state = if t.fk = 0 then (rleDecode t).state else t := by
  rw [ht]
  exact (talParse_settled (s := { s with nf := false }) hfk).bind_state rleDecode

/-- R250: `TAL_ENCODE` of a raster that passes its checks is `PAL_BUILD` from `NF = 0`, then the other two stages under
`TAL_ENCODE`'s word. -/
theorem talEncode_state (cw : Word) {s : State} (hfk : s.fk = 0) (hw : s.w.toNat ≤ 8192) (hh : s.h.toNat ≤ 8192)
    (hpix : s.pix.length = s.area) (hne : s.pix ≠ []) {t : State} (ht : t = (palBuild { s with nf := false }).state) :
    (talEncode cw s).state =
      if t.fk = 0 then ((rleEncode cw t).bind fun _ u => talSerialize cw u).state else t := by
  have harea : s.area ≠ 0 := by rw [← hpix]; exact mt List.eq_nil_of_length_eq_zero hne
  have hw' : ¬ Config.dimMax < s.w.toNat := not_lt.2 hw
  have hh' : ¬ Config.dimMax < s.h.toNat := not_lt.2 hh
  have hraster : ¬ (s.pix.length ≠ s.area ∨ s.area = 0) := not_or.2 ⟨not_not.2 hpix, harea⟩
  unfold talEncode
  rw [if_neg hw', if_neg hh', if_neg hraster, ht]
  exact (palBuild_settled (s := { s with nf := false }) hfk).bind_state
    fun t => (rleEncode cw t).bind fun _ u => talSerialize cw u

/-- The second and third stage under another word leave what the commands `RLE_ENCODE` and `TAL_SERIALIZE` leave, but for
the word in `INFO` where one of them was refused. -/
theorem encodeStages_state (cwEncode cwSerialize cw : Word) {t u v : State} (hfk : t.fk = 0) (hw : t.w.toNat ≤ 8192)
    (hh : t.h.toNat ≤ 8192) (hu : u = (rleEncode cwEncode t).state)
    (hv : v = if u.fk = 0 then (talSerialize cwSerialize u).state else u) :
    ((rleEncode cw t).bind fun _ u => talSerialize cw u).state =
      if v.fk = 0 then v else { v with info := ⟨0, 0, cw.toNat⟩ } := by
  obtain ⟨huw, huh⟩ : u.w = t.w ∧ u.h = t.h := hu ▸ (rleEncode_encodeKeeps cwEncode t).size
  have hencode := (SameButWord.rleEncode (cw := cwEncode) (cw' := cw) hfk).state_eq
  rw [← hu] at hencode
  rw [(SameButWord.rleEncode (cw := cw) (cw' := cw) hfk).settled.bind_state (talSerialize cw), hencode]
  by_cases hufk : u.fk = 0
  · rw [if_pos hufk] at hv ⊢
    rw [if_pos hufk, hv]
    exact (SameButWord.talSerialize hufk (huw ▸ hw) (huh ▸ hh)).state_eq
  · rw [if_neg hufk] at hv
    rw [hv, if_neg hufk, if_neg hufk]

/-- Settles O46: each pipeline is the bind of its stages, and a settled stage lets the next one run or ends the command. -/
theorem pipelinesAreTheirStages : Obligations.PipelinesAreTheirStages := by
  refine ⟨fun s t hfk ht => ?_, fun s t u v hfk hw hh hpix hne ht hu hv => ?_⟩
  · have hparse := command_run (s := { s with nf := false }) hfk ht
    show command talDecode s = if t.fk = 0 then command rleDecode t else .next t
    rw [command_next, if_pos hfk, talDecode_state hfk hparse]
    split_ifs with htfk
    · rw [command_next, if_pos htfk]
    · rfl
  · have hpalette : t = (palBuild { s with nf := false }).state := by
      have hbody := execPalBuild_of_raster (s := { s with nf := false }) hpix
      exact command_run (s := { s with nf := false }) hfk (hbody.symm.trans ht)
    obtain ⟨htw, hth⟩ : t.w = s.w ∧ t.h = s.h := hpalette ▸ (palBuild_paletteKeeps { s with nf := false }).size
    show command (talEncode _) s = _
    rw [command_next, if_pos hfk, talEncode_state _ hfk hw hh hpix hne hpalette]
    by_cases htfk : t.fk = 0
    · have hserialize : v = if u.fk = 0 then (talSerialize Instr.talSerialize.word u).state else u :=
        (Host.Outcome.next.inj ((command_next _ _).symm.trans hv)).symm
      rw [if_pos htfk, if_neg (not_not.2 htfk)]
      exact congrArg _ (encodeStages_state _ _ _ htfk (htw ▸ hw) (hth ▸ hh) (command_run htfk hu) hserialize)
    · rw [if_neg htfk, if_pos htfk]

end Sys2Proof.Machine

/-! The record step of R205 against the record forms (R206 to R211): a form fetched from the streams was decoded from the
very bits the record step reads, so both do the same reads and append the same run (log 7). -/

namespace Sys2Proof.Machine

/-! ### What a peek says about a read (R133) -/

/-- A cursor past the end of its buffer has no bit to read (R132). -/
theorem Cursor.rdBits_past_end {c : Cursor} (h : 8 * c.buf.length ≤ c.pos) (n : Nat) : c.rdBits (n + 1) = (none, c) := by
  have hnone : c.rdBit = none := by
    rw [Cursor.rdBit_spec, List.getElem?_eq_none (by rw [bytesBits_length]; exact h)]
    rfl
  rw [Cursor.rdBits, Cursor.rdBitsFrom, hnone]

/-- A peek of at least one bit answers with the bits ahead, and they are inside the buffer. -/
theorem Cursor.peek_eq_some {c : Cursor} {n : Nat} {bits : List Bool} (hn : 0 < n) (h : c.peek n = some bits) :
    c.pos + n ≤ 8 * c.buf.length ∧ bits = c.rest.take n := by
  have hpos : c.pos ≤ 8 * c.buf.length := by
    by_contra hpast
    obtain ⟨m, rfl⟩ := Nat.exists_eq_add_of_lt hn
    rw [Cursor.peek, Cursor.rdBits_past_end (by omega)] at h
    cases h
  rw [Cursor.peek_spec n c hpos] at h
  split_ifs at h with hin
  cases h
  exact ⟨hin, rfl⟩

theorem Cursor.peek_length {c : Cursor} {n : Nat} {bits : List Bool} (h : c.peek n = some bits) : bits.length = n := by
  obtain ⟨v, -, rfl⟩ := Option.map_eq_some_iff.1 h
  exact bitsOf_length n v

theorem Cursor.peek_one {c : Cursor} {bits : List Bool} (h : c.peek 1 = some bits) : ∃ b, bits = [b] :=
  List.length_eq_one_iff.1 (Cursor.peek_length h)

/-- The bits of a longer peek, part by part. -/
theorem Cursor.peek_add {c : Cursor} {m n : Nat} {bits : List Bool} (hm : 0 < m) (h : c.peek (m + n) = some bits) :
    c.peek m = some (bits.take m) ∧ (c.at (c.pos + m)).peek n = some (bits.drop m) := by
  obtain ⟨hin, rfl⟩ := Cursor.peek_eq_some (by omega) h
  have hrest : (c.at (c.pos + m)).rest = c.rest.drop m := by
    rw [Cursor.rest, Cursor.rest, List.drop_drop, Cursor.at_pos, Cursor.at_buf]
  rw [Cursor.peek_spec m c (by omega), if_pos (by omega), Cursor.peek_spec n _ (by rw [Cursor.at_pos, Cursor.at_buf]; omega),
    if_pos (by rw [Cursor.at_pos, Cursor.at_buf]; omega), hrest, List.take_take, List.drop_take, Nat.add_sub_cancel_left,
    Nat.min_eq_left (by omega)]
  exact ⟨rfl, rfl⟩

/-- The state after `n` bits of context `k` were read. -/
def State.skip (s : State) (k : CurId) (n : Nat) : State := s.setCur k ((s.cur k).at ((s.cur k).pos + n))

theorem rdBits_of_peek {s : State} {k : CurId} {n : Nat} {bits : List Bool} (hn : 0 < n)
    (h : (s.cur k).peek n = some bits) : rdBits k n s = .ok (valOf bits) (s.skip k n) := by
  obtain ⟨hin, rfl⟩ := Cursor.peek_eq_some hn h
  rw [rdBits_cases k n s (by omega), if_pos hin]
  rfl

theorem consume_of_peek {s : State} {k : CurId} {n : Nat} {bits : List Bool} (hn : 0 < n)
    (h : (s.cur k).peek n = some bits) : consume k n s = .ok () (s.skip k n) := by
  rw [consume, rdBits_of_peek hn h, Res.bind_ok]

/-- The payload operand decoded from a peek is the number a read of the same bits answers. -/
theorem toNat_ofNat_valOf {n : Nat} {bits : List Bool} (h : bits.length = n) :
    (BitVec.ofNat n (valOf bits)).toNat = valOf bits := by
  subst h
  rw [BitVec.toNat_ofNat, Nat.mod_eq_of_lt (valOf_lt bits)]

/-! ### The field bits (R204) -/

/-- The streams hold a record's field bits: count `m`, chroma `c` and, where it is coloured, colour-type `f`. -/
structure FlagsAhead (s : State) (m c f : Bool) : Prop where
  count : s.cn.peek 1 = some [m]
  chroma : s.ch.peek 1 = some [c]
  colourType : c = true → s.ct.peek 1 = some [f]

/-- The state after a record's field bits were read (R212). -/
def State.skipFlags (s : State) (coloured : Bool) : State :=
  if coloured then ((s.skip .cn 1).skip .ch 1).skip .ct 1 else (s.skip .cn 1).skip .ch 1

theorem State.skipFlags_bd (s : State) (coloured : Bool) : (s.skipFlags coloured).bd = s.bd := by
  cases coloured <;> rfl

theorem valOf_singleton (b : Bool) : valOf [b] = b.toNat := by cases b <;> rfl

section
variable {s : State} {m c f : Bool} (h : FlagsAhead s m c f)
include h

theorem FlagsAhead.consumeFlags : consumeFlags c s = .ok () (s.skipFlags c) := by
  have hcn : consume .cn 1 s = _ := consume_of_peek (by decide) h.count
  have hch : consume .ch 1 (s.skip .cn 1) = _ := consume_of_peek (by decide) h.chroma
  rw [Machine.consumeFlags, hcn, Res.bind_ok, hch, Res.bind_ok]
  cases c with
  | false => rfl
  | true => exact consume_of_peek (by decide) (h.colourType rfl)

/-- The record step behind its field bits (R205). -/
theorem FlagsAhead.record (hf : c = false → f = false) :
    record s = (if m then (rdBits .bd 8 (s.skipFlags c)).bind fun p t => .ok (lengthOfPayload p) t
      else .ok 1 (s.skipFlags c)).bind fun l t => recordColour c f l t := by
  have hcn : rdBits .cn 1 s = _ := rdBits_of_peek (by decide) h.count
  have hch : rdBits .ch 1 (s.skip .cn 1) = _ := rdBits_of_peek (by decide) h.chroma
  have hct : (if c.toNat = 1 then rdBits .ct 1 ((s.skip .cn 1).skip .ch 1) else .ok 0 ((s.skip .cn 1).skip .ch 1)) =
      .ok f.toNat (s.skipFlags c) := by
    cases c with
    | false => rw [hf rfl]; rfl
    | true =>
      rw [← valOf_singleton f]
      exact rdBits_of_peek (by decide) (h.colourType rfl)
  have hbit : ∀ b : Bool, (b.toNat == 1) = b := by decide
  rw [Machine.record, hcn, Res.bind_ok, hch, Res.bind_ok, valOf_singleton, valOf_singleton, hct, Res.bind_ok, hbit, hbit]
  cases m <;> rfl

end

/-! ### The payloads (R205) -/

/-- Using the operand decoded from the bits ahead is using the number a read of them answers. -/
theorem consume_bind_of_peek {s : State} {k : CurId} {n : Nat} {bits : List Bool} (hn : 0 < n)
    (h : (s.cur k).peek n = some bits) (use : Nat → State → Res Unit) :
    ((consume k n s).bind fun _ t => use (BitVec.ofNat n (valOf bits)).toNat t) = (rdBits k n s).bind use := by
  rw [consume_of_peek hn h, rdBits_of_peek hn h, toNat_ofNat_valOf (Cursor.peek_length h), Res.bind_ok, Res.bind_ok]

theorem favourite_eq_recordColour {s : State} {bits : List Bool} (h : s.bd.peek 4 = some bits) (l : Nat) :
    ((consume .bd 4 s).bind fun _ t => favouriteRun (BitVec.ofNat 4 (valOf bits)).toNat l t) =
      recordColour true true l s :=
  consume_bind_of_peek (k := .bd) (by decide) h fun i t => favouriteRun i l t

theorem palette_eq_recordColour {s : State} {bits : List Bool} (h : s.bd.peek 8 = some bits) (l : Nat) :
    ((consume .bd 8 { s with nf := true }).bind fun _ t => paletteRun (BitVec.ofNat 8 (valOf bits)).toNat l t) =
      recordColour true false l s :=
  consume_bind_of_peek (s := { s with nf := true }) (k := .bd) (by decide) h fun j t => paletteRun j l t

section
variable {s : State} {c f : Bool} (hfk : s.fk = 0)
include hfk

/-- A form without a length payload is the record step, if its colour part is. -/
theorem single_form_eq_record (h : FlagsAhead s false c f) (hf : c = false → f = false) {colour : State → Res Unit}
    (hcolour : colour (s.skipFlags c) = recordColour c f 1 (s.skipFlags c)) :
    command (fun s => (consumeFlags c s).bind fun _ s => colour s) s = .next (record s).state := by
  rw [command_next, if_pos hfk, h.consumeFlags, Res.bind_ok, hcolour, h.record hf]
  rfl

/-- A form with a length payload is the record step, if its colour part behind that payload is. -/
theorem run_form_eq_record (h : FlagsAhead s true c f) (hf : c = false → f = false) {bits : List Bool}
    (hpeek : (s.skipFlags c).bd.peek 8 = some bits) {colour : State → Res Unit}
    (hcolour : colour ((s.skipFlags c).skip .bd 8) =
      recordColour c f (lengthOfPayload (BitVec.ofNat 8 (valOf bits)).toNat) ((s.skipFlags c).skip .bd 8)) :
    command (fun s => (consumeFlags c s).bind fun _ s => (consume .bd 8 s).bind fun _ s => colour s) s =
      .next (record s).state := by
  have hread : rdBits .bd 8 (s.skipFlags c) = _ := rdBits_of_peek (by decide) hpeek
  rw [command_next, if_pos hfk, h.consumeFlags, Res.bind_ok, consume, hread, Res.bind_ok, Res.bind_ok, hcolour,
    h.record hf, if_pos rfl, hread, toNat_ofNat_valOf (Cursor.peek_length hpeek)]
  rfl

end

/-! ### The record bits at the positions of the streams (R28, R105) -/

/-- The bits fetched are the field bits ahead, and a body of the width they give. -/
theorem nextRecordBits_eq_some {s : State} {r : RecordBits} (h : nextRecordBits s = some r) :
    ∃ f, FlagsAhead s r.cn r.ch f ∧ (r.ch = false → f = false) ∧ r.ct = (if r.ch then some f else none) ∧
      s.bd.peek (recordBodyBits r.ch r.cn f) = some r.bd := by
  simp only [nextRecordBits, Option.bind_eq_bind, Option.bind_eq_some_iff] at h
  obtain ⟨ms, hm, cs, hc, h⟩ := h
  obtain ⟨m, rfl⟩ := Cursor.peek_one hm
  obtain ⟨c, rfl⟩ := Cursor.peek_one hc
  have hbit : ∀ b : Bool, ([b] == [true]) = b := by decide
  rw [hbit] at h
  cases c with
  | false =>
    rw [if_neg (by decide)] at h
    obtain ⟨body, hbody, hr⟩ := Option.bind_eq_some_iff.1 h
    cases hr
    exact ⟨false, ⟨hm, hc, by rintro ⟨⟩⟩, fun _ => rfl, rfl, hbody⟩
  | true =>
    rw [if_pos rfl] at h
    obtain ⟨fs, hf, h⟩ := Option.bind_eq_some_iff.1 h
    obtain ⟨f, rfl⟩ := Cursor.peek_one hf
    rw [hbit] at h
    obtain ⟨body, hbody, hr⟩ := Option.bind_eq_some_iff.1 h
    cases hr
    exact ⟨f, ⟨hm, hc, fun _ => hf⟩, by rintro ⟨⟩, rfl, hbody⟩

theorem fetchRecord_eq_some {s : State} {i : Instr} (h : fetchRecord s = some i) :
    ∃ r, nextRecordBits s = some r ∧ decodeRecord r = .ok i := by
  unfold fetchRecord at h
  split at h
  · cases h
  · rename_i r hbits
    refine ⟨r, hbits, ?_⟩
    cases hdec : decodeRecord r with
    | error e => rw [hdec] at h; cases h
    | ok j => rw [hdec] at h; cases h; rfl

/-! ### The six forms -/

section
variable {s : State} {bd : List Bool} {i : Instr} (hfk : s.fk = 0)
include hfk

/-- A transparent record: a body of a length payload or none (R206, R207). -/
theorem exec_transparent_eq_record {m : Bool} (hflags : FlagsAhead s m false false)
    (hbody : s.bd.peek (recordBodyBits false m false) = some bd) (hdec : decodeRecord ⟨false, m, none, bd⟩ = .ok i) :
    exec i s = .next (record s).state := by
  have hlen := Cursor.peek_length hbody
  rw [← s.skipFlags_bd false] at hbody
  cases m with
  | false =>
    obtain rfl : .stT1 = i := Except.ok.inj ((if_pos hlen).symm.trans hdec)
    exact single_form_eq_record hfk hflags (fun _ => rfl) rfl
  | true =>
    obtain rfl : .stTR _ = i := Except.ok.inj ((if_pos hlen).symm.trans hdec)
    exact run_form_eq_record hfk hflags (fun _ => rfl) hbody rfl

/-- A record of a favourite colour: a four-bit index, behind a length payload or not (R208, R209). -/
theorem exec_favourite_eq_record {m : Bool} (hflags : FlagsAhead s m true true)
    (hbody : s.bd.peek (recordBodyBits true m true) = some bd) (hdec : decodeRecord ⟨true, m, some true, bd⟩ = .ok i) :
    exec i s = .next (record s).state := by
  have hlen := Cursor.peek_length hbody
  rw [← s.skipFlags_bd true] at hbody
  cases m with
  | false =>
    obtain rfl : .stF1 _ = i := Except.ok.inj ((if_pos hlen).symm.trans hdec)
    exact single_form_eq_record hfk hflags nofun (favourite_eq_recordColour hbody 1)
  | true =>
    obtain rfl : .stFR _ _ = i := Except.ok.inj ((if_pos hlen).symm.trans hdec)
    obtain ⟨hlength, hindex⟩ := Cursor.peek_add (m := 8) (n := 4) (by decide) hbody
    exact run_form_eq_record hfk hflags nofun hlength (favourite_eq_recordColour hindex _)

/-- A record of a non-favourite colour: an eight-bit index, behind a length payload or not (R210, R211). -/
theorem exec_nonFavourite_eq_record {m : Bool} (hflags : FlagsAhead s m true false)
    (hbody : s.bd.peek (recordBodyBits true m false) = some bd) (hdec : decodeRecord ⟨true, m, some false, bd⟩ = .ok i) :
    exec i s = .next (record s).state := by
  have hlen := Cursor.peek_length hbody
  rw [← s.skipFlags_bd true] at hbody
  cases m with
  | false =>
    obtain rfl : .stP1 _ = i := Except.ok.inj ((if_pos hlen).symm.trans hdec)
    exact single_form_eq_record hfk hflags nofun (palette_eq_recordColour hbody 1)
  | true =>
    obtain rfl : .stPR _ _ = i := Except.ok.inj ((if_pos hlen).symm.trans hdec)
    obtain ⟨hlength, hindex⟩ := Cursor.peek_add (m := 8) (n := 8) (by decide) hbody
    exact run_form_eq_record hfk hflags nofun hlength (palette_eq_recordColour hindex _)

end

/-- Settles O37: the fetched bits are those of a transparent, a favourite or a non-favourite record. -/
theorem recordStepIsItsForm : Obligations.RecordStepIsItsForm := by
  intro s i hfk hfetch
  obtain ⟨r, hbits, hdec⟩ := fetchRecord_eq_some hfetch
  refine ⟨⟨r, encode_of_decodeRecord hdec⟩, ?_⟩
  obtain ⟨f, hflags, hf, hct, hbody⟩ := nextRecordBits_eq_some hbits
  obtain ⟨c, m, ct, bd⟩ := r
  obtain rfl : ct = if c then some f else none := hct
  cases c with
  | false =>
    obtain rfl : f = false := hf rfl
    exact exec_transparent_eq_record hfk hflags hbody hdec
  | true =>
    cases f with
    | false => exact exec_nonFavourite_eq_record hfk hflags hbody hdec
    | true => exact exec_favourite_eq_record hfk hflags hbody hdec

end Sys2Proof.Machine

/-! What `RLE_ENCODE` writes (R176 to R189): the scan cuts the raster into its maximal streaks, and each streak's record goes
into the four streams as it ends. -/

namespace Sys2Proof.Machine

/-! ### The streaks of a scan (R176, R186, R187) -/

/-- The streaks a scan cuts off when it holds `l` pixels of colour `col` and still has these to come. -/
def streaksFrom (col : Pixel) (l : Nat) : List Pixel → List (Pixel × Nat)
  | [] => [(col, l)]
  | p :: ps => if p = col ∧ l < 256 then streaksFrom col (l + 1) ps else (col, l) :: streaksFrom p 1 ps

theorem streaksFrom_cons_same {col p : Pixel} {l : Nat} (h : p = col ∧ l < 256) (ps : List Pixel) :
    streaksFrom col l (p :: ps) = streaksFrom col (l + 1) ps := if_pos h

theorem streaksFrom_cons_new {col p : Pixel} {l : Nat} (h : ¬ (p = col ∧ l < 256)) (ps : List Pixel) :
    streaksFrom col l (p :: ps) = (col, l) :: streaksFrom p 1 ps := if_neg h

/-- The first streak has the colour at hand. -/
theorem streaksFrom_head (col : Pixel) (l : Nat) (ps : List Pixel) :
    ∃ n rest, streaksFrom col l ps = (col, n) :: rest := by
  induction ps generalizing l with
  | nil => exact ⟨l, [], rfl⟩
  | cons p ps ih =>
    by_cases h : p = col ∧ l < 256
    · rw [streaksFrom_cons_same h]
      exact ih (l + 1)
    · exact ⟨l, _, streaksFrom_cons_new h ps⟩

theorem expand_append (xs ys : List (Pixel × Nat)) : expand (xs ++ ys) = expand xs ++ expand ys :=
  List.flatMap_append

theorem expand_cons (r : Pixel × Nat) (rs : List (Pixel × Nat)) :
    expand (r :: rs) = List.replicate r.2 r.1 ++ expand rs := rfl

theorem expand_singleton (r : Pixel × Nat) : expand [r] = List.replicate r.2 r.1 := List.append_nil _

/-- The streaks stand for the pixels at hand and those to come (R189(b)). -/
theorem expand_streaksFrom (col : Pixel) (l : Nat) (ps : List Pixel) :
    expand (streaksFrom col l ps) = List.replicate l col ++ ps := by
  induction ps generalizing col l with
  | nil => rw [streaksFrom, expand_singleton, List.append_nil]
  | cons p ps ih =>
    by_cases h : p = col ∧ l < 256
    · rw [streaksFrom_cons_same h, ih, List.replicate_succ', List.append_assoc, h.1]
      rfl
    · rw [streaksFrom_cons_new h, expand_cons, ih]
      rfl

/-- The streaks are maximal: one ends at a change of colour or at length 256 (R186, R189(c)). -/
theorem maximalStreaks_streaksFrom {col : Pixel} {l : Nat} (hpos : 1 ≤ l) (hmax : l ≤ 256) (ps : List Pixel) :
    MaximalStreaks (streaksFrom col l ps) := by
  induction ps generalizing col l with
  | nil => exact ⟨by simpa [streaksFrom] using ⟨hpos, hmax⟩, List.isChain_singleton _⟩
  | cons p ps ih =>
    by_cases h : p = col ∧ l < 256
    · rw [streaksFrom_cons_same h]
      exact ih (by omega) (by omega)
    · rw [streaksFrom_cons_new h]
      obtain ⟨hlengths, hchain⟩ := ih (col := p) le_rfl (by decide)
      obtain ⟨n, rest, hhead⟩ := streaksFrom_head p 1 ps
      rw [hhead] at hlengths hchain ⊢
      refine ⟨List.forall_mem_cons.2 ⟨⟨hpos, hmax⟩, hlengths⟩, List.isChain_cons_cons.2 ⟨fun hsame => ?_, hchain⟩⟩
      exact le_antisymm hmax (not_lt.1 fun hlt => h ⟨hsame.symm, hlt⟩)

theorem streaksFrom_getLastD_cons_new {col p : Pixel} {l : Nat} (h : ¬ (p = col ∧ l < 256)) (ps : List Pixel)
    (r : Pixel × Nat) : (streaksFrom col l (p :: ps)).getLastD r = (streaksFrom p 1 ps).getLastD r := by
  obtain ⟨n, rest, hhead⟩ := streaksFrom_head p 1 ps
  rw [streaksFrom_cons_new h, hhead, List.getLastD_cons, List.getLastD_cons, List.getLastD_cons]

/-! ### How many bits the records take (R190) -/

theorem recordBitsOf_append (xs ys : List Instr) : recordBitsOf (xs ++ ys) = recordBitsOf xs ++ recordBitsOf ys :=
  List.filterMap_append

theorem chromaBits_append (xs ys : List Instr) : chromaBits (xs ++ ys) = chromaBits xs ++ chromaBits ys := by
  rw [chromaBits, recordBitsOf_append, List.map_append]; rfl

theorem countBits_append (xs ys : List Instr) : countBits (xs ++ ys) = countBits xs ++ countBits ys := by
  rw [countBits, recordBitsOf_append, List.map_append]; rfl

theorem colourTypeBits_append (xs ys : List Instr) :
    colourTypeBits (xs ++ ys) = colourTypeBits xs ++ colourTypeBits ys := by
  rw [colourTypeBits, recordBitsOf_append, List.filterMap_append]; rfl

theorem bodyBits_append (xs ys : List Instr) : bodyBits (xs ++ ys) = bodyBits xs ++ bodyBits ys := by
  rw [bodyBits, recordBitsOf_append, List.flatMap_append]; rfl

theorem recordBitsOf_singleton {i : Instr} {r : RecordBits} (h : encode i = .record r) : recordBitsOf [i] = [r] := by
  simp [recordBitsOf, h]

/-- The records of a sequence of streaks, under the palette and the parameter of a state (R101, R183). -/
def recordsOf (s : State) (streaks : List (Pixel × Nat)) : List Instr :=
  streaks.map (streakRecord s.params.nonfav s.pal)

theorem recordsOf_append (s : State) (xs ys : List (Pixel × Nat)) :
    recordsOf s (xs ++ ys) = recordsOf s xs ++ recordsOf s ys := List.map_append

/-- Each of the four streams takes at most `n` bits of these records. -/
structure StreamsWithin (records : List Instr) (n : Nat) : Prop where
  chroma : (chromaBits records).length ≤ n
  count : (countBits records).length ≤ n
  colourType : (colourTypeBits records).length ≤ n
  body : (bodyBits records).length ≤ n

theorem StreamsWithin.append {xs ys : List Instr} {m n : Nat} (hx : StreamsWithin xs m) (hy : StreamsWithin ys n) :
    StreamsWithin (xs ++ ys) (m + n) where
  chroma := by rw [chromaBits_append, List.length_append]; exact Nat.add_le_add hx.chroma hy.chroma
  count := by rw [countBits_append, List.length_append]; exact Nat.add_le_add hx.count hy.count
  colourType := by rw [colourTypeBits_append, List.length_append]; exact Nat.add_le_add hx.colourType hy.colourType
  body := by rw [bodyBits_append, List.length_append]; exact Nat.add_le_add hx.body hy.body

/-- A streak's record takes at most a byte per pixel in each stream: 8 bits for one pixel, 16 for more (R105). -/
theorem streamsWithin_streakRecord (table : List Config.NonfavEntry) (pal : List Pixel) {r : Pixel × Nat} (h : 1 ≤ r.2) :
    StreamsWithin [streakRecord table pal r] (8 * r.2) := by
  obtain ⟨col, l⟩ := r
  have hrecord := recordBitsOf_singleton (streakRecord_bits table pal col l)
  dsimp only at h
  refine ⟨?_, ?_, ?_, ?_⟩
  · rw [chromaBits, hrecord, List.length_map, List.length_singleton]; omega
  · rw [countBits, hrecord, List.length_map, List.length_singleton]; omega
  · exact (List.length_filterMap_le _ _).trans (by rw [hrecord, List.length_singleton]; omega)
  · rw [bodyBits, hrecord, List.flatMap_singleton, List.length_append]
    split_ifs <;> simp only [List.length_nil, bitsOf_length] <;> omega

/-- A byte per pixel is enough for the records of any streaks (R190). -/
theorem streamsWithin_recordsOf (s : State) {streaks : List (Pixel × Nat)} (h : ∀ r ∈ streaks, 1 ≤ r.2) :
    StreamsWithin (recordsOf s streaks) (8 * (expand streaks).length) := by
  induction streaks with
  | nil => exact ⟨le_rfl, le_rfl, le_rfl, le_rfl⟩
  | cons r rs ih =>
    obtain ⟨hr, hrs⟩ := List.forall_mem_cons.1 h
    rw [expand_cons, List.length_append, List.length_replicate, Nat.mul_add]
    exact (streamsWithin_streakRecord _ _ hr).append (ih hrs)

/-! ### The state of the scan (R176) -/

/-- `s` inside the scan: the records of the streaks `done` are in the streams, `l` pixels of colour `col` are at hand, `si`
pixels are scanned, and `SC` holds `sc`. -/
def State.scanning (s : State) (done : List (Pixel × Nat)) (col : Pixel) (l si : Nat) (sc : Word) : State :=
  State.withStreams { s with cc := col, rl := BitVec.ofNat 9 l, si := si, sc := sc }
    (chromaBits (recordsOf s done)) (countBits (recordsOf s done)) (colourTypeBits (recordsOf s done))
    (bodyBits (recordsOf s done)) ((recordsOf s done).any isNonFavourite)

/-- `SC` counts `n` records, while that fits its 32 bits (R32; log 6). -/
def CountsTo (sc : Word) (n : Nat) : Prop := n < 2 ^ 32 → sc = BitVec.ofNat 32 n

theorem nextStreakCount_countsTo {s : State} {n : Nat} (h : CountsTo s.sc n) : CountsTo (nextStreakCount s) (n + 1) := by
  intro hlt
  have hsc : s.sc = BitVec.ofNat 32 n := h (by omega)
  have hnum : s.sc.toNat = n := by rw [hsc, BitVec.toNat_ofNat, Nat.mod_eq_of_lt (by omega)]
  rw [nextStreakCount, if_pos (by omega), hsc]
  exact (BitVec.ofNat_add n 1).symm

theorem scanning_rl (s : State) (done : List (Pixel × Nat)) (col : Pixel) {l : Nat} (h : l ≤ 256) (si : Nat) (sc : Word) :
    (s.scanning done col l si sc).rl.toNat = l := by
  show (BitVec.ofNat 9 l).toNat = l
  rw [BitVec.toNat_ofNat, Nat.mod_eq_of_lt (by omega)]

/-- Before its first pixel the scan has one run of no pixels at hand (R176, R38). -/
theorem encodeStart_eq_scanning (s : State) : encodeStart s = s.scanning [] (s.pix.headD 0) 0 0 0 := by
  show _ = State.withStreams _ [] [] [] [] false
  simp only [State.withStreams, writeCursor_nil]
  rfl

/-- The scan on a pixel that lengthens the run at hand. -/
theorem encodeScan_same (cw : Word) (s : State) (done : List (Pixel × Nat)) {col p : Pixel} {l : Nat}
    (h : p = col ∧ l < 256) (ps : List Pixel) (si : Nat) (sc : Word) :
    encodeScan cw (p :: ps) (s.scanning done col l si sc) = encodeScan cw ps (s.scanning done col (l + 1) (si + 1) sc) := by
  have hrl := scanning_rl s done col h.2.le si sc
  have hstep : { s.scanning done col l si sc with
      rl := (s.scanning done col l si sc).rl + 1, si := (s.scanning done col l si sc).si + 1 } =
      s.scanning done col (l + 1) (si + 1) sc := by
    rw [State.scanning, State.scanning, BitVec.ofNat_add]
    rfl
  rw [encodeScan, if_pos ⟨h.1, by rw [hrl]; exact h.2⟩, hstep]

/-- The scan on a pixel that ends the run at hand. -/
theorem encodeScan_new (cw : Word) (s : State) {done done' : List (Pixel × Nat)} {col p : Pixel} {l : Nat} (hl : l ≤ 256)
    (h : ¬ (p = col ∧ l < 256)) (ps : List Pixel) {si : Nat} {sc sc' : Word}
    (hemit : emit cw col l (s.scanning done col l si sc) = .ok () (s.scanning done' col l si sc')) :
    encodeScan cw (p :: ps) (s.scanning done col l si sc) = encodeScan cw ps (s.scanning done' p 1 (si + 1) sc') := by
  have hrl := scanning_rl s done col hl si sc
  have hemit' : emit cw (s.scanning done col l si sc).cc l (s.scanning done col l si sc) = _ := hemit
  rw [encodeScan, if_neg (fun hc => h ⟨hc.1, hrl ▸ hc.2⟩), hrl, hemit']
  rfl

/-- Where the capacity is a byte per pixel, `Emit` (R181) adds one streak to those in the streams. -/
theorem emit_scanning (cw : Word) {s : State} {done : List (Pixel × Nat)} {r : Pixel × Nat} (hr : 1 ≤ r.2)
    (hdone : ∀ q ∈ done, 1 ≤ q.2) (hcol : r.1 = 0 ∨ r.1 ∈ s.pal) (hcap : capAtLeast s (expand (done ++ [r])).length)
    (col : Pixel) (l si : Nat) (sc : Word) :
    emit cw r.1 r.2 (s.scanning done col l si sc) = .ok ()
      (s.scanning (done ++ [r]) col l si (nextStreakCount (s.scanning done col l si sc))) := by
  have hwithin := streamsWithin_recordsOf s hdone
  have hrecord := streamsWithin_streakRecord s.params.nonfav s.pal hr
  rw [expand_append, expand_singleton, List.length_append, List.length_replicate] at hcap
  have hroom : roomForRecord s.params.bufCap (chromaBits (recordsOf s done)) (countBits (recordsOf s done))
      (colourTypeBits (recordsOf s done)) (bodyBits (recordsOf s done))
      (bodyBits [streakRecord s.params.nonfav s.pal r]).length := by
    refine ⟨?_, ?_, ?_, ?_⟩ <;> refine hasRoom_of_le _ _ _ fun b hb => ?_
    · have := hcap b hb; have := hwithin.chroma; omega
    · have := hcap b hb; have := hwithin.count; omega
    · have := hcap b hb; have := hwithin.colourType; omega
    · have := hcap b hb; have := hwithin.body; have := hrecord.body; omega
  have hemit := emit_spec cw r.1 r.2 { s with cc := col, rl := BitVec.ofNat 9 l, si := si, sc := sc } _ _ _ _
    ((recordsOf s done).any isNonFavourite) hr hcol hroom
  refine hemit.trans ?_
  have hone : recordsOf s [r] = [streakRecord s.params.nonfav s.pal r] := rfl
  have hany : (recordsOf s (done ++ [r])).any isNonFavourite =
      ((recordsOf s done).any isNonFavourite || isNonFavourite (streakRecord s.params.nonfav s.pal r)) := by
    rw [recordsOf_append, hone, List.any_append, List.any_cons, List.any_nil, Bool.or_false]
  rw [State.scanning, hany, recordsOf_append, chromaBits_append, countBits_append, colourTypeBits_append,
    bodyBits_append, hone]
  rfl

/-! ### The scan and the final flush (R176, R179) -/

/-- What the scan keeps while the pixels `ps` are still to come. -/
structure ScanInv (s : State) (done : List (Pixel × Nat)) (col : Pixel) (l : Nat) (ps : List Pixel) (sc : Word) : Prop where
  pos : 1 ≤ l
  le : l ≤ 256
  written : ∀ r ∈ done, 1 ≤ r.2
  colours : ∀ p ∈ col :: ps, p = 0 ∨ p ∈ s.pal
  room : capAtLeast s ((expand (done ++ [(col, l)])).length + ps.length)
  count : CountsTo sc done.length

section
variable {s : State} {done : List (Pixel × Nat)} {col p : Pixel} {l : Nat} {ps : List Pixel} {sc : Word}

/-- One more pixel of the colour at hand. -/
theorem ScanInv.extend (h : ScanInv s done col l (p :: ps) sc) (hsame : p = col ∧ l < 256) :
    ScanInv s done col (l + 1) ps sc where
  pos := by omega
  le := by omega
  written := h.written
  colours q hq := h.colours q (by rcases List.mem_cons.1 hq with rfl | hq <;> simp_all)
  room b hb := by
    have := h.room b hb
    simp only [expand_append, expand_singleton, List.length_append, List.length_replicate, List.length_cons] at this ⊢
    omega
  count := h.count

theorem ScanInv.emit (h : ScanInv s done col l ps sc) (cw : Word) (si : Nat) :
    emit cw col l (s.scanning done col l si sc) = .ok ()
      (s.scanning (done ++ [(col, l)]) col l si (nextStreakCount (s.scanning done col l si sc))) :=
  emit_scanning cw (r := (col, l)) h.pos h.written (h.colours col List.mem_cons_self)
    (fun b hb => (Nat.le_add_right _ _).trans (h.room b hb)) col l si sc

/-- A pixel that starts the next streak. -/
theorem ScanInv.next (h : ScanInv s done col l (p :: ps) sc) (si : Nat) :
    ScanInv s (done ++ [(col, l)]) p 1 ps (nextStreakCount (s.scanning done col l si sc)) where
  pos := le_rfl
  le := by decide
  written := by
    intro r hr
    rcases List.mem_append.1 hr with hr | hr
    · exact h.written r hr
    · rw [List.mem_singleton.1 hr]; exact h.pos
  colours q hq := h.colours q (List.mem_cons_of_mem _ hq)
  room b hb := by
    have := h.room b hb
    simp only [expand_append, expand_singleton, List.length_append, List.length_replicate, List.length_cons] at this ⊢
    omega
  count := by
    rw [List.length_append, List.length_singleton]
    exact nextStreakCount_countsTo h.count

end

/-- The scan over the pixels to come, and the flush of the last streak, put the records of all their streaks behind those
already written. -/
theorem encodeScan_flush (cw : Word) {s : State} {done : List (Pixel × Nat)} {col : Pixel} {l : Nat} {ps : List Pixel}
    {sc : Word} (h : ScanInv s done col l ps sc) (si : Nat) :
    ∃ sc', CountsTo sc' (done ++ streaksFrom col l ps).length ∧
      ((encodeScan cw ps (s.scanning done col l si sc)).bind fun _ t => emit cw (ps.getLastD col) t.rl.toNat t) = .ok ()
        (s.scanning (done ++ streaksFrom col l ps) (ps.getLastD col) ((streaksFrom col l ps).getLastD (0, 0)).2
          (si + ps.length) sc') := by
  induction ps generalizing done col l sc si with
  | nil =>
    refine ⟨nextStreakCount (s.scanning done col l si sc), ?_, ?_⟩
    · rw [streaksFrom, List.length_append, List.length_singleton]
      exact nextStreakCount_countsTo h.count
    · rw [encodeScan, Res.bind_ok, scanning_rl s done col h.le]
      exact h.emit cw si
  | cons p ps ih =>
    rw [List.getLastD_cons, List.length_cons, ← Nat.add_assoc, Nat.add_right_comm]
    by_cases hsame : p = col ∧ l < 256
    · rw [encodeScan_same cw s done hsame, streaksFrom_cons_same hsame, hsame.1]
      exact ih (h.extend hsame) (si + 1)
    · rw [encodeScan_new cw s h.le hsame ps (h.emit cw si), streaksFrom_getLastD_cons_new hsame,
        streaksFrom_cons_new hsame, List.append_cons]
      exact ih (h.next si) (si + 1)

/-- `RleEncode()` of a raster that begins with pixel `p` (R176, R177, R179). -/
theorem rleEncode_of_raster (cw : Word) {s : State} (harea : s.pix.length = s.area) {p : Pixel} {ps : List Pixel}
    (hpix : s.pix = p :: ps) :
    rleEncode cw s =
      (encodeScan cw ps (s.scanning [] p 1 1 0)).bind fun _ t => emit cw (ps.getLastD p) t.rl.toNat t := by
  have hne : s.area ≠ 0 := by rw [← harea, hpix]; exact Nat.succ_ne_zero _
  rw [rleEncode, if_neg (not_or.2 ⟨not_not.2 harea, hne⟩), encodeStart_eq_scanning, hpix, List.getLastD_cons,
    List.headD_cons, encodeScan_same cw s [] ⟨rfl, by decide⟩]

/-- Settles O32: the streaks are those the scan cuts off from the first pixel on. -/
theorem rleEncodeWritesMaximalStreaks : Obligations.RleEncodeWritesMaximalStreaks := by
  intro s hfk hcap harea hne hcolours
  obtain ⟨p, ps, hpix⟩ := List.exists_cons_of_ne_nil hne
  have hinv : ScanInv s [] p 1 ps 0 := {
    pos := le_rfl
    le := by decide
    written := by simp
    colours := fun q hq => or_iff_not_imp_left.2 (hcolours q (hpix ▸ hq))
    room := fun b hb => by have := hcap b hb; rw [hpix] at this; simpa [expand, Nat.add_comm] using this
    count := fun _ => rfl }
  obtain ⟨sc, hsc, hrun⟩ := encodeScan_flush Instr.rleEncode.word hinv 1
  rw [List.nil_append] at hsc hrun
  have hlast : ps.getLastD p = s.pix.getLastD 0 := by rw [hpix, List.getLastD_cons]
  have hscanned : 1 + ps.length = s.pix.length := by rw [hpix, List.length_cons, Nat.add_comm]
  rw [← rleEncode_of_raster Instr.rleEncode.word harea hpix, hlast, hscanned] at hrun
  refine ⟨streaksFrom p 1 ps, sc, maximalStreaks_streaksFrom le_rfl (by decide) ps, ?_, hsc, ?_⟩
  · rw [expand_streaksFrom, hpix]
    rfl
  · show command (rleEncode _) s = _
    rw [command_next, if_pos hfk, hrun]
    rfl

end Sys2Proof.Machine

/-! The ten cursor commands in isolation (R130 to R146): what each leaves, in any mode and with or without a fault
standing. -/

namespace Sys2Proof.Machine

/-! ### A standing fault (R271) -/

/-- Settles O11: a word decodes to `RESET`, to another command or to none, and only `RESET` runs while a fault stands. -/
theorem faultIsSticky : Obligations.FaultIsSticky := by
  refine ⟨fun s cw rest hinbox hfk => ?_, fun i s hi hfk => exec_of_fault hi hfk⟩
  rw [step_perform s _ rest hinbox, perform]
  by_cases hcw : cw = 0x01000000#32
  · rw [if_pos hcw, hcw]
    exact issue_decoded 0x01000000#32 .reset _ (by decide)
  · rw [if_neg hcw]
    cases hdec : decode (.command cw) with
    | ok i =>
      rw [issue_decoded cw i _ hdec]
      exact exec_of_fault (by rintro rfl; exact hcw (decode_eq_reset hdec)) hfk
    | error e => rw [issue_illegal cw e _ hdec, if_neg hfk]

/-! ### Opening a context (R140, R141) -/

/-- Settles O15: the prologue of R271, and behind it `OpenR`. -/
theorem openForReadingRewinds : Obligations.OpenForReadingRewinds := fun k s =>
  command_next (fun s => .ok () (openR k s)) s

/-- Settles O16: the prologue of R271, and behind it `OpenW`. -/
theorem openForWritingEmpties : Obligations.OpenForWritingEmpties := fun k s =>
  command_next (fun s => .ok () (openW k s)) s

/-! ### The prologue of a cursor command (R130) -/

section
variable {cw : Word} {legal : Bool} {k : CurId} {mode : Mode} {body : State → Res Unit} {s : State}

theorem checked_refused (h : legal = false ∨ (s.cur k).mode ≠ mode) : checked cw legal k mode body s = refuse cw s := by
  unfold checked
  split_ifs with hlegal hmode
  · rfl
  · rfl
  · exact absurd h (not_or.2 ⟨hlegal, hmode⟩)

theorem checked_run (hlegal : legal = true) (hmode : (s.cur k).mode = mode) : checked cw legal k mode body s = body s := by
  rw [checked, if_neg (by rw [hlegal]; decide), if_neg (not_not.2 hmode)]

theorem readCommand_refused (hfk : s.fk = 0) (h : legal = false ∨ (s.cur k).mode ≠ .reading) :
    readCommand cw legal k body s = .next (s.takeFault .refused 0 0 cw.toNat) := by
  rw [readCommand, command_next, if_pos hfk, checked_refused h, refuse_state]

theorem readCommand_run (hfk : s.fk = 0) (hlegal : legal = true) (hmode : (s.cur k).mode = .reading) :
    readCommand cw legal k body s = .next (body s).state := by
  rw [readCommand, command_next, if_pos hfk, checked_run hlegal hmode]

theorem writeCommand_refused (hfk : s.fk = 0) (h : legal = false ∨ (s.cur k).mode ≠ .writing) :
    writeCommand cw legal k body s = .next (s.takeFault .refused 0 0 cw.toNat) := by
  rw [writeCommand, if_neg, command_next, if_pos hfk, checked_refused h, refuse_state]
  rintro ⟨-, hlegal, hmode, -⟩
  exact h.elim (fun hillegal => Bool.false_ne_true (hillegal.symm.trans hlegal)) (absurd hmode)

theorem writeCommand_run (hfk : s.fk = 0) (hlegal : legal = true) (hmode : (s.cur k).mode = .writing)
    (hle : (s.cur k).byte ≤ (s.cur k).buf.length) : writeCommand cw legal k body s = .next (body s).state := by
  rw [writeCommand, if_neg fun hpast => not_lt.2 hle hpast.2.2.2, command_next, if_pos hfk, checked_run hlegal hmode]

end

theorem bitCountLegal_eq_true {n : BitVec 6} (h : n.toNat ≤ 32) : bitCountLegal n = true := decide_eq_true h

theorem bitCountLegal_eq_false {n : BitVec 6} (h : 32 < n.toNat) : bitCountLegal n = false :=
  decide_eq_false (not_le.2 h)

/-! ### Reading bits into `RES` (R132 to R134) -/

/-- The bits of a buffer from a whole byte on are those of its bytes from there on (R62). -/
theorem bytesBits_drop (buf : List Byte) (a : Nat) : (bytesBits buf).drop (8 * a) = bytesBits (buf.drop a) := by
  induction a generalizing buf with
  | zero => rfl
  | succ a ih =>
    cases buf with
    | nil => rw [List.drop_nil]; exact List.drop_nil
    | cons b bs =>
      rw [Nat.mul_succ, Nat.add_comm, ← List.drop_drop, bytesBits_cons, List.drop_left' (bitsOf_length 8 _), ih,
        List.drop_succ_cons]

theorem bytesBits_take (buf : List Byte) (a : Nat) : (bytesBits buf).take (8 * a) = bytesBits (buf.take a) := by
  refine List.append_cancel_right (bs := (bytesBits buf).drop (8 * a)) ?_
  rw [List.take_append_drop, bytesBits_drop, ← bytesBits_append, List.take_append_drop]

theorem Cursor.pos_of_bit_zero {c : Cursor} (h : c.bit = 0) : c.pos = 8 * c.byte := by
  rw [Cursor.pos, h, Nat.mul_comm]
  rfl

/-- At `bit = 0` the bits ahead are those of the bytes ahead. -/
theorem Cursor.rest_of_bit_zero {c : Cursor} (h : c.bit = 0) : c.rest = bytesBits (c.buf.drop c.byte) := by
  rw [Cursor.rest, c.pos_of_bit_zero h, bytesBits_drop]

/-- At `bit = 0`, `m` bytes on is the same place in another byte. -/
theorem Cursor.at_of_bit_zero {c : Cursor} (h : c.bit = 0) (m : Nat) :
    c.at (c.pos + 8 * m) = { c with byte := c.byte + m } := by
  refine Cursor.ext_pos _ _ rfl ?_ rfl
  rw [Cursor.at_pos, c.pos_of_bit_zero h, Cursor.pos_of_bit_zero (c := { c with byte := c.byte + m }) h, Nat.mul_add]

/-- `n` bits into `RES`, everything it can do. -/
theorem readIntoRes_state (n : Nat) {k : CurId} {s : State} (h : (s.cur k).pos ≤ 8 * (s.cur k).buf.length) :
    (readIntoRes k n s).state =
      if (s.cur k).pos + n ≤ 8 * (s.cur k).buf.length then
        (s.setCur k ((s.cur k).at ((s.cur k).pos + n))).setRes (BitVec.ofNat 32 (valOf ((s.cur k).rest.take n)))
      else (s.setCur k ((s.cur k).at (8 * (s.cur k).buf.length))).takeFault .outOfRange k.num
        (8 * (s.cur k).buf.length) (8 * (s.cur k).buf.length) := by
  rw [readIntoRes, rdBits_cases k n s h, Nat.mul_comm _ 8]
  split_ifs <;> rfl

/-- A bit past the end: nothing is consumed, wherever the position is (R132). -/
theorem readIntoRes_past_end {k : CurId} {s : State} (h : 8 * (s.cur k).buf.length ≤ (s.cur k).pos) :
    (readIntoRes k 1 s).state = s.takeFault .outOfRange k.num (8 * (s.cur k).buf.length) (s.cur k).pos := by
  rw [readIntoRes, rdBits, Cursor.rdBits_past_end h, Nat.mul_comm 8]
  simp only [State.setCur_cur]
  rfl

/-- The one bit a read of one bit answers. -/
theorem Cursor.rest_take_one {c : Cursor} {b : Bool} (h : (bytesBits c.buf)[c.pos]? = some b) : c.rest.take 1 = [b] := by
  rw [Cursor.rest, List.take_one, List.head?_drop, h]
  rfl

theorem Cursor.pos_lt_of_bit {c : Cursor} {b : Bool} (h : (bytesBits c.buf)[c.pos]? = some b) :
    c.pos < 8 * c.buf.length := by
  rw [← bytesBits_length]
  exact (List.getElem?_eq_some_iff.1 h).1

/-- Settles O17: a read of one bit, which has a bit ahead or stands past the end. -/
theorem rdbitReadsOneBit : Obligations.RdbitReadsOneBit := by
  intro k s
  refine ⟨exec_of_fault (by rintro ⟨⟩), fun hfk => ⟨fun b hmode hb => ?_, fun hmode hend => ?_, fun hmode => ?_⟩⟩
  · have hlt := Cursor.pos_lt_of_bit hb
    show readCommand _ true k (readIntoRes k 1) s = _
    rw [readCommand_run hfk rfl hmode, readIntoRes_state 1 hlt.le, if_pos (Nat.succ_le_of_lt hlt), Cursor.rest_take_one hb, valOf_singleton]
    cases b <;> rfl
  · have hpast : 8 * (s.cur k).buf.length ≤ (s.cur k).pos := by rw [Cursor.pos]; omega
    show readCommand _ true k (readIntoRes k 1) s = _
    rw [readCommand_run hfk rfl hmode, readIntoRes_past_end hpast]
    rfl
  · exact readCommand_refused hfk (.inr hmode)

/-- Settles O18: the cases of a read of `n` bits. -/
theorem rdbitsReadsGroup : Obligations.RdbitsReadsGroup := by
  intro k n s hfk hpos
  have hrun (hn : n.toNat ≤ 32) (hmode : (s.cur k).mode = .reading) :
      exec (.rdbits k n) s = .next (readIntoRes k n.toNat s).state :=
    readCommand_run hfk (bitCountLegal_eq_true hn) hmode
  refine ⟨fun hn hmode hin => ?_, fun hn hmode hdry => ?_, fun h => ?_⟩
  · rw [hrun hn hmode, readIntoRes_state _ hpos, if_pos hin]
    rfl
  · rw [hrun hn hmode, readIntoRes_state _ hpos, if_neg (not_le.2 hdry)]
    rfl
  · exact readCommand_refused hfk (h.imp_left bitCountLegal_eq_false)

/-- At `bit = 0` the value of the next eight bits is the byte there. -/
theorem Cursor.valOf_rest_of_bit_zero {c : Cursor} {b : Byte} (hbit : c.bit = 0) (hb : c.buf[c.byte]? = some b) :
    valOf (c.rest.take 8) = b.toNat := by
  have hahead : c.buf.drop c.byte = b :: c.buf.drop (c.byte + 1) := by
    obtain ⟨hlt, rfl⟩ := List.getElem?_eq_some_iff.1 hb
    exact List.drop_eq_getElem_cons hlt
  rw [Cursor.rest_of_bit_zero hbit, hahead, bytesBits_cons, List.take_left' (bitsOf_length 8 _), valOf_bitsOf,
    Nat.mod_eq_of_lt b.isLt]

/-- Settles O19: the cases of a read of eight bits, which at `bit = 0` are one byte. -/
theorem rdbyteReadsEightBits : Obligations.RdbyteReadsEightBits := by
  intro k s hfk hpos
  have hrun (hmode : (s.cur k).mode = .reading) : exec (.rdbyte k) s = .next (readIntoRes k 8 s).state :=
    readCommand_run hfk rfl hmode
  refine ⟨fun hmode hin => ?_, fun b hmode hbit hb => ?_, fun hmode hdry => ?_, fun hmode => ?_⟩
  · rw [hrun hmode, readIntoRes_state _ hpos, if_pos hin]
    rfl
  · have hlt : (s.cur k).byte < (s.cur k).buf.length := (List.getElem?_eq_some_iff.1 hb).1
    have hin : (s.cur k).pos + 8 ≤ 8 * (s.cur k).buf.length := by rw [Cursor.pos_of_bit_zero hbit]; omega
    rw [hrun hmode, readIntoRes_state _ hpos, if_pos hin, Cursor.valOf_rest_of_bit_zero hbit hb,
      Cursor.at_of_bit_zero hbit 1, BitVec.ofNat_toNat]
    rfl
  · rw [hrun hmode, readIntoRes_state _ hpos, if_neg (not_le.2 hdry)]
    rfl
  · exact readCommand_refused hfk (.inr hmode)

/-! ### Reading bytes into `XB` (R135) -/

/-- Settles O20: the cases of the reads of `OPD` bytes, which at `bit = 0` are a slice of the buffer. -/
theorem rdbytesFillsTransferBuffer : Obligations.RdbytesFillsTransferBuffer := by
  intro k s hfk hpos
  have hrun (hmode : (s.cur k).mode = .reading) : exec (.rdbytes k) s =
      .next ((rdBytes k s.opd.toNat s).bind fun t s => .ok () (s.setXb t)).state := readCommand_run hfk rfl hmode
  have hwhole (hmode : (s.cur k).mode = .reading) (hin : (s.cur k).pos + 8 * s.opd.toNat ≤ 8 * (s.cur k).buf.length) :
      exec (.rdbytes k) s = .next ((s.setCur k ((s.cur k).at ((s.cur k).pos + 8 * s.opd.toNat))).setXb
        (packBits ((s.cur k).rest.take (8 * s.opd.toNat)))) := by
    rw [hrun hmode, rdBytes_cases k _ s hpos, if_pos hin]
    rfl
  refine ⟨hwhole, fun hmode hbit hin => ?_, fun hmode hdry => ?_, fun hmode => ?_⟩
  · rw [hwhole hmode (by rw [Cursor.pos_of_bit_zero hbit]; omega), Cursor.at_of_bit_zero hbit,
      Cursor.rest_of_bit_zero hbit, bytesBits_take, packBits_bytesBits]
    rfl
  · rw [hrun hmode, rdBytes_cases k _ s hpos, if_neg (not_le.2 hdry), Nat.mul_comm _ 8]
    rfl
  · exact readCommand_refused hfk (.inr hmode)

end Sys2Proof.Machine


/-! The four cursor write commands (R136 to R139, R146): on a context that its written bits determine they append, as far
as the capacity goes. -/

namespace Sys2Proof.Machine

/-! ### Appending a bit sequence (R144(a), R146) -/

theorem writeCursor_byte_le (bits : List Bool) : (writeCursor bits).byte ≤ (writeCursor bits).buf.length :=
  Cursor.byte_le_of_wf (Cursor.wf_writeCursor bits)

section
variable {cw : Word} {legal : Bool} {k : CurId} {bits : List Bool} {s : State} (vs : State → List Bool)

/-- A write command whose bits all fit. -/
theorem writeCommand_fits (hfk : s.fk = 0) (hlegal : legal = true) (hcur : s.cur k = writeCursor bits)
    (hroom : roomFor s.params.bufCap bits.length (vs s).length = (vs s).length) :
    writeCommand cw legal k (fun s => wrSeq cw k (vs s) s) s = .next (s.setCur k (writeCursor (bits ++ vs s))) := by
  rw [writeCommand_run hfk hlegal (by rw [hcur]; rfl) (hcur ▸ writeCursor_byte_le bits), wrSeq_cases cw k _ bits s hcur,
    if_pos hroom, Res.state_ok]

/-- A write command cut short by the capacity. -/
theorem writeCommand_cut (hfk : s.fk = 0) (hlegal : legal = true) (hcur : s.cur k = writeCursor bits)
    (hroom : roomFor s.params.bufCap bits.length (vs s).length < (vs s).length) :
    writeCommand cw legal k (fun s => wrSeq cw k (vs s) s) s =
      .next ((s.setCur k (writeCursor
        (bits ++ (vs s).take (roomFor s.params.bufCap bits.length (vs s).length)))).takeFault .refused 0 0 cw.toNat) := by
  rw [writeCommand_run hfk hlegal (by rw [hcur]; rfl) (hcur ▸ writeCursor_byte_le bits), wrSeq_cases cw k _ bits s hcur,
    if_neg hroom.ne, refuse_state]

end

/-! ### `WRBIT` (R136) -/

/-- The bits of a buffer are its bytes. -/
theorem bytesBits_injective : Function.Injective bytesBits := Function.LeftInverse.injective packBits_bytesBits

/-- Writing a bit, then advancing, in terms of the buffer's bits (R136). -/
theorem Cursor.putBit_eq {c : Cursor} (v : Bool) (hlt : c.byte < c.buf.length) :
    c.putBit v = { c.at (c.pos + 1) with buf := packBits ((bytesBits c.buf).set c.pos v) } := by
  have hpos : c.pos = 8 * c.byte + c.bit.val := by rw [Cursor.pos, Nat.mul_comm]
  have hbits : bytesBits (c.putBit v).buf = (bytesBits c.buf).set c.pos v := by
    refine List.ext_getElem? fun p => ?_
    have hbit := c.bit.isLt
    rw [Cursor.putBit_buf, bytesBits_modify, List.getElem?_set, bytesBits_length, ← hpos]
    by_cases hp : p = c.pos
    · rw [if_pos ⟨hp, hlt⟩, if_pos hp.symm, if_pos (by omega)]
    · rw [if_neg fun h => hp h.1, if_neg (Ne.symm hp)]
  refine Cursor.ext_pos _ _ ?_ ((c.putBit_pos v).trans (c.at_pos _).symm) (c.putBit_mode v)
  rw [← hbits, packBits_bytesBits]

/-- A bit written inside an existing byte (R136). -/
theorem wrSeq_overwrite (cw : Word) {k : CurId} (v : Bool) {s : State} (hlt : (s.cur k).byte < (s.cur k).buf.length) :
    wrSeq cw k [v] s = .ok () (s.setCur k ((s.cur k).putBit v)) := by
  rw [wrSeq, Cursor.wrSeq, Cursor.wrBit, if_pos hlt]
  rfl

theorem bitsOf_one_toNat (v : Bool) : bitsOf 1 v.toNat = [v] := by cases v <;> rfl

/-- Settles O21: one bit appended where it fits, or written into a byte that is there already. -/
theorem wrbitWritesOneBit : Obligations.WrbitWritesOneBit := by
  intro k v s hfk
  have hexec : exec (.wrbit k v) s =
      writeCommand (Instr.wrbit k v).word true k (fun s => wrSeq (Instr.wrbit k v).word k [v] s) s := by
    rw [← bitsOf_one_toNat v]
    rfl
  refine ⟨fun bits hcur hroom => ?_, fun bits hcur hroom => ?_, fun hmode hlt => ?_, fun hmode => ?_⟩
  · rw [hexec, writeCommand_fits (fun _ => [v]) hfk rfl hcur hroom]
  · rw [hexec, writeCommand_cut (fun _ => [v]) hfk rfl hcur (by rw [List.length_singleton, hroom]; decide),
      List.length_singleton, hroom, List.take_zero, List.append_nil, ← hcur, State.setCur_cur]
    rfl
  · rw [hexec, writeCommand_run hfk rfl hmode hlt.le, wrSeq_overwrite _ v hlt, Cursor.putBit_eq v hlt, Res.state_ok]
  · exact writeCommand_refused hfk (.inr hmode)

/-! ### `WRBITS`, `WRBYTE` and `WRBYTES` (R137 to R139) -/

/-- Settles O22: the low bits of `OPD` appended, as far as they fit. -/
theorem wrbitsAppendsLowBits : Obligations.WrbitsAppendsLowBits := by
  intro k n s hfk
  have hlen := bitsOf_length n.toNat s.opd.toNat
  refine ⟨fun bits hn hcur hroom => ?_, fun bits hn hcur hroom => ?_, fun h => ?_⟩
  · exact writeCommand_fits (fun s => bitsOf n.toNat s.opd.toNat) hfk (bitCountLegal_eq_true hn) hcur (by rwa [hlen])
  · have hcut := writeCommand_cut (cw := (Instr.wrbits k n).word) (fun s => bitsOf n.toNat s.opd.toNat) hfk
      (bitCountLegal_eq_true hn) hcur (by rwa [hlen])
    rw [hlen] at hcut
    exact hcut
  · exact writeCommand_refused hfk (h.imp_left bitCountLegal_eq_false)

/-- Whole bytes already written are followed by exactly the byte appended. -/
theorem packBits_append_byte {bits : List Bool} (h : bits.length % 8 = 0) (b : Byte) :
    packBits (bits ++ bitsOf 8 b.toNat) = packBits bits ++ [b] := by
  have hbits : bytesBits (packBits bits) = bits := by
    rw [bytesBits_packBits, show 8 * ceil8 bits.length - bits.length = 0 by simp only [ceil8]; omega]
    exact List.append_nil _
  have hbyte : bytesBits [b] = bitsOf 8 b.toNat := List.append_nil _
  rw [← packBits_bytesBits (packBits bits ++ [b]), bytesBits_append, hbits, hbyte]

/-- Settles O23: the eight bits of a byte appended, as far as they fit. -/
theorem wrbyteAppendsByte : Obligations.WrbyteAppendsByte := by
  intro k b s hfk
  refine ⟨fun bits hcur hroom => ⟨?_, fun haligned => ?_⟩, fun bits hcur hroom => ?_, fun hmode => ?_⟩
  · exact writeCommand_fits (fun _ => bitsOf 8 b.toNat) hfk rfl hcur hroom
  · rw [hcur]
    exact packBits_append_byte haligned b
  · exact writeCommand_cut (fun _ => bitsOf 8 b.toNat) hfk rfl hcur hroom
  · exact writeCommand_refused hfk (.inr hmode)

/-- Settles O24: the bits of the bytes of `XB` appended, as far as they fit. -/
theorem wrbytesAppendsTransferBuffer : Obligations.WrbytesAppendsTransferBuffer := by
  intro k s hfk
  have hlen := bytesBits_length s.xb
  have hexec : exec (.wrbytes k) s =
      writeCommand (Instr.wrbytes k).word true k (fun s => wrSeq (Instr.wrbytes k).word k (bytesBits s.xb) s) s := by
    simp only [← groupBits_byteGroups]
    rfl
  refine ⟨fun bits hcur hroom => ?_, fun bits hcur hroom => ?_, fun hmode => ?_⟩
  · rw [hexec]
    exact writeCommand_fits (fun s => bytesBits s.xb) hfk rfl hcur (by rwa [hlen])
  · have hcut := writeCommand_cut (cw := (Instr.wrbytes k).word) (fun s => bytesBits s.xb) hfk rfl hcur (by rwa [hlen])
    rw [hlen] at hcut
    rw [hexec]
    exact hcut
  · exact writeCommand_refused hfk (.inr hmode)

end Sys2Proof.Machine

/-! What was written reads back (R144(b)). -/

namespace Sys2Proof.Machine

/-- The bits a read of at most 32 bits leaves in `RES`. -/
theorem bitsOf_resultWord {l : List Bool} {n : Nat} (hlen : l.length = n) (hn : n ≤ 32) :
    bitsOf n (BitVec.ofNat 32 (valOf l)).toNat = l := by
  rw [bitsOf_ofNat 32 n _ hn, ← hlen, bitsOf_valOf]

/-- Groups that are all there are read in order, and the context stands behind them. -/
theorem readGroups_whole {k : CurId} {ns : List (BitVec 6)} (hns : ∀ n ∈ ns, n.toNat ≤ 32) {s : State} (hfk : s.fk = 0)
    (hmode : (s.cur k).mode = .reading)
    (hin : (s.cur k).pos + (ns.map (·.toNat)).sum ≤ 8 * (s.cur k).buf.length) :
    ∃ u, readGroups k ns s = some ((s.cur k).rest.take (ns.map (·.toNat)).sum, u) ∧ u.fk = 0 ∧
      u.cur k = (s.cur k).at ((s.cur k).pos + (ns.map (·.toNat)).sum) := by
  induction ns generalizing s with
  | nil => exact ⟨s, rfl, hfk, (Cursor.at_self _).symm⟩
  | cons n ns ih =>
    obtain ⟨hn, hrest⟩ := List.forall_mem_cons.1 hns
    rw [List.map_cons, List.sum_cons] at hin ⊢
    obtain ⟨t, ht⟩ : ∃ t, t = (s.setCur k ((s.cur k).at ((s.cur k).pos + n.toNat))).setRes
        (BitVec.ofNat 32 (valOf ((s.cur k).rest.take n.toNat))) := ⟨_, rfl⟩
    have hexec : exec (.rdbits k n) s = .next t := by
      rw [ht]
      exact (rdbitsReadsGroup k n s hfk (by omega)).1 hn hmode (by omega)
    have hcur : t.cur k = (s.cur k).at ((s.cur k).pos + n.toNat) := by rw [ht, State.setRes_cur, State.cur_setCur_same]
    have hres : bitsOf n.toNat t.res.toNat = (s.cur k).rest.take n.toNat := by
      rw [ht, State.setRes_res]
      refine bitsOf_resultWord ?_ hn
      rw [List.length_take, Cursor.rest, List.length_drop, bytesBits_length]
      omega
    have hahead : (t.cur k).rest = (s.cur k).rest.drop n.toNat := by
      rw [hcur, Cursor.rest, Cursor.rest, List.drop_drop, Cursor.at_pos, Cursor.at_buf]
    obtain ⟨u, hgroups, hufk, hucur⟩ := ih hrest (s := t) (by rw [ht, State.setRes_fk, State.setCur_fk, hfk])
      (by rw [hcur]; exact hmode) (by rw [hcur, Cursor.at_pos, Cursor.at_buf]; omega)
    refine ⟨u, ?_, hufk, ?_⟩
    · rw [readGroups, hexec]
      dsimp only
      rw [hgroups, Option.map_some, hres, hahead, List.take_add]
    · rw [hucur, hcur, Cursor.at_at, Cursor.at_pos, Nat.add_assoc]

/-- Settles O27: the rewound context holds the written bits and the padding, and the groups read them off it. -/
theorem writtenBitsReadBack : Obligations.WrittenBitsReadBack := by
  intro k bits s t ns hfk hcur hns hsum hopen
  obtain ⟨c, hc⟩ : ∃ c, c = (s.cur k).openR := ⟨_, rfl⟩
  obtain rfl : t = s.setCur k c := by
    rw [openForReadingRewinds k s, if_pos hfk] at hopen
    rw [hc]
    exact (Host.Outcome.next.inj hopen).symm
  have hpos : c.pos = 0 := by rw [hc]; rfl
  have hmode : c.mode = .reading := by rw [hc]; rfl
  have hbuf : c.buf = packBits bits := by rw [hc, hcur]; rfl
  have hlen : c.buf.length = ceil8 bits.length := by rw [hbuf, packBits_length]
  have hbits : c.rest = bits ++ List.replicate (8 * ceil8 bits.length - bits.length) false := by
    rw [Cursor.rest, hpos, hbuf, bytesBits_packBits, List.drop_zero]
  obtain ⟨u, hgroups, hufk, hucur⟩ := readGroups_whole hns (k := k) (s := s.setCur k c) (by rw [State.setCur_fk, hfk])
    (by rw [State.cur_setCur_same, hmode]) (by rw [State.cur_setCur_same, hpos, hlen, Nat.zero_add]; exact hsum)
  rw [State.cur_setCur_same] at hgroups hucur
  rw [hbits] at hgroups
  refine ⟨u, hgroups, hufk, fun hall => ?_⟩
  have hupos : (u.cur k).pos = 8 * ceil8 bits.length := by rw [hucur, Cursor.at_pos, hpos, Nat.zero_add, hall]
  have hulen : (u.cur k).buf.length = ceil8 bits.length := by rw [hucur, Cursor.at_buf, hlen]
  have hubyte := (u.cur k).byte_eq
  have hend := ((rdbitReadsOneBit k u).2 hufk).2.1 (by rw [hucur, Cursor.at_mode, hmode]) (by omega)
  rw [hupos, hulen] at hend
  exact hend

end Sys2Proof.Machine


/-! `RLE_ENCODE` under a bounded capacity (R146): a run that is not refused stays within it, and is the run the unbounded
capacity gives. The maximal streaks of a raster are unique, so that run has written the records of any of them. -/

namespace Sys2Proof.Machine

/-! ### The maximal streaks of a raster (R187, R189(c)) -/

theorem MaximalStreaks.tail {r : Pixel × Nat} {rs : List (Pixel × Nat)} (h : MaximalStreaks (r :: rs)) :
    MaximalStreaks rs :=
  ⟨fun q hq => h.1 q (List.mem_cons_of_mem _ hq), h.2.tail⟩

/-- Before a pixel of its own colour a streak ends at length 256 only. -/
theorem MaximalStreaks.length_of_same {r : Pixel × Nat} {rs : List (Pixel × Nat)} (h : MaximalStreaks (r :: rs))
    {ps : List Pixel} (hnext : expand rs = r.1 :: ps) : r.2 = 256 := by
  cases rs with
  | nil => cases hnext
  | cons q qs =>
    obtain ⟨hlengths, hchain⟩ := h
    obtain ⟨n, hn⟩ := Nat.exists_eq_add_of_lt (hlengths q (by simp)).1
    rw [expand_cons, hn, List.replicate_succ] at hnext
    exact (List.isChain_cons_cons.1 hchain).1 (List.cons.inj hnext).1.symm

/-- Of two maximal streaks at the same place none is longer. -/
theorem MaximalStreaks.head_le {col : Pixel} {m n : Nat} {xs ys : List (Pixel × Nat)} (hx : MaximalStreaks ((col, m) :: xs))
    (hy : MaximalStreaks ((col, n) :: ys)) (h : expand ((col, m) :: xs) = expand ((col, n) :: ys)) : n ≤ m := by
  by_contra hlt
  obtain ⟨d, rfl⟩ := Nat.exists_eq_add_of_lt (not_le.1 hlt)
  rw [expand_cons, expand_cons, Nat.add_assoc, List.replicate_add, List.append_assoc, List.replicate_succ] at h
  have hm : m = 256 := hx.length_of_same (List.append_cancel_left h)
  have hn : m + d + 1 ≤ 256 := (hy.1 _ List.mem_cons_self).2
  omega

/-- A raster has one sequence of maximal streaks. -/
theorem MaximalStreaks.unique {xs ys : List (Pixel × Nat)} (hx : MaximalStreaks xs) (hy : MaximalStreaks ys)
    (h : expand xs = expand ys) : xs = ys := by
  have begins (r : Pixel × Nat) (rs : List (Pixel × Nat)) (hr : MaximalStreaks (r :: rs)) :
      ∃ ps, expand (r :: rs) = r.1 :: ps := by
    obtain ⟨n, hn⟩ := Nat.exists_eq_add_of_lt (hr.1 r List.mem_cons_self).1
    exact ⟨_, by rw [expand_cons, hn, List.replicate_succ]; rfl⟩
  induction xs generalizing ys with
  | nil =>
    cases ys with
    | nil => rfl
    | cons r rs => obtain ⟨ps, hps⟩ := begins r rs hy; rw [hps] at h; cases h
  | cons q qs ih =>
    cases ys with
    | nil => obtain ⟨ps, hps⟩ := begins q qs hx; rw [hps] at h; cases h
    | cons r rs =>
      obtain ⟨ps, hps⟩ := begins q qs hx
      obtain ⟨ps', hps'⟩ := begins r rs hy
      obtain ⟨col, m⟩ := q
      obtain ⟨col', n⟩ := r
      obtain rfl : col = col' := (List.cons.inj (hps.symm.trans (h.trans hps'))).1
      obtain rfl : m = n := le_antisymm (hy.head_le hx h.symm) (hx.head_le hy h)
      rw [ih hx.tail hy.tail (List.append_cancel_left h)]

/-! ### A run within the capacity (R146) -/

/-- `s` with `BUF_CAP` unbounded. -/
def State.unbounded (s : State) : State := { s with params := { s.params with bufCap := none } }

@[simp] theorem State.unbounded_cur (s : State) (k : CurId) : s.unbounded.cur k = s.cur k := by cases k <;> rfl

@[simp] theorem State.unbounded_setCur (s : State) (k : CurId) (c : Cursor) :
    (s.setCur k c).unbounded = s.unbounded.setCur k c := by cases k <;> rfl

/-- `BUF_CAP` is `b`, and the four streams keep to it. -/
structure StreamsFit (b : Nat) (s : State) : Prop where
  cap : s.params.bufCap = some b
  streams : ∀ k, k ≠ .fr → (s.cur k).buf.length ≤ b

theorem StreamsFit.setCur {b : Nat} {s : State} (h : StreamsFit b s) (k : CurId) {c : Cursor} (hc : c.buf.length ≤ b) :
    StreamsFit b (s.setCur k c) where
  cap := by rw [State.setCur_params, h.cap]
  streams j hj := by
    by_cases hjk : j = k
    · rw [hjk, State.cur_setCur_same]; exact hc
    · rw [State.cur_setCur_ne _ _ _ _ hjk]; exact h.streams j hj

/-- A bit that fits is written as it is without a bound, and the buffer keeps to the bound. -/
theorem Cursor.wrBit_fits {b : Nat} {v : Bool} {c d : Cursor} (h : c.wrBit (some b) v = some d) (hc : c.buf.length ≤ b) :
    c.wrBit none v = some d ∧ d.buf.length ≤ b := by
  by_cases hlt : c.byte < c.buf.length
  · rw [Cursor.wrBit, if_pos hlt] at h ⊢
    cases h
    exact ⟨rfl, by rw [Cursor.putBit_buf, List.length_modify]; exact hc⟩
  · rw [Cursor.wrBit, if_neg hlt] at h ⊢
    by_cases hfull : b ≤ c.buf.length
    · rw [if_pos (show atCapacity (some b) c.buf.length = true from decide_eq_true hfull)] at h
      cases h
    · rw [if_neg (show ¬ atCapacity (some b) c.buf.length = true from fun hcap => hfull (of_decide_eq_true hcap))] at h
      cases h
      refine ⟨rfl, ?_⟩
      rw [Cursor.putBit_buf, List.length_modify, List.length_append]
      exact not_le.1 hfull

theorem Cursor.wrSeq_fits {b : Nat} {vs : List Bool} {c d : Cursor} (h : c.wrSeq (some b) vs = (true, d))
    (hc : c.buf.length ≤ b) : c.wrSeq none vs = (true, d) ∧ d.buf.length ≤ b := by
  induction vs generalizing c with
  | nil => cases h; exact ⟨rfl, hc⟩
  | cons v vs ih =>
    rw [Cursor.wrSeq] at h ⊢
    cases hw : c.wrBit (some b) v with
    | none => rw [hw] at h; cases h
    | some e =>
      obtain ⟨hnone, he⟩ := Cursor.wrBit_fits hw hc
      rw [hw] at h
      rw [hnone]
      exact ih h he

/-- A part of a command run with `BUF_CAP = b` and without a bound: the bounded run is refused, or both go on alike and the
streams keep to the bound. -/
inductive RunsWithin {α : Type} (cw : Word) (b : Nat) : Res α → Res α → Prop
  | ok (a : α) (s : State) (h : StreamsFit b s) : RunsWithin cw b (.ok a s) (.ok a s.unbounded)
  | refused (s : State) (r : Res α) : RunsWithin cw b (refuse cw s) r

section
variable {cw : Word} {b : Nat}

theorem RunsWithin.refused_or_ok {α : Type} {r r' : Res α} (h : RunsWithin cw b r r') :
    (∃ s, r = refuse cw s) ∨ ∃ a s, r = .ok a s ∧ r' = .ok a s.unbounded ∧ StreamsFit b s := by
  cases h with
  | ok a s h => exact .inr ⟨a, s, rfl, rfl, h⟩
  | refused s r => exact .inl ⟨s, rfl⟩

theorem RunsWithin.bind {α β : Type} {r r' : Res α} {f f' : α → State → Res β} (hr : RunsWithin cw b r r')
    (hf : ∀ a s, StreamsFit b s → RunsWithin cw b (f a s) (f' a s.unbounded)) :
    RunsWithin cw b (r.bind f) (r'.bind f') := by
  cases hr with
  | ok a s h => exact hf a s h
  | refused s r => exact .refused s _

theorem RunsWithin.wrSeq {k : CurId} (hk : k ≠ .fr) (bits : List Bool) {s : State} (h : StreamsFit b s) :
    RunsWithin cw b (wrSeq cw k bits s) (wrSeq cw k bits s.unbounded) := by
  unfold Machine.wrSeq
  rw [h.cap]
  split <;> rename_i c hwritten
  · obtain ⟨hnone, hc⟩ := Cursor.wrSeq_fits hwritten (h.streams k hk)
    have hfree : (s.unbounded.cur k).wrSeq s.unbounded.params.bufCap bits = (true, c) := by
      rw [State.unbounded_cur]
      exact hnone
    rw [hfree]
    dsimp only
    rw [← State.unbounded_setCur]
    exact .ok _ _ (h.setCur k hc)
  · exact .refused _ _

theorem RunsWithin.emitColour (col : Pixel) {s : State} (h : StreamsFit b s) :
    RunsWithin cw b (emitColour cw col s) (emitColour cw col s.unbounded) := by
  unfold Machine.emitColour
  rw [show s.unbounded.pal = s.pal from rfl]
  split
  · exact .refused _ _
  · refine .bind (.wrSeq (by decide) _ h) fun _ t ht => ?_
    split
    · exact .wrSeq (by decide) _ ht
    · exact .wrSeq (s := { t with nf := true }) (by decide) _ ⟨ht.cap, ht.streams⟩

theorem RunsWithin.emit (col : Pixel) (l : Nat) {s : State} (h : StreamsFit b s) :
    RunsWithin cw b (emit cw col l s) (emit cw col l s.unbounded) := by
  refine .bind (.wrSeq (by decide) _ h) fun _ t ht => .bind (.wrSeq (by decide) _ ht) fun _ t ht => ?_
  refine .bind ?length fun _ t ht => .bind ?colour fun _ t ht => .ok _ { t with sc := _ } ⟨ht.cap, ht.streams⟩
  case length =>
    split
    · exact .wrSeq (by decide) _ ht
    · exact .ok _ _ ht
  case colour =>
    split
    · exact .emitColour col ht
    · exact .ok _ _ ht

theorem RunsWithin.encodeScan (ps : List Pixel) {s : State} (h : StreamsFit b s) :
    RunsWithin cw b (encodeScan cw ps s) (encodeScan cw ps s.unbounded) := by
  induction ps generalizing s with
  | nil => exact .ok _ _ h
  | cons p ps ih =>
    unfold Machine.encodeScan
    rw [show s.unbounded.cc = s.cc from rfl, show s.unbounded.rl = s.rl from rfl]
    split
    · exact ih (s := { s with rl := s.rl + 1, si := s.si + 1 }) ⟨h.cap, h.streams⟩
    · exact .bind (.emit _ _ h) fun _ t ht => ih (s := { t with cc := p, rl := 1, si := t.si + 1 }) ⟨ht.cap, ht.streams⟩

theorem RunsWithin.rleEncode {s : State} (hcap : s.params.bufCap = some b) :
    RunsWithin cw b (rleEncode cw s) (rleEncode cw s.unbounded) := by
  have hstart : StreamsFit b (encodeStart s) :=
    ⟨hcap, fun k hk => by cases k <;> first | exact absurd rfl hk | exact Nat.zero_le b⟩
  unfold Machine.rleEncode
  rw [show s.unbounded.pix = s.pix from rfl, show s.unbounded.area = s.area from rfl]
  split
  · exact .refused _ _
  · exact .bind (.encodeScan _ hstart) fun _ t ht => .emit _ _ ht

end

/-! ### A run that is not refused meets no foreign colour (R184) -/

theorem Res.bind_eq_ok {α β : Type} {r : Res α} {f : α → State → Res β} {c : β} {t : State} (h : r.bind f = .ok c t) :
    ∃ a u, r = .ok a u ∧ f a u = .ok c t := by
  cases r with
  | ok a u => exact ⟨a, u, rfl, h⟩
  | raised u => cases h

theorem EncodeKeeps.pal {s t : State} (h : EncodeKeeps s t) : t.pal = s.pal := by
  unfold EncodeKeeps at h
  rw [h]

/-- A part of the encoder that goes on keeps the palette. -/
theorem pal_of_ok {α : Type} {r : Res α} {s t : State} {a : α} (hkeeps : EncodeKeeps s r.state) (h : r = .ok a t) :
    t.pal = s.pal := by
  rw [h] at hkeeps
  exact hkeeps.pal

theorem emit_ok_colour {cw : Word} {col : Pixel} {l : Nat} {s t : State} {a : Unit} (h : emit cw col l s = .ok a t) :
    col = 0 ∨ col ∈ s.pal := by
  refine or_iff_not_imp_left.2 fun hcol => ?_
  obtain ⟨_, u, hu, h⟩ := Res.bind_eq_ok h
  obtain ⟨_, v, hv, h⟩ := Res.bind_eq_ok h
  obtain ⟨_, w, hw, h⟩ := Res.bind_eq_ok h
  obtain ⟨_, x, hx, -⟩ := Res.bind_eq_ok h
  have hchroma : chromaFlag col = true := decide_eq_true hcol
  rw [if_pos hchroma, emitColour, palPos_spec] at hx
  have hmem : col ∈ w.pal := by
    by_contra hforeign
    rw [if_neg hforeign] at hx
    cases hx
  have hlength : EncodeKeeps v
      (if countFlag l then wrBits cw .bd Config.lenBits (payloadOfLength l) v else .ok () v : Res Unit).state := by
    split
    · exact wrBits_encodeKeeps _ _ _ _ v (by decide)
    · exact EncodeKeeps.same v
  rwa [pal_of_ok hlength hw, pal_of_ok (wrBits_encodeKeeps _ _ _ _ u (by decide)) hv,
    pal_of_ok (wrBits_encodeKeeps _ _ _ _ s (by decide)) hu] at hmem

/-- The scan emits every colour but that of the last run, which is still at hand when it ends. -/
theorem encodeScan_ok_colours {cw : Word} {ps : List Pixel} {s t : State} {a : Unit} (h : encodeScan cw ps s = .ok a t) :
    t.pal = s.pal ∧ ∀ p ∈ s.cc :: ps, p = 0 ∨ p ∈ s.pal ∨ p = ps.getLastD s.cc := by
  refine ⟨pal_of_ok (encodeScan_encodeKeeps cw ps s) h, ?_⟩
  induction ps generalizing s with
  | nil => exact fun p hp => .inr (.inr (List.mem_singleton.1 hp))
  | cons p ps ih =>
    rw [List.getLastD_cons]
    unfold encodeScan at h
    split at h
    · rename_i hsame
      have hps := ih h
      dsimp only at hps
      rw [← hsame.1] at hps ⊢
      exact List.forall_mem_cons.2 ⟨hps p List.mem_cons_self, hps⟩
    · obtain ⟨_, u, hemit, hscan⟩ := Res.bind_eq_ok h
      have hps := ih hscan
      dsimp only at hps
      rw [pal_of_ok (emit_encodeKeeps cw _ _ s) hemit] at hps
      exact List.forall_mem_cons.2 ⟨(emit_ok_colour hemit).imp_right .inl, hps⟩

/-- `RleEncode()` that goes on has a raster of pixels of the palette (R177, R184). -/
theorem rleEncode_ok_raster {cw : Word} {s t : State} {a : Unit} (h : rleEncode cw s = .ok a t) :
    s.pix ≠ [] ∧ ∀ p ∈ s.pix, p ≠ 0 → p ∈ s.pal := by
  unfold rleEncode at h
  split at h
  · cases h
  · rename_i hraster
    obtain ⟨hlen, harea⟩ := not_or.1 hraster
    obtain ⟨p, ps, hpix⟩ : ∃ p ps, s.pix = p :: ps :=
      List.exists_cons_of_ne_nil fun hnil => harea (by rw [← not_not.1 hlen, hnil]; rfl)
    obtain ⟨_, u, hscan, hemit⟩ := Res.bind_eq_ok h
    obtain ⟨hupal, hcolours⟩ := encodeScan_ok_colours hscan
    have hlast := emit_ok_colour hemit
    rw [hupal] at hlast
    refine ⟨hpix ▸ List.cons_ne_nil p ps, fun q hq h0 => ?_⟩
    rcases hcolours q (List.mem_cons_of_mem _ hq) with hzero | hmem | rfl
    · exact absurd hzero h0
    · exact hmem
    · have hsame : s.pix.getLastD (encodeStart s).cc = s.pix.getLastD 0 := by
        rw [hpix, List.getLastD_cons, List.getLastD_cons]
      rw [hsame] at h0 ⊢
      exact hlast.resolve_left h0

/-! ### The refusal (R146, R264) -/

/-- A run that goes on under `BUF_CAP = b` has written the records of the raster's maximal streaks, within that bound. -/
theorem rleEncode_ok_streams {b : Nat} {s u : State} (hfk : s.fk = 0) (hlen : s.pix.length = s.w.toNat * s.h.toNat)
    {streaks : List (Pixel × Nat)} (hmax : MaximalStreaks streaks) (hexpand : expand streaks = s.pix) {a : Unit}
    (hok : rleEncode Instr.rleEncode.word s = .ok a u) (hfree : rleEncode Instr.rleEncode.word s.unbounded = .ok a u.unbounded)
    (hfits : StreamsFit b u) :
    ceil8 (chromaBits (recordsOf s streaks)).length ≤ b ∧ ceil8 (countBits (recordsOf s streaks)).length ≤ b ∧
      ceil8 (colourTypeBits (recordsOf s streaks)).length ≤ b ∧ ceil8 (bodyBits (recordsOf s streaks)).length ≤ b := by
  obtain ⟨hne, hcolours⟩ := rleEncode_ok_raster hok
  obtain ⟨streaks', sc, hmax', hexpand', -, hexec⟩ :=
    rleEncodeWritesMaximalStreaks s.unbounded hfk nofun hlen hne hcolours
  obtain rfl : streaks = streaks' := hmax.unique hmax' (hexpand.trans hexpand'.symm)
  have hrun : exec .rleEncode s.unbounded = .next u.unbounded :=
    (command_next _ s.unbounded).trans (by rw [if_pos (show s.unbounded.fk = 0 from hfk), hfree, Res.state_ok])
  have hu := Host.Outcome.next.inj (hrun.symm.trans hexec)
  have hstream (k : CurId) (hk : k ≠ .fr) {bits : List Bool} (hcur : u.unbounded.cur k = writeCursor bits) :
      ceil8 bits.length ≤ b := by
    have hle := hfits.streams k hk
    rwa [← State.unbounded_cur, hcur, writeCursor_buf, packBits_length] at hle
  exact ⟨hstream .ch (by decide) (congrArg State.ch hu), hstream .cn (by decide) (congrArg State.cn hu),
    hstream .ct (by decide) (congrArg State.ct hu), hstream .bd (by decide) (congrArg State.bd hu)⟩

/-- Settles O54: had the run not been refused, each stream would hold its bits within the capacity. -/
theorem rleEncodeRefusedWithoutRoom : Obligations.RleEncodeRefusedWithoutRoom := by
  intro s b streaks records hfk hlen hcap hmax hexpand hrecords hover
  obtain rfl : records = recordsOf s streaks := hrecords
  have hrun : exec .rleEncode s = .next (rleEncode Instr.rleEncode.word s).state :=
    (command_next _ s).trans (by rw [if_pos hfk])
  rcases (RunsWithin.rleEncode (cw := Instr.rleEncode.word) hcap).refused_or_ok with ⟨u, hu⟩ | ⟨a, u, hok, hfree, hfits⟩
  · refine ⟨_, hrun, ?_, ?_, rleEncode_encodeKeeps _ s⟩
    · rw [hu]; rfl
    · rw [hu]; rfl
  · obtain ⟨hch, hcn, hct, hbd⟩ := rleEncode_ok_streams hfk hlen hmax hexpand hok hfree hfits
    omega

end Sys2Proof.Machine


/-! When `TAL_ENCODE` completes (R250, R252): its three stages go on exactly for a raster within the limits, and a capacity
of 2^28 bytes holds the file of any such raster (R190). -/

namespace Sys2Proof.Machine

/-! ### The first stage (R161, R163) -/

/-- A tally has one entry per distinct non-zero colour. -/
theorem TallyOf.length_eq {pix : List Pixel} {t : List TallyEntry} (h : TallyOf pix t) : t.length = colourCount pix := by
  rw [colourCount, ← List.length_map (fun e : TallyEntry => e.colour)]
  refine ((List.perm_ext_iff_of_nodup h.nodup (List.nodup_dedup _)).2 fun p => ?_).length_eq
  rw [h.colours p, List.mem_dedup, List.mem_filter, decide_eq_true_iff, and_comm]

/-- More pixels bring no fewer colours. -/
theorem colourCount_take_le (pix : List Pixel) (i : Nat) : colourCount (pix.take i) ≤ colourCount pix := by
  have hsub := ((List.take_sublist i pix).filter (fun p => decide (p ≠ 0))).subset
  exact ((List.nodup_dedup _).subperm fun p hp => List.mem_dedup.2 (hsub (List.mem_dedup.1 hp))).length_le

/-- What `PAL_BUILD` leaves for `RLE_ENCODE`: the raster and its palette. -/
structure PaletteBuilt (s t : State) : Prop where
  fk : t.fk = 0
  w : t.w = s.w
  h : t.h = s.h
  pix : t.pix = s.pix
  params : t.params = s.params
  colours : ∀ p, p ∈ t.pal ↔ p ≠ 0 ∧ p ∈ s.pix
  count : t.pal.length = colourCount s.pix

/-- `PAL_BUILD` of a raster of the right size builds its palette, or ends with a fault for too many colours. -/
theorem execPalBuild_paletteBuilt {s : State} (hfk : s.fk = 0) (hlen : s.pix.length = s.area) :
    ∃ t, exec .palBuild { s with nf := false } = .next t ∧
      (PaletteBuilt s t ∨ t.fk ≠ 0 ∧ 255 < colourCount s.pix) := by
  have hrun : exec .palBuild { s with nf := false } = .next (palBuild { s with nf := false }).state :=
    (execPalBuild_of_raster (s := { s with nf := false }) hlen).trans ((command_next _ _).trans (if_pos hfk ▸ rfl))
  refine ⟨_, hrun, ?_⟩
  rcases palBuild_cases { s with nf := false } with
    ⟨tally, htally, -, hok⟩ | ⟨tally, i, p, -, -, -, htally, hsize, hraised⟩
  · have hperm := (sortByCount_perm tally).map (·.colour)
    rw [hok]
    exact .inl {
      fk := hfk, w := rfl, h := rfl, pix := rfl, params := rfl
      colours := fun p => (hperm.mem_iff).trans (htally.colours p)
      count := by rw [Res.state_ok, hperm.length_eq, List.length_map, htally.length_eq] }
  · rw [hraised]
    refine .inr ⟨FaultKind.code_ne_zero .tooManyColors, lt_of_lt_of_le ?_ (colourCount_take_le s.pix i)⟩
    rw [← htally.length_eq, hsize]
    decide

/-! ### The second stage (R176, R190) -/

/-- What `RLE_ENCODE` leaves for `TAL_SERIALIZE`: the records of these maximal streaks in the streams, counted by `SC`. -/
structure RecordsWritten (s u : State) (streaks : List (Pixel × Nat)) : Prop where
  fk : u.fk = 0
  w : u.w = s.w
  h : u.h = s.h
  pal : u.pal = s.pal
  params : u.params = s.params
  maximal : MaximalStreaks streaks
  pixels : expand streaks = s.pix
  sc : u.sc = BitVec.ofNat 32 streaks.length
  ch : u.ch = writeCursor (chromaBits (recordsOf s streaks))
  cn : u.cn = writeCursor (countBits (recordsOf s streaks))
  ct : u.ct = writeCursor (colourTypeBits (recordsOf s streaks))
  bd : u.bd = writeCursor (bodyBits (recordsOf s streaks))

/-- There are no more streaks than pixels. -/
theorem length_le_expand {streaks : List (Pixel × Nat)} (h : ∀ r ∈ streaks, 1 ≤ r.2) :
    streaks.length ≤ (expand streaks).length := by
  induction streaks with
  | nil => exact le_rfl
  | cons r rs ih =>
    obtain ⟨hr, hrs⟩ := List.forall_mem_cons.1 h
    have := ih hrs
    rw [expand_cons, List.length_append, List.length_replicate, List.length_cons]
    omega

theorem execRleEncode_recordsWritten {s : State} (hfk : s.fk = 0) (hcap : capAtLeast s s.pix.length)
    (hlen : s.pix.length = s.area) (hne : s.pix ≠ []) (hcolours : ∀ p ∈ s.pix, p ≠ 0 → p ∈ s.pal)
    (hsmall : s.pix.length < 2 ^ 32) : ∃ u streaks, exec .rleEncode s = .next u ∧ RecordsWritten s u streaks := by
  obtain ⟨streaks, sc, hmax, hexpand, hsc, hexec⟩ := rleEncodeWritesMaximalStreaks s hfk hcap hlen hne hcolours
  have hcount := length_le_expand fun r hr => (hmax.1 r hr).1
  rw [hexpand] at hcount
  exact ⟨_, streaks, hexec, {
    fk := hfk, w := rfl, h := rfl, pal := rfl, params := rfl, maximal := hmax, pixels := hexpand
    sc := hsc (by omega), ch := rfl, cn := rfl, ct := rfl, bd := rfl }⟩

/-! ### The third stage (R231, R232) -/

/-- The chroma field takes a bit per record. -/
theorem chromaBits_length_le (records : List Instr) : (chromaBits records).length ≤ records.length := by
  rw [chromaBits, List.length_map]
  exact List.length_filterMap_le _ _

theorem ceil8_le_of_le {n m : Nat} (h : n ≤ 8 * m) : ceil8 n ≤ m := by
  simp only [ceil8]
  omega

section
variable {s u : State} {streaks : List (Pixel × Nat)} (h : RecordsWritten s u streaks)
include h

/-- The streams take at most a byte per pixel, the chroma field at most a bit per pixel (R190). -/
theorem RecordsWritten.stream_lengths : 8 * u.ch.buf.length ≤ s.pix.length + 7 ∧ u.cn.buf.length ≤ s.pix.length ∧
    u.ct.buf.length ≤ s.pix.length ∧ u.bd.buf.length ≤ s.pix.length := by
  have hlengths : ∀ r ∈ streaks, 1 ≤ r.2 := fun r hr => (h.maximal.1 r hr).1
  have hwithin := streamsWithin_recordsOf s hlengths
  have hrecords : (recordsOf s streaks).length = streaks.length := List.length_map _
  have hcount := length_le_expand hlengths
  have hchroma := chromaBits_length_le (recordsOf s streaks)
  rw [h.pixels] at hwithin hcount
  rw [h.ch, h.cn, h.ct, h.bd]
  simp only [writeCursor_buf, packBits_length]
  refine ⟨?_, ceil8_le_of_le hwithin.count, ceil8_le_of_le hwithin.colourType, ceil8_le_of_le hwithin.body⟩
  simp only [ceil8]
  omega

/-- `TAL_SERIALIZE` of at most 2^26 pixels and 255 colours, with a capacity of 2^28 bytes. -/
theorem RecordsWritten.execTalSerialize (hw : s.w.toNat ≤ 8192) (hh : s.h.toNat ≤ 8192) (hpal : s.pal.length ≤ 255)
    (hsmall : s.pix.length ≤ 2 ^ 26) (hcap : capAtLeast s (2 ^ 28)) :
    ∃ v, exec .talSerialize u = .next v ∧ v.fk = 0 ∧ v.pal = s.pal ∧ v.fr.mode = .writing ∧
      v.fr.buf = containerBytes s.w s.h s.pal (BitVec.ofNat 32 streaks.length)
        (packBits (chromaBits (recordsOf s streaks))) (packBits (countBits (recordsOf s streaks)))
        (packBits (colourTypeBits (recordsOf s streaks))) (packBits (bodyBits (recordsOf s streaks))) := by
  obtain ⟨hch, hcn, hct, hbd⟩ := h.stream_lengths
  have hstreams : ∀ k, k ≠ .fr → (u.cur k).buf.length < 2 ^ 32 := by
    intro k hk
    cases k with
    | ch => rw [State.cur_ch]; omega
    | cn => rw [State.cur_cn]; omega
    | ct => rw [State.cur_ct]; omega
    | bd => rw [State.cur_bd]; omega
    | fr => exact absurd rfl hk
  have hupal : u.pal.length ≤ 255 := h.pal ▸ hpal
  obtain ⟨file, hfile, hlen, hexec⟩ := serializeWritesLayout u h.fk (h.w ▸ hw) (h.h ▸ hh) hupal hstreams
  have hroom : capAtLeast u file.length := by
    intro b hb
    have := hcap b (by rw [← h.params, hb])
    omega
  refine ⟨_, hexec hroom, h.fk, h.pal, rfl, ?_⟩
  rw [← h.w, ← h.h, ← h.pal, ← h.sc, ← writeCursor_buf, ← writeCursor_buf, ← writeCursor_buf, ← writeCursor_buf, ← h.ch,
    ← h.cn, ← h.ct, ← h.bd]
  exact hfile

end

/-- A palette of 256 colours does not fit the count byte (R115, R232). -/
theorem execTalSerialize_of_palette {u : State} (hfk : u.fk = 0) (hw : u.w.toNat ≤ 8192) (hh : u.h.toNat ≤ 8192)
    (hpal : 255 < u.pal.length) : ∃ v, exec .talSerialize u = .next v ∧ v.fk ≠ 0 :=
  ⟨_, command_of_raise (talSerialize Instr.talSerialize.word) hfk
    ((if_neg (not_lt.2 hw)).trans ((if_neg (not_lt.2 hh)).trans (if_pos hpal))), FaultKind.code_ne_zero .refused⟩

/-! ### The pipeline (R250, R252) -/

/-- The rasters within the limits of `TAL_ENCODE` (R252). -/
def WithinLimits (s : State) : Prop :=
  1 ≤ s.w.toNat ∧ s.w.toNat ≤ 8192 ∧ 1 ≤ s.h.toNat ∧ s.h.toNat ≤ 8192 ∧ s.pix.length = s.w.toNat * s.h.toNat ∧
    colourCount s.pix ≤ 255

/-- `t` holds the palette of the raster of `s` and, in `cur[4]`, its container (R110, R252). -/
def HoldsFileOf (s t : State) : Prop :=
  t.fr.mode = .writing ∧ (∀ p, p ∈ t.pal ↔ p ≠ 0 ∧ p ∈ s.pix) ∧
    ∃ streaks : List (Pixel × Nat), MaximalStreaks streaks ∧ expand streaks = s.pix ∧
      t.fr.buf = containerBytes s.w s.h t.pal (BitVec.ofNat 32 streaks.length)
        (packBits (chromaBits (streaks.map (streakRecord s.params.nonfav t.pal))))
        (packBits (countBits (streaks.map (streakRecord s.params.nonfav t.pal))))
        (packBits (colourTypeBits (streaks.map (streakRecord s.params.nonfav t.pal))))
        (packBits (bodyBits (streaks.map (streakRecord s.params.nonfav t.pal))))

/-- The ways `TAL_ENCODE` can end: with a fault on a raster outside the limits, or with the file of one within. -/
def EncodesExactly (s : State) : Prop :=
  ∃ t, exec .talEncode s = .next t ∧ (t.fk = 0 ↔ WithinLimits s) ∧ (t.fk = 0 → HoldsFileOf s t)

theorem EncodesExactly.of_fault {s t : State} (h : exec .talEncode s = .next t) (hfk : t.fk ≠ 0) (hs : ¬ WithinLimits s) :
    EncodesExactly s :=
  ⟨t, h, iff_of_false hfk hs, fun h0 => absurd h0 hfk⟩

theorem EncodesExactly.of_file {s t : State} (h : exec .talEncode s = .next t) (hfk : t.fk = 0) (hs : WithinLimits s)
    (hfile : HoldsFileOf s t) : EncodesExactly s :=
  ⟨t, h, iff_of_true hfk hs, fun _ => hfile⟩

/-- `TAL_ENCODE` of a raster that passes its own checks: its stages decide. -/
theorem encodesExactly_of_raster {s : State} (hfk : s.fk = 0) (hcap : capAtLeast s (2 ^ 28)) (hw : s.w.toNat ≤ 8192)
    (hh : s.h.toNat ≤ 8192) (hlen : s.pix.length = s.w.toNat * s.h.toNat) (hne : s.pix ≠ []) : EncodesExactly s := by
  have hpos : 0 < s.w.toNat * s.h.toNat := hlen ▸ List.length_pos_of_ne_nil hne
  have hsmall : s.pix.length ≤ 2 ^ 26 := hlen.le.trans ((Nat.mul_le_mul hw hh).trans_eq (by norm_num))
  have hstages := fun t u v => pipelinesAreTheirStages.2 s t u v hfk hw hh hlen hne
  obtain ⟨t, hpalBuild, hpalette | ⟨htfk, hmany⟩⟩ := execPalBuild_paletteBuilt hfk hlen
  · have hcapPix : capAtLeast t t.pix.length := fun b hb => by
      have := hcap b (hpalette.params ▸ hb)
      rw [hpalette.pix]
      omega
    have hlenArea : t.pix.length = t.area := by rw [hpalette.pix, State.area, hpalette.w, hpalette.h, hlen]
    obtain ⟨u, streaks, hrleEncode, hwritten⟩ := execRleEncode_recordsWritten hpalette.fk hcapPix hlenArea
      (hpalette.pix ▸ hne) (fun p hp h0 => (hpalette.colours p).2 ⟨h0, hpalette.pix ▸ hp⟩)
      (by rw [hpalette.pix]; omega)
    by_cases hfew : t.pal.length ≤ 255
    · obtain ⟨v, hserialize, hvfk, hvpal, hvmode, hvbuf⟩ := hwritten.execTalSerialize (hpalette.w ▸ hw)
        (hpalette.h ▸ hh) hfew (hpalette.pix ▸ hsmall) fun b hb => hcap b (hpalette.params ▸ hb)
      have hencode := hstages t u v hpalBuild hrleEncode hserialize
      rw [if_neg (not_not.2 hpalette.fk), if_pos hvfk] at hencode
      have hlimits : WithinLimits s :=
        ⟨Nat.pos_of_mul_pos_right hpos, hw, Nat.pos_of_mul_pos_left hpos, hh, hlen, hpalette.count ▸ hfew⟩
      refine .of_file hencode hvfk hlimits ⟨hvmode, hvpal ▸ hpalette.colours, streaks, hwritten.maximal, ?_, ?_⟩
      · rw [hwritten.pixels, hpalette.pix]
      · rw [hvbuf, hvpal, hpalette.w, hpalette.h, ← hpalette.params]
        rfl
    · obtain ⟨v, hserialize, hvfk⟩ := execTalSerialize_of_palette hwritten.fk
        (by rw [hwritten.w, hpalette.w]; exact hw) (by rw [hwritten.h, hpalette.h]; exact hh)
        (by rw [hwritten.pal]; exact not_le.1 hfew)
      have hencode := hstages t u v hpalBuild hrleEncode hserialize
      rw [if_neg (not_not.2 hpalette.fk), if_neg hvfk] at hencode
      exact .of_fault hencode hvfk fun ⟨_, _, _, _, _, hcolours⟩ => hfew (hpalette.count ▸ hcolours)
  · have hencode := hstages t t t hpalBuild (exec_of_fault (by decide) htfk) (exec_of_fault (by decide) htfk)
    rw [if_pos htfk] at hencode
    exact .of_fault hencode htfk fun ⟨_, _, _, _, _, hcolours⟩ => not_le.2 hmany hcolours

/-- Settles O47: the raster fails a check of `TAL_ENCODE`, or its stages decide. -/
theorem talEncodeCompletesExactly : Obligations.TalEncodeCompletesExactly := by
  intro s hfk hcap
  show EncodesExactly s
  obtain ⟨-, -, hwide, hhigh, hraster⟩ := rasterChecksComeFirst s hfk
  by_cases hw : s.w.toNat ≤ 8192
  · by_cases hh : s.h.toNat ≤ 8192
    · by_cases hbad : s.pix.length ≠ s.w.toNat * s.h.toNat ∨ s.w.toNat * s.h.toNat = 0
      · refine .of_fault (hraster hw hh hbad) (by decide : (8 : BitVec 4) ≠ 0) fun ⟨hw1, _, hh1, _, hlen, _⟩ => ?_
        exact hbad.elim (absurd hlen) (Nat.mul_pos hw1 hh1).ne'
      · obtain ⟨hlen, harea⟩ := not_or.1 hbad
        rw [not_not] at hlen
        exact encodesExactly_of_raster hfk hcap hw hh hlen fun hnil => harea (by rw [← hlen, hnil]; rfl)
    · exact .of_fault (hhigh hw (not_le.1 hh)) (by decide : (5 : BitVec 4) ≠ 0) fun ⟨_, _, _, hh', _⟩ => hh hh'
  · exact .of_fault (hwide (not_le.1 hw)) (by decide : (5 : BitVec 4) ≠ 0) fun ⟨_, hw', _⟩ => hw hw'

end Sys2Proof.Machine


/-! `PAL_BUILD` (R160 to R169): with at most 256 distinct non-zero colours it builds their palette and with more it raises
`TooManyColors`; either way it reads nothing but the raster. -/

namespace Sys2Proof.Machine

/-! ### Which way `PalBuild()` ends (R161, R163) -/

/-- `PAL_BUILD` of a raster of the right size runs `PalBuild()`. -/
theorem exec_palBuild_of_raster {s : State} (hfk : s.fk = 0) (hlen : s.pix.length = s.area) :
    exec .palBuild s = .next (palBuild s).state :=
  (execPalBuild_of_raster hlen).trans ((command_next _ _).trans (if_pos hfk ▸ rfl))

/-- A pixel of a new non-zero colour brings the count of colours to one more than the tally before it has entries. -/
theorem TallyOf.colourCount_take_succ {pix : List Pixel} {t : List TallyEntry} {i : Nat} {p : Pixel}
    (h : TallyOf (pix.take i) t) (hi : pix[i]? = some p) (h0 : p ≠ 0) (hnew : p ∉ t.map (·.colour)) :
    colourCount (pix.take (i + 1)) = t.length + 1 := by
  rw [List.take_add_one, hi, Option.toList_some, ← (h.add h0 hnew).length_eq, List.length_append, List.length_singleton]

/-- With at most 256 colours the scan cannot meet a 257th, so it reads the whole raster. -/
theorem palBuild_of_fewColours {s : State} (hfew : colourCount s.pix ≤ 256) :
    ∃ t, TallyOf s.pix t ∧
      palBuild s = .ok () { s with tally := t, si := s.pix.length, pal := (sortByCount t).map (·.colour) } := by
  rcases palBuild_cases s with ⟨t, htally, -, hrun⟩ | ⟨t, i, p, hi, h0, hnew, htally, hsize, -⟩
  · exact ⟨t, htally, hrun⟩
  · have hcount := htally.colourCount_take_succ hi h0 hnew
    rw [hsize] at hcount
    have hmore : Config.palMax + 1 ≤ 256 := hcount ▸ (colourCount_take_le s.pix (i + 1)).trans hfew
    exact absurd hmore (by decide)

/-- With more than 256 colours a complete tally would be too long, so the scan stops at the first pixel without an entry. -/
theorem palBuild_of_manyColours {s : State} (hmany : 256 < colourCount s.pix) :
    ∃ t i, i < s.pix.length ∧ colourCount (s.pix.take i) = 256 ∧ colourCount (s.pix.take (i + 1)) = 257 ∧
      t.length = 256 ∧ palBuild s = raise .tooManyColors i 256 257 { s with tally := t, si := i } := by
  rcases palBuild_cases s with ⟨t, htally, hsize, -⟩ | ⟨t, i, p, hi, h0, hnew, htally, hsize, hrun⟩
  · exact absurd (htally.length_eq ▸ hsize) (not_le.2 hmany)
  · refine ⟨t, i, (List.getElem?_eq_some_iff.1 hi).1, htally.length_eq.symm.trans hsize, ?_, hsize, hrun⟩
    rw [htally.colourCount_take_succ hi h0 hnew, hsize]
    rfl

/-! ### The palette of a tally (R162, R169) -/

/-- The palette has the colours of the tally, in another order. -/
theorem sortByCount_colours_perm (t : List TallyEntry) :
    ((sortByCount t).map (·.colour)).Perm (t.map (·.colour)) :=
  (sortByCount_perm t).map _

/-- Descending count, ties by first occurrence. -/
theorem TallyOf.palette_pairwise {pix : List Pixel} {t : List TallyEntry} (h : TallyOf pix t) :
    ((sortByCount t).map (·.colour)).Pairwise fun a b =>
      pix.count b < pix.count a ∨ pix.count b = pix.count a ∧ pix.idxOf a < pix.idxOf b := by
  have horder : t.Pairwise fun a b => pix.idxOf a.colour < pix.idxOf b.colour := by
    simpa only [List.pairwise_map] using h.order
  have hsorted := sortByCount_pairwise _ t horder
  refine List.pairwise_map.2 (hsorted.imp_of_mem fun ha hb hab => ?_)
  rwa [h.counts _ ((sortByCount_perm t).mem_iff.1 ha), h.counts _ ((sortByCount_perm t).mem_iff.1 hb)] at hab

/-- The order of a palette, said by positions. -/
theorem TallyOf.palette_getElem? {pix : List Pixel} {t : List TallyEntry} (h : TallyOf pix t) (i j : Nat) (a b : Pixel)
    (hij : i < j) (hi : ((sortByCount t).map (·.colour))[i]? = some a)
    (hj : ((sortByCount t).map (·.colour))[j]? = some b) :
    pix.count b < pix.count a ∨ pix.count b = pix.count a ∧ pix.idxOf a < pix.idxOf b := by
  obtain ⟨hi', rfl⟩ := List.getElem?_eq_some_iff.1 hi
  obtain ⟨hj', rfl⟩ := List.getElem?_eq_some_iff.1 hj
  exact List.pairwise_iff_getElem.1 h.palette_pairwise i j hi' hj' hij

/-- Every non-zero pixel is counted under one colour of the tally. -/
theorem TallyOf.sum_count {pix : List Pixel} {t : List TallyEntry} (h : TallyOf pix t) :
    ((t.map (·.colour)).map (pix.count ·)).sum = (pix.filter (fun p => decide (p ≠ 0))).length := by
  have hperm : (t.map (·.colour)).Perm (pix.dedup.filter (fun p => decide (p ≠ 0))) :=
    (List.perm_ext_iff_of_nodup h.nodup (pix.nodup_dedup.filter _)).2 fun p => by
      rw [h.colours p, List.mem_filter, List.mem_dedup, decide_eq_true_iff, and_comm]
  rw [(hperm.map _).sum_eq, List.sum_map_count_dedup_filter_eq_countP, List.countP_eq_length_filter]

/-- Settles O28: the palette is the tally's colours, sorted. -/
theorem palBuildOrdersColours : Obligations.PalBuildOrdersColours := by
  intro s hfk hlen hfew
  obtain ⟨t, htally, hrun⟩ := palBuild_of_fewColours hfew
  have hperm := sortByCount_colours_perm t
  refine ⟨(sortByCount t).map (·.colour), t, ?_, hperm.nodup_iff.2 htally.nodup, ?_,
    fun p => hperm.mem_iff.trans (htally.colours p), htally.palette_getElem?, htally.colours, htally.counts,
    htally.order, ?_⟩
  · rw [exec_palBuild_of_raster hfk hlen, hrun, Res.state_ok]
  · rwa [hperm.length_eq, List.length_map, htally.length_eq]
  · rw [(hperm.map _).sum_eq, htally.sum_count]

/-! ### Too many colours (R163, R265) -/

/-- Settles O29: the scan stops at the pixel that brings the 257th colour. -/
theorem palBuildTooManyColours : Obligations.PalBuildTooManyColours := by
  intro s hfk hlen hmany
  obtain ⟨t, i, hi, hbefore, hafter, hsize, hrun⟩ := palBuild_of_manyColours hmany
  refine ⟨i, t, hi, hbefore, hafter, hsize, ?_⟩
  rw [exec_palBuild_of_raster hfk hlen, hrun, raise_state]
  rfl

/-! ### What the palette depends on (R166) -/

/-- `PalBuild()` ends as its scan does, and the scan starts from no tally, so the raster alone decides. -/
theorem palBuild_palette_congr {s u : State} (hfk : s.fk = u.fk) (hpix : s.pix = u.pix) :
    (palBuild s).state.fk = (palBuild u).state.fk ∧
      ((palBuild s).state.fk = 0 → (palBuild s).state.pal = (palBuild u).state.pal) := by
  rw [palBuild, palBuild, hpix]
  rcases tallyScan u.pix [] 0 with ⟨_ | _, t, si⟩
  case false => exact ⟨rfl, fun h => absurd h (FaultKind.code_ne_zero .tooManyColors)⟩
  case true => exact ⟨hfk, fun _ => rfl⟩

/-- Settles O30: both states are refused, or both scan the same raster. -/
theorem paletteDependsOnlyOnRaster : Obligations.PaletteDependsOnlyOnRaster := by
  intro s u s' u' hs hu hpix harea hs' hu'
  by_cases hlen : s.pix.length = s.w.toNat * s.h.toNat
  · rw [exec_palBuild_of_raster hs hlen] at hs'
    rw [exec_palBuild_of_raster hu (by rwa [hpix, harea] at hlen)] at hu'
    cases hs'
    cases hu'
    exact palBuild_palette_congr (hs.trans hu.symm) hpix
  · rw [(rasterChecksComeFirst s hs).1 hlen] at hs'
    rw [(rasterChecksComeFirst u hu).1 (by rwa [hpix, harea] at hlen)] at hu'
    cases hs'
    cases hu'
    exact ⟨rfl, fun h => absurd h (by decide : (8 : BitVec 4) ≠ 0)⟩

end Sys2Proof.Machine


/-! `RLE_ENCODE` refuses a foreign colour (R184): the only fault it can take is `Refused`, and a run without a fault has met
no such colour. -/

namespace Sys2Proof.Machine

/-- `RLE_ENCODE` runs `RleEncode()` while no fault stands. -/
theorem exec_rleEncode_of_noFault {s : State} (hfk : s.fk = 0) :
    exec .rleEncode s = .next (rleEncode Instr.rleEncode.word s).state :=
  (command_next _ s).trans (if_pos hfk ▸ rfl)

theorem SameButWord.refused_or_ok {α : Type} {cw cw' : Word} {r r' : Res α} (h : SameButWord cw cw' r r') :
    (∃ s, r = refuse cw s) ∨ ∃ a s, r = .ok a s ∧ s.fk = 0 := by
  cases h with
  | ok a s h => exact .inr ⟨a, s, rfl, h⟩
  | refused s => exact .inl ⟨s, rfl⟩

/-- `RleEncode()` raises nothing but `Refused` (R262, R264). -/
theorem rleEncode_refused_or_ok (cw : Word) {s : State} (hfk : s.fk = 0) :
    (∃ u, rleEncode cw s = refuse cw u) ∨ ∃ a u, rleEncode cw s = .ok a u ∧ u.fk = 0 :=
  (SameButWord.rleEncode (cw' := cw) hfk).refused_or_ok

/-- Settles O33: a run that is not refused has every pixel's colour in the palette. -/
theorem rleEncodeRefusesForeignColour : Obligations.RleEncodeRefusesForeignColour := by
  intro s hfk _ ⟨p, hp, h0, hforeign⟩
  rcases rleEncode_refused_or_ok Instr.rleEncode.word hfk with ⟨u, hrefused⟩ | ⟨_, u, hok, -⟩
  · refine ⟨_, exec_rleEncode_of_noFault hfk, ?_, ?_, rleEncode_encodeKeeps _ s⟩
    · rw [hrefused]; rfl
    · rw [hrefused]; rfl
  · exact absurd ((rleEncode_ok_raster hok).2 p hp h0) hforeign

end Sys2Proof.Machine


/-! What `RLE_DECODE` delivers from streams that begin with whole records (R201, R205): the records' runs, one record step
after the other, and not one bit more is read. -/

namespace Sys2Proof.Machine

/-! ### Bits known to be ahead (R133) -/

theorem Cursor.peek_of_prefix {c : Cursor} {bits : List Bool} (hne : bits ≠ []) (h : bits <+: c.rest) :
    c.peek bits.length = some bits := by
  have hpos := List.length_pos_of_ne_nil hne
  have hlen := h.length_le
  rw [Cursor.rest, List.length_drop, bytesBits_length] at hlen
  rw [Cursor.peek_spec _ c (by omega), if_pos (by omega), ← List.prefix_iff_eq_take.1 h]

/-- Behind the bits read, the next ones are ahead. -/
theorem Cursor.prefix_rest_at {c : Cursor} {xs ys : List Bool} (h : xs ++ ys <+: c.rest) :
    ys <+: (c.at (c.pos + xs.length)).rest := by
  obtain ⟨more, hmore⟩ := h
  have hrest : (c.at (c.pos + xs.length)).rest = c.rest.drop xs.length := by
    rw [Cursor.rest, Cursor.rest, List.drop_drop, Cursor.at_pos, Cursor.at_buf]
  rw [hrest, ← hmore, List.append_assoc, List.drop_left]
  exact List.prefix_append ys more

/-- A read of the bits of a number answers the number. -/
theorem rdBits_of_prefix {s : State} {k : CurId} {n : Nat} (hn : 0 < n) (v : BitVec n)
    (h : bitsOf n v.toNat <+: (s.cur k).rest) : rdBits k n s = .ok v.toNat (s.skip k n) := by
  have hlen := bitsOf_length n v.toNat
  have hpeek := Cursor.peek_of_prefix (List.ne_nil_of_length_pos (by rw [hlen]; exact hn)) h
  rw [hlen] at hpeek
  rw [rdBits_of_peek hn hpeek, valOf_bitsOf, Nat.mod_eq_of_lt v.isLt]

/-! ### Records ahead (R100) -/

/-- The four streams go on with the bits of these records. -/
structure RecordsAhead (s : State) (records : List Instr) : Prop where
  chroma : chromaBits records <+: s.ch.rest
  count : countBits records <+: s.cn.rest
  colourType : colourTypeBits records <+: s.ct.rest
  body : bodyBits records <+: s.bd.rest

/-- `s` with these pixels appended to `OUT`, and `NF` set if they are of a non-favourite record (R205, R221). -/
def State.deliver (s : State) (pixels : List Pixel) (nonFavourite : Bool) : State :=
  { s with out := s.out ++ pixels, nf := nonFavourite || s.nf }

/-- The state after these records were replayed: their bits consumed, their runs delivered (R205, R212, R221). -/
def State.replayed (s : State) (records : List Instr) : State :=
  { s with
    ch := s.ch.at (s.ch.pos + (chromaBits records).length)
    cn := s.cn.at (s.cn.pos + (countBits records).length)
    ct := s.ct.at (s.ct.pos + (colourTypeBits records).length)
    bd := s.bd.at (s.bd.pos + (bodyBits records).length)
    out := s.out ++ records.flatMap (recordPixels s.pal)
    nf := records.any isNonFavourite || s.nf }

theorem State.replayed_nil (s : State) : s.replayed [] = s := by
  simp [State.replayed, chromaBits, countBits, colourTypeBits, bodyBits, recordBitsOf]

theorem State.replayed_append (s : State) (xs ys : List Instr) :
    s.replayed (xs ++ ys) = (s.replayed xs).replayed ys := by
  simp [State.replayed, chromaBits_append, countBits_append, colourTypeBits_append, bodyBits_append, Nat.add_assoc,
    Bool.or_left_comm, Bool.or_assoc]

theorem RecordsAhead.of_append {s : State} {xs ys : List Instr} (h : RecordsAhead s (xs ++ ys)) :
    RecordsAhead s xs ∧ RecordsAhead (s.replayed xs) ys := by
  obtain ⟨hch, hcn, hct, hbd⟩ := h
  rw [chromaBits_append] at hch
  rw [countBits_append] at hcn
  rw [colourTypeBits_append] at hct
  rw [bodyBits_append] at hbd
  exact ⟨⟨(List.prefix_append _ _).trans hch, (List.prefix_append _ _).trans hcn, (List.prefix_append _ _).trans hct,
      (List.prefix_append _ _).trans hbd⟩,
    ⟨Cursor.prefix_rest_at hch, Cursor.prefix_rest_at hcn, Cursor.prefix_rest_at hct, Cursor.prefix_rest_at hbd⟩⟩

/-! ### The record step on a record ahead (R205) -/

section
variable {s : State} {c f : Bool}

theorem FlagsAhead.record_single (h : FlagsAhead s false c f) (hf : c = false → f = false) :
    Machine.record s = recordColour c f 1 (s.skipFlags c) := h.record hf

theorem FlagsAhead.record_run (h : FlagsAhead s true c f) (hf : c = false → f = false) {l : BitVec 8}
    (hlen : bitsOf 8 l.toNat <+: s.bd.rest) :
    Machine.record s = recordColour c f (lengthOfPayload l.toNat) ((s.skipFlags c).skip .bd 8) := by
  rw [← s.skipFlags_bd c] at hlen
  rw [h.record hf, if_pos rfl, rdBits_of_prefix (k := .bd) (by decide) l hlen, Res.bind_ok, Res.bind_ok]

theorem recordColour_favourite {i : BitVec 4} (h : bitsOf 4 i.toNat <+: s.bd.rest) (hi : i.toNat < favCount s.pal)
    (l : Nat) : recordColour true true l s =
      .ok () ((s.skip .bd 4).deliver (List.replicate l (s.pal.getD i.toNat 0)) false) := by
  have hread : rdBits .bd Config.favIdxBits s = _ := rdBits_of_prefix (by decide) i h
  rw [recordColour, if_pos rfl, if_pos rfl, hread, Res.bind_ok, favouriteRun_cases]
  exact if_pos hi

theorem recordColour_palette {j : BitVec 8} (h : bitsOf 8 j.toNat <+: s.bd.rest) (hj : j.toNat < s.pal.length)
    (l : Nat) : recordColour true false l s =
      .ok () ((s.skip .bd 8).deliver (List.replicate l (s.pal.getD j.toNat 0)) true) := by
  have hread : rdBits .bd Config.palIdxBits { s with nf := true } = _ := rdBits_of_prefix (by decide) j h
  rw [recordColour, if_pos rfl, if_neg Bool.false_ne_true, hread, Res.bind_ok, paletteRun_cases]
  exact if_pos hj

/-- The field bits ahead are those of the record's form (R101). -/
theorem RecordsAhead.flags {i : Instr} (h : RecordsAhead s [i]) {m : Bool} {body : List Bool}
    (hi : encode i = .record ⟨c, m, if c then some f else none, body⟩) : FlagsAhead s m c f ∧ body <+: s.bd.rest := by
  obtain ⟨hch, hcn, hct, hbd⟩ := h
  simp only [chromaBits, countBits, colourTypeBits, bodyBits, recordBitsOf_singleton hi, List.map_cons, List.map_nil,
    List.flatMap_singleton] at hch hcn hct hbd
  refine ⟨⟨Cursor.peek_of_prefix (by simp) hcn, Cursor.peek_of_prefix (by simp) hch, ?_⟩, hbd⟩
  rintro rfl
  exact Cursor.peek_of_prefix (bits := [f]) (by simp) hct

end

@[simp] theorem State.skip_zero (s : State) (k : CurId) : s.skip k 0 = s := by
  rw [State.skip, Nat.add_zero, Cursor.at_self, State.setCur_cur]

@[simp] theorem State.skip_skip (s : State) (k : CurId) (m n : Nat) : (s.skip k m).skip k n = s.skip k (m + n) := by
  rw [State.skip, State.skip, State.cur_setCur_same, State.setCur_setCur, Cursor.at_at, Cursor.at_pos, Nat.add_assoc,
    State.skip]

@[simp] theorem State.skip_pal (s : State) (k : CurId) (n : Nat) : (s.skip k n).pal = s.pal := State.setCur_pal _ _ _

@[simp] theorem State.skipFlags_pal (s : State) (coloured : Bool) : (s.skipFlags coloured).pal = s.pal := by
  cases coloured <;> rfl

/-- Behind the field bits and a length payload the rest of the body is ahead. -/
theorem prefix_rest_behind_length {s : State} {l : BitVec 8} {bits : List Bool}
    (h : bitsOf 8 l.toNat ++ bits <+: s.bd.rest) (coloured : Bool) :
    bits <+: ((s.skipFlags coloured).skip .bd 8).bd.rest := by
  rw [← s.skipFlags_bd coloured] at h
  have hrest := Cursor.prefix_rest_at h
  rwa [bitsOf_length] at hrest

/-- Replaying one record consumes its field bits and its body. -/
theorem State.replayed_singleton (s : State) {i : Instr} {c m f : Bool} {body : List Bool}
    (hi : encode i = .record ⟨c, m, if c then some f else none, body⟩) :
    s.replayed [i] = ((s.skipFlags c).skip .bd body.length).deliver (recordPixels s.pal i) (isNonFavourite i) := by
  cases c <;>
    simp [State.replayed, State.deliver, State.skipFlags, State.skip, State.setCur, State.cur, chromaBits, countBits,
      colourTypeBits, bodyBits, recordBitsOf_singleton hi]

/-- The record step on a whole record whose index addresses a colour replays it (R206 to R211). -/
theorem record_of_ahead {s : State} {i : Instr} (h : RecordsAhead s [i]) (hfits : recordFits s.pal i = true) :
    record s = .ok () (s.replayed [i]) := by
  cases i with
  | stT1 =>
    obtain ⟨hflags, -⟩ := h.flags (c := false) (f := false) rfl
    rw [s.replayed_singleton (c := false) (f := false) rfl, hflags.record_single fun _ => rfl, List.length_nil,
      State.skip_zero]
    rfl
  | stTR l =>
    obtain ⟨hflags, hbody⟩ := h.flags (c := false) (f := false) rfl
    rw [s.replayed_singleton (c := false) (f := false) rfl, hflags.record_run (fun _ => rfl) hbody]
    rfl
  | stF1 i =>
    have hindex : i.toNat < favCount s.pal := of_decide_eq_true hfits
    obtain ⟨hflags, hbody⟩ := h.flags (c := true) (f := true) rfl
    rw [s.replayed_singleton (c := true) (f := true) rfl, hflags.record_single nofun,
      recordColour_favourite (s := s.skipFlags true) hbody hindex]
    rfl
  | stFR l i =>
    have hindex : i.toNat < favCount s.pal := of_decide_eq_true hfits
    obtain ⟨hflags, hbody⟩ := h.flags (c := true) (f := true) rfl
    rw [s.replayed_singleton (c := true) (f := true) rfl, hflags.record_run nofun ((List.prefix_append _ _).trans hbody),
      recordColour_favourite (prefix_rest_behind_length hbody true) (by simpa using hindex), State.skip_skip,
      State.skip_pal, State.skipFlags_pal]
    rfl
  | stP1 j =>
    have hindex : j.toNat < s.pal.length := of_decide_eq_true hfits
    obtain ⟨hflags, hbody⟩ := h.flags (c := true) (f := false) rfl
    rw [s.replayed_singleton (c := true) (f := false) rfl, hflags.record_single nofun,
      recordColour_palette (s := s.skipFlags true) hbody hindex]
    rfl
  | stPR l j =>
    have hindex : j.toNat < s.pal.length := of_decide_eq_true hfits
    obtain ⟨hflags, hbody⟩ := h.flags (c := true) (f := false) rfl
    rw [s.replayed_singleton (c := true) (f := false) rfl, hflags.record_run nofun ((List.prefix_append _ _).trans hbody),
      recordColour_palette (prefix_rest_behind_length hbody true) (by simpa using hindex), State.skip_skip,
      State.skip_pal, State.skipFlags_pal]
    rfl
  | _ => cases hfits

/-! ### The record loop (R201) -/

/-- As many turns of the loop as there are records ahead replay them all. -/
theorem decodeLoop_of_ahead {records : List Instr} {s : State} (h : RecordsAhead s records)
    (hfits : ∀ i ∈ records, recordFits s.pal i = true) :
    decodeLoop records.length s = .ok () { s.replayed records with ri := s.ri + records.length } := by
  induction records generalizing s with
  | nil => rw [State.replayed_nil]; rfl
  | cons i records ih =>
    obtain ⟨hone, hmore⟩ := RecordsAhead.of_append (xs := [i]) h
    obtain ⟨hi, hrecords⟩ := List.forall_mem_cons.1 hfits
    have hnext : RecordsAhead { s.replayed [i] with ri := s.ri + 1 } records :=
      ⟨hmore.chroma, hmore.count, hmore.colourType, hmore.body⟩
    rw [← List.singleton_append, State.replayed_append, List.length_append, List.length_singleton, ← Nat.add_assoc,
      Nat.add_comm 1, decodeLoop, record_of_ahead hone hi, Res.bind_ok]
    exact ih hnext hrecords

/-- `RleDecode()` of streams that begin with `SC` fitting records replays them and then checks the total (R201, R215). -/
theorem rleDecode_of_ahead {s : State} {records : List Instr} (hsc : s.sc.toNat = records.length)
    (h : RecordsAhead (decodeStart s) records) (hfits : ∀ i ∈ records, recordFits s.pal i = true) :
    rleDecode s = decodeEnd { (decodeStart s).replayed records with ri := records.length } := by
  rw [rleDecode, hsc, decodeLoop_of_ahead h hfits, Res.bind_ok, show (decodeStart s).ri = 0 from rfl, Nat.zero_add]

end Sys2Proof.Machine


/-! `RLE_DECODE` inverts `RLE_ENCODE` (R189(e)): a completed run has left the records of the raster's maximal streaks at the
start of the four streams, and each record addresses its own streak's colour. -/

namespace Sys2Proof.Machine

/-! ### A completed run, whatever the capacity (R146, R189) -/

theorem State.unbounded_of_cap_none {s : State} (h : s.params.bufCap = none) : s.unbounded = s := by
  rw [State.unbounded, ← h]

/-- A run that goes on does so without a bound as well. -/
theorem rleEncode_ok_unbounded {cw : Word} {s t : State} {a : Unit} (h : rleEncode cw s = .ok a t) :
    rleEncode cw s.unbounded = .ok a t.unbounded := by
  cases hcap : s.params.bufCap with
  | none =>
    have hkeeps := rleEncode_encodeKeeps cw s
    rw [h, Res.state_ok, EncodeKeeps] at hkeeps
    have htcap : t.params.bufCap = none := by rw [hkeeps]; exact hcap
    rw [State.unbounded_of_cap_none hcap, State.unbounded_of_cap_none htcap, h]
  | some b =>
    rcases (RunsWithin.rleEncode (cw := cw) hcap).refused_or_ok with ⟨u, hrefused⟩ | ⟨_, u, hok, hfree, -⟩
    · rw [h] at hrefused
      cases hrefused
    · rw [h] at hok
      cases hok
      exact hfree

theorem rleEncode_ok_area {cw : Word} {s t : State} {a : Unit} (h : rleEncode cw s = .ok a t) :
    s.pix.length = s.area := by
  by_contra hlen
  rw [rleEncode_of_bad_raster cw (.inl hlen)] at h
  cases h

/-- A run that goes on has written the records of the raster's maximal streaks, and `NF` says whether one of them is of a
non-favourite colour. -/
theorem rleEncode_ok_recordsWritten {s t : State} {a : Unit} (hfk : s.fk = 0) (hsmall : s.pix.length < 2 ^ 32)
    (h : rleEncode Instr.rleEncode.word s = .ok a t) :
    ∃ streaks, RecordsWritten s t streaks ∧ t.nf = (recordsOf s streaks).any isNonFavourite := by
  obtain ⟨hne, hcolours⟩ := rleEncode_ok_raster h
  have hlen := rleEncode_ok_area h
  obtain ⟨streaks, sc, hmax, hexpand, hsc, hexec⟩ :=
    rleEncodeWritesMaximalStreaks s.unbounded hfk nofun hlen hne hcolours
  rw [exec_rleEncode_of_noFault (show s.unbounded.fk = 0 from hfk), rleEncode_ok_unbounded h] at hexec
  have ht := Host.Outcome.next.inj hexec
  have hkeeps := rleEncode_encodeKeeps Instr.rleEncode.word s
  rw [h, Res.state_ok] at hkeeps
  obtain ⟨hw, hh⟩ := hkeeps.size
  have hcount := length_le_expand fun r hr => (hmax.1 r hr).1
  rw [hexpand] at hcount
  exact ⟨streaks, {
    fk := (congrArg State.fk ht).trans hfk
    w := hw, h := hh, pal := hkeeps.pal, params := by rw [hkeeps]
    maximal := hmax, pixels := hexpand
    sc := (congrArg State.sc ht).trans (hsc (hcount.trans_lt hsmall))
    ch := congrArg State.ch ht, cn := congrArg State.cn ht, ct := congrArg State.ct ht, bd := congrArg State.bd ht },
    congrArg State.nf ht⟩

/-! ### A streak's record stands for the streak (R101, R102, R213) -/

/-- The payload of a length from 1 to 256 stands for that length (R102). -/
theorem lengthOfPayload_ofNat {l : Nat} (hpos : 1 ≤ l) (hmax : l ≤ 256) : lengthOfPayload (BitVec.ofNat 8 l).toNat = l := by
  rw [BitVec.toNat_ofNat, lengthOfPayload]
  split
  · rw [Config.runMax]
    omega
  · omega

theorem mem_expand {r : Pixel × Nat} {streaks : List (Pixel × Nat)} (hr : r ∈ streaks) (hpos : 1 ≤ r.2) :
    r.1 ∈ expand streaks :=
  List.mem_flatMap.2 ⟨r, hr, List.mem_replicate.2 ⟨by omega, rfl⟩⟩

/-- A record whose index addresses a colour, and that stands for these pixels. -/
def StandsFor (pal : List Pixel) (i : Instr) (pixels : List Pixel) : Prop :=
  recordFits pal i = true ∧ recordPixels pal i = pixels

theorem getD_idxOf {pal : List Pixel} {col : Pixel} (h : col ∈ pal) : pal.getD (pal.idxOf col) 0 = col := by
  rw [List.getD_eq_getElem _ _ (List.idxOf_lt_length_of_mem h), List.getElem_idxOf]

section
variable {pal : List Pixel} {col : Pixel} {l : Nat} (hpos : 1 ≤ l) (hmax : l ≤ 256) (table : List Config.NonfavEntry)
include hpos hmax

/-- A streak of one pixel takes the form without a length, a longer one the form with it (R101). -/
theorem standsFor_by_length {single run : Instr} (hsingle : StandsFor pal single [col])
    (hrun : StandsFor pal run (List.replicate (lengthOfPayload (BitVec.ofNat 8 l).toNat) col)) :
    StandsFor pal (if l = 1 then single else run) (List.replicate l col) := by
  by_cases hl : l = 1
  · rw [if_pos hl, hl]
    exact hsingle
  · rw [if_neg hl]
    rwa [lengthOfPayload_ofNat hpos hmax] at hrun

theorem streakRecord_standsFor_transparent : StandsFor pal (streakRecord table pal (0, l)) (List.replicate l 0) := by
  rw [streakRecord, if_pos rfl]
  exact standsFor_by_length hpos hmax ⟨rfl, rfl⟩ ⟨rfl, rfl⟩

theorem streakRecord_standsFor_favourite (h0 : col ≠ 0) (hcol : col ∈ pal) (hfav : pal.idxOf col < 16) :
    StandsFor pal (streakRecord table pal (col, l)) (List.replicate l col) := by
  have hindex : (BitVec.ofNat 4 (pal.idxOf col)).toNat = pal.idxOf col := by
    rw [BitVec.toNat_ofNat, Nat.mod_eq_of_lt hfav]
  have hfits : decide ((BitVec.ofNat 4 (pal.idxOf col)).toNat < favCount pal) = true := by
    rw [hindex, decide_eq_true_iff]
    exact lt_min (List.idxOf_lt_length_of_mem hcol) hfav
  rw [streakRecord, if_neg h0]
  dsimp only
  rw [if_pos hfav]
  exact standsFor_by_length hpos hmax ⟨hfits, by rw [recordPixels, hindex, getD_idxOf hcol]⟩
    ⟨hfits, by rw [recordPixels, hindex, getD_idxOf hcol]⟩

/-- With the default `NONFAV_INDEX` a position of at most 255 is its own index (R104, log 14). -/
theorem streakRecord_standsFor_nonFavourite (h0 : col ≠ 0) (hcol : col ∈ pal) (hfav : ¬ pal.idxOf col < 16)
    (hpal : pal.length ≤ 256) : StandsFor pal (streakRecord [] pal (col, l)) (List.replicate l col) := by
  have hlt := List.idxOf_lt_length_of_mem hcol
  have hindex : (nonfavIndex [] pal col (pal.idxOf col)).toNat = pal.idxOf col :=
    (BitVec.toNat_ofNat _ 8).trans (Nat.mod_eq_of_lt (by omega))
  have hfits : decide ((nonfavIndex [] pal col (pal.idxOf col)).toNat < pal.length) = true := by
    rw [hindex, decide_eq_true_iff]
    exact hlt
  rw [streakRecord, if_neg h0]
  dsimp only
  rw [if_neg hfav]
  exact standsFor_by_length hpos hmax ⟨hfits, by rw [recordPixels, hindex, getD_idxOf hcol]⟩
    ⟨hfits, by rw [recordPixels, hindex, getD_idxOf hcol]⟩

/-- A streak's record stands for the streak, where `NONFAV_INDEX` is the default or not asked (R183). -/
theorem streakRecord_standsFor (hcol : col = 0 ∨ col ∈ pal) (hpal : pal.length ≤ 256)
    (hindex : table = [] ∨ isNonFavourite (streakRecord table pal (col, l)) = false) :
    StandsFor pal (streakRecord table pal (col, l)) (List.replicate l col) := by
  by_cases h0 : col = 0
  · subst h0
    exact streakRecord_standsFor_transparent hpos hmax table
  have hmem := hcol.resolve_left h0
  by_cases hfav : pal.idxOf col < 16
  · exact streakRecord_standsFor_favourite hpos hmax table h0 hmem hfav
  rcases hindex with rfl | hnone
  · exact streakRecord_standsFor_nonFavourite hpos hmax h0 hmem hfav hpal
  · rw [streakRecord_isNonFavourite, decide_eq_true h0, decide_eq_true hfav] at hnone
    cases hnone

end

/-! ### Decoding what was written -/

/-- What was written is ahead once the context is rewound (R141, R144(b)). -/
theorem prefix_rest_writeCursor_openR (bits : List Bool) : bits <+: (writeCursor bits).openR.rest := by
  show bits <+: (bytesBits (packBits bits)).drop 0
  rw [bytesBits_packBits, List.drop_zero]
  exact List.prefix_append _ _

theorem RecordsWritten.recordsAhead {s t : State} {streaks : List (Pixel × Nat)} (h : RecordsWritten s t streaks) :
    RecordsAhead (decodeStart t) (recordsOf s streaks) where
  chroma := by show _ <+: t.ch.openR.rest; rw [h.ch]; exact prefix_rest_writeCursor_openR _
  count := by show _ <+: t.cn.openR.rest; rw [h.cn]; exact prefix_rest_writeCursor_openR _
  colourType := by show _ <+: t.ct.openR.rest; rw [h.ct]; exact prefix_rest_writeCursor_openR _
  body := by show _ <+: t.bd.openR.rest; rw [h.bd]; exact prefix_rest_writeCursor_openR _

/-- Each of these streaks has a record that stands for it. -/
def RecordsStandFor (s : State) (streaks : List (Pixel × Nat)) : Prop :=
  ∀ r ∈ streaks, StandsFor s.pal (streakRecord s.params.nonfav s.pal r) (List.replicate r.2 r.1)

theorem RecordsStandFor.fits {s : State} {streaks : List (Pixel × Nat)} (h : RecordsStandFor s streaks) :
    ∀ i ∈ recordsOf s streaks, recordFits s.pal i = true :=
  List.forall_mem_map.2 fun r hr => (h r hr).1

theorem RecordsStandFor.pixels {s : State} {streaks : List (Pixel × Nat)} (h : RecordsStandFor s streaks) :
    (recordsOf s streaks).flatMap (recordPixels s.pal) = expand streaks := by
  rw [recordsOf, List.flatMap_map, expand]
  exact List.flatMap_congr fun r hr => (h r hr).2

/-- The colours written are in the palette, so their records stand for their streaks (R183, R184). -/
theorem RecordsWritten.standFor {s t : State} {streaks : List (Pixel × Nat)} (h : RecordsWritten s t streaks)
    (hcolours : ∀ p ∈ s.pix, p ≠ 0 → p ∈ s.pal) (hpal : s.pal.length ≤ 256)
    (hindex : s.params.nonfav = [] ∨ (recordsOf s streaks).any isNonFavourite = false) : RecordsStandFor s streaks := by
  intro r hr
  obtain ⟨hpos, hmax⟩ := h.maximal.1 r hr
  have hcol : r.1 = 0 ∨ r.1 ∈ s.pal := or_iff_not_imp_left.2 (hcolours r.1 (h.pixels ▸ mem_expand hr hpos))
  refine streakRecord_standsFor hpos hmax _ hcol hpal (hindex.imp_right fun hnone => ?_)
  exact Bool.eq_false_of_not_eq_true (List.any_eq_false.1 hnone _ (List.mem_map_of_mem hr))

/-- `RleDecode()` of what was written replays the records, and their pixels are as many as the raster's (R189(e), R215). -/
theorem RecordsWritten.rleDecode {s t : State} {streaks : List (Pixel × Nat)} (h : RecordsWritten s t streaks)
    (hstand : RecordsStandFor s streaks) (hlen : s.pix.length = s.area) (hsmall : s.pix.length < 2 ^ 32) :
    ∃ u, rleDecode t = .ok () u ∧ u.fk = 0 ∧ u.out = s.pix ∧ u.nf = (recordsOf s streaks).any isNonFavourite := by
  have hcount := length_le_expand fun r hr => (h.maximal.1 r hr).1
  rw [h.pixels] at hcount
  have hsc : t.sc.toNat = (recordsOf s streaks).length := by
    rw [h.sc, BitVec.toNat_ofNat, Nat.mod_eq_of_lt (hcount.trans_lt hsmall), recordsOf, List.length_map]
  obtain ⟨u, hu⟩ : ∃ u, u = { (decodeStart t).replayed (recordsOf s streaks) with
    ri := (recordsOf s streaks).length } := ⟨_, rfl⟩
  have hout : u.out = s.pix := by
    rw [hu, ← h.pixels, ← hstand.pixels, ← h.pal]
    rfl
  have harea : u.out.length = u.area := by
    rw [hout, hlen, State.area, State.area, ← h.w, ← h.h, hu]
    rfl
  refine ⟨u, ?_, ?_, hout, ?_⟩
  · rw [rleDecode_of_ahead hsc h.recordsAhead (h.pal ▸ hstand.fits), ← hu, decodeEnd, if_neg (not_not.2 harea)]
  · rw [hu]
    exact h.fk
  · rw [hu]
    exact Bool.or_false _

/-- Settles O40: the records written are ahead, and each stands for its streak. -/
theorem rleDecodeInvertsRleEncode : Obligations.RleDecodeInvertsRleEncode := by
  intro s t hfk hpal hsmall hencode htfk hnonfav
  rw [exec_rleEncode_of_noFault hfk] at hencode
  obtain rfl := Host.Outcome.next.inj hencode
  rcases rleEncode_refused_or_ok Instr.rleEncode.word hfk with ⟨u, hrefused⟩ | ⟨_, t, hok, -⟩
  · rw [hrefused] at htfk
    exact absurd htfk (FaultKind.code_ne_zero .refused)
  rw [hok, Res.state_ok] at htfk hnonfav ⊢
  obtain ⟨streaks, hwritten, hnf⟩ := rleEncode_ok_recordsWritten hfk hsmall hok
  rw [hnf] at hnonfav ⊢
  have hstand := hwritten.standFor (rleEncode_ok_raster hok).2 hpal hnonfav
  obtain ⟨u, hdecode, hufk, hout, hunf⟩ := hwritten.rleDecode hstand (rleEncode_ok_area hok) hsmall
  refine ⟨u, ?_, hufk, hout, hunf⟩
  rw [show exec .rleDecode t = _ from command_next rleDecode t, if_pos htfk, hdecode, Res.state_ok]

end Sys2Proof.Machine


/-! The six record forms as instructions of their own (R206 to R211; log 7): each reads its field bits and its body bits,
whatever they are, and appends the run its operands name. -/

namespace Sys2Proof.Machine

/-! ### Bits that are there (R133) -/

theorem consume_of_room {s : State} {k : CurId} {n : Nat} (h : (s.cur k).pos + n ≤ 8 * (s.cur k).buf.length) :
    consume k n s = .ok () (s.skip k n) := by
  rw [consume_cases k n s (by omega), if_pos h]
  rfl

/-- The bits behind others that were read. -/
theorem consume_skip {s : State} {k : CurId} {m n : Nat} (h : (s.cur k).pos + (m + n) ≤ 8 * (s.cur k).buf.length) :
    consume k n (s.skip k m) = .ok () (s.skip k (m + n)) := by
  rw [consume_of_room, State.skip_skip]
  rw [State.skip, State.cur_setCur_same, Cursor.at_pos, Cursor.at_buf, Nat.add_assoc]
  exact h

/-- The streams hold the field bits of a record, whatever their values (R204). -/
structure FlagRoom (s : State) (coloured : Bool) : Prop where
  count : s.cn.pos < 8 * s.cn.buf.length
  chroma : s.ch.pos < 8 * s.ch.buf.length
  colourType : coloured = true → s.ct.pos < 8 * s.ct.buf.length

theorem FlagRoom.consumeFlags {s : State} {coloured : Bool} (h : FlagRoom s coloured) :
    consumeFlags coloured s = .ok () (s.skipFlags coloured) := by
  have hcn : consume .cn 1 s = _ := consume_of_room h.count
  have hch : consume .ch 1 (s.skip .cn 1) = _ := consume_of_room h.chroma
  rw [Machine.consumeFlags, hcn, Res.bind_ok, hch, Res.bind_ok]
  cases coloured with
  | false => rfl
  | true => exact consume_of_room (k := .ct) (h.colourType rfl)

/-! ### What each form does when its bits are there (R206 to R211) -/

section
variable {s : State} (hfk : s.fk = 0)
include hfk

/-- A form reads its field bits and goes on with its body. -/
theorem command_form {coloured : Bool} (h : FlagRoom s coloured) (body : State → Res Unit) :
    command (fun s => (consumeFlags coloured s).bind fun _ s => body s) s = .next (body (s.skipFlags coloured)).state := by
  rw [command_next, if_pos hfk, h.consumeFlags, Res.bind_ok]

/-- A form whose body is one group of bits. -/
theorem command_form_one {coloured : Bool} (h : FlagRoom s coloured) {n : Nat}
    (hbd : s.bd.pos + n ≤ 8 * s.bd.buf.length) (use : State → Res Unit) :
    command (fun s => (consumeFlags coloured s).bind fun _ s => (consume .bd n s).bind fun _ s => use s) s =
      .next (use ((s.skipFlags coloured).skip .bd n)).state := by
  rw [← s.skipFlags_bd coloured] at hbd
  have hread : consume .bd n (s.skipFlags coloured) = _ := consume_of_room hbd
  rw [command_form hfk h, hread, Res.bind_ok]

theorem exec_stT1 (h : FlagRoom s false) : exec .stT1 s = .next (appendRun 1 0 (s.skipFlags false)).state :=
  command_form hfk h _

theorem exec_stTR (h : FlagRoom s false) (hbd : s.bd.pos + 8 ≤ 8 * s.bd.buf.length) (l : BitVec 8) :
    exec (.stTR l) s = .next (appendRun (lengthOfPayload l.toNat) 0 ((s.skipFlags false).skip .bd 8)).state :=
  command_form_one hfk h hbd _

theorem exec_stF1 (h : FlagRoom s true) (hbd : s.bd.pos + 4 ≤ 8 * s.bd.buf.length) (i : BitVec 4) :
    exec (.stF1 i) s = .next (favouriteRun i.toNat 1 ((s.skipFlags true).skip .bd 4)).state :=
  command_form_one hfk h hbd _

/-- The length is read before the index (R205). -/
theorem exec_stFR (h : FlagRoom s true) (hbd : s.bd.pos + 12 ≤ 8 * s.bd.buf.length) (l : BitVec 8) (i : BitVec 4) :
    exec (.stFR l i) s =
      .next (favouriteRun i.toNat (lengthOfPayload l.toNat) ((s.skipFlags true).skip .bd 12)).state := by
  have hindex : consume .bd 4 ((s.skipFlags true).skip .bd 8) = .ok () ((s.skipFlags true).skip .bd 12) :=
    consume_skip (s := s.skipFlags true) (k := .bd) (m := 8) hbd
  refine (command_form_one hfk h (by omega) _).trans ?_
  rw [hindex, Res.bind_ok]

/-- `NF` is set before the index is read (R205; log 20). -/
theorem exec_stP1 (h : FlagRoom s true) (hbd : s.bd.pos + 8 ≤ 8 * s.bd.buf.length) (j : BitVec 8) :
    exec (.stP1 j) s = .next (paletteRun j.toNat 1 { (s.skipFlags true).skip .bd 8 with nf := true }).state := by
  have hindex : consume .bd 8 { s.skipFlags true with nf := true } =
      .ok () { (s.skipFlags true).skip .bd 8 with nf := true } := consume_of_room (k := .bd) hbd
  refine (command_form hfk h _).trans ?_
  rw [hindex, Res.bind_ok]

theorem exec_stPR (h : FlagRoom s true) (hbd : s.bd.pos + 16 ≤ 8 * s.bd.buf.length) (l j : BitVec 8) :
    exec (.stPR l j) s = .next (paletteRun j.toNat (lengthOfPayload l.toNat)
      { (s.skipFlags true).skip .bd 16 with nf := true }).state := by
  have hindex : consume .bd 8 { (s.skipFlags true).skip .bd 8 with nf := true } =
      .ok () { (s.skipFlags true).skip .bd 16 with nf := true } :=
    consume_skip (s := { s.skipFlags true with nf := true }) (k := .bd) (m := 8) hbd
  refine (command_form_one hfk h (by omega) _).trans ?_
  rw [hindex, Res.bind_ok]

end

/-! ### The runs by their indices (R213) -/

/-- The payload 0 is the length 256 (R102). -/
theorem lengthOfPayload_toNat (l : BitVec 8) : lengthOfPayload l.toNat = if l = 0 then 256 else l.toNat := by
  rw [lengthOfPayload]
  exact if_congr (BitVec.toNat_inj (y := 0)) rfl rfl

theorem favouriteRun_of_colour {s : State} {i : Nat} {col : Pixel} (hi : i < 16) (h : s.pal[i]? = some col) (l : Nat) :
    favouriteRun i l s = appendRun l col s := by
  obtain ⟨hlt, hcol⟩ := List.getElem?_eq_some_iff.1 h
  have hfav : i < favCount s.pal := lt_min hlt hi
  rw [favouriteRun_cases, if_pos hfav, List.getD_eq_getElem _ _ hlt, hcol, appendRun_eq]

theorem favouriteRun_of_noColour {s : State} {i : Nat} (h : s.pal.length ≤ i) (l : Nat) :
    favouriteRun i l s = raise .corruptStream 1 (favCount s.pal) i s := by
  rw [favouriteRun_cases, if_neg]
  exact not_lt.2 ((min_le_left _ _).trans h)

theorem paletteRun_of_colour {s : State} {j : Nat} {col : Pixel} (h : s.pal[j]? = some col) (l : Nat) :
    paletteRun j l s = appendRun l col s := by
  obtain ⟨hlt, hcol⟩ := List.getElem?_eq_some_iff.1 h
  rw [paletteRun_cases, if_pos hlt, List.getD_eq_getElem _ _ hlt, hcol, appendRun_eq]

theorem paletteRun_of_noColour {s : State} {j : Nat} (h : s.pal.length ≤ j) (l : Nat) :
    paletteRun j l s = raise .corruptStream 2 s.pal.length j s := by
  rw [paletteRun_cases, if_neg (not_lt.2 h)]

/-! ### The statements -/

/-- Settles O34: both transparent forms append zeros behind the bits they read. -/
theorem transparentRecordsAppendZeros : Obligations.TransparentRecordsAppendZeros := by
  intro s hfk hcn hch
  have hflags : FlagRoom s false := ⟨hcn, hch, nofun⟩
  refine ⟨exec_stT1 hfk hflags, fun l hbd => ?_⟩
  rw [exec_stTR hfk hflags hbd, lengthOfPayload_toNat]
  rfl

/-- Settles O35: both favourite forms, with an index that addresses a colour or not. -/
theorem favouriteRecordsAppendColour : Obligations.FavouriteRecordsAppendColour := by
  intro s l i hfk hcn hch hct
  have hflags : FlagRoom s true := ⟨hcn, hch, fun _ => hct⟩
  refine ⟨fun hbd => ⟨fun col hi hcol => ?_, fun hnone => ?_⟩, fun hbd => ⟨fun col hi hcol => ?_, fun hnone => ?_⟩⟩
  · rw [exec_stF1 hfk hflags hbd, favouriteRun_of_colour (col := col) hi]
    · rfl
    · exact hcol
  · rw [exec_stF1 hfk hflags hbd, favouriteRun_of_noColour]
    · rfl
    · exact hnone
  · rw [exec_stFR hfk hflags hbd, favouriteRun_of_colour (col := col) hi, lengthOfPayload_toNat]
    · rfl
    · exact hcol
  · rw [exec_stFR hfk hflags hbd, favouriteRun_of_noColour]
    · rfl
    · exact hnone

/-- Settles O36: both non-favourite forms, with an index that addresses a colour or not. -/
theorem paletteRecordsAppendColour : Obligations.PaletteRecordsAppendColour := by
  intro s l j hfk hcn hch hct
  have hflags : FlagRoom s true := ⟨hcn, hch, fun _ => hct⟩
  refine ⟨fun hbd => ⟨fun col hcol => ?_, fun hnone => ?_⟩, fun hbd => ⟨fun col hcol => ?_, fun hnone => ?_⟩⟩
  · rw [exec_stP1 hfk hflags hbd, paletteRun_of_colour (col := col)]
    · rfl
    · exact hcol
  · rw [exec_stP1 hfk hflags hbd, paletteRun_of_noColour]
    · rfl
    · exact hnone
  · rw [exec_stPR hfk hflags hbd, paletteRun_of_colour (col := col), lengthOfPayload_toNat]
    · rfl
    · exact hcol
  · rw [exec_stPR hfk hflags hbd, paletteRun_of_noColour]
    · rfl
    · exact hnone

end Sys2Proof.Machine


/-! Where a record is cut off (R204, R216): the record step of R205 reads count, chroma, colour-type and body in that order,
and the first stream without the bit names the fault. -/

namespace Sys2Proof.Machine

/-! ### A read at the end of a stream (R132, R133) -/

theorem Cursor.rest_length (c : Cursor) : c.rest.length = 8 * c.buf.length - c.pos := by
  rw [Cursor.rest, List.length_drop, bytesBits_length]

theorem Cursor.peek_one_of_head {c : Cursor} {b : Bool} (h : c.rest.head? = some b) : c.peek 1 = some [b] := by
  obtain ⟨more, hmore⟩ := List.head?_eq_some_iff.1 h
  exact Cursor.peek_of_prefix (bits := [b]) (List.cons_ne_nil _ _) (hmore ▸ List.prefix_append [b] more)

/-- The position is inside the buffer, or at its end, with fewer than `n` bits ahead. -/
structure Cursor.ShortOf (c : Cursor) (n : Nat) : Prop where
  inside : c.pos ≤ 8 * c.buf.length
  short : c.rest.length < n

theorem Cursor.ShortOf.of_rest_nil {c : Cursor} (hpos : c.pos ≤ 8 * c.buf.length) (h : c.rest = []) : c.ShortOf 1 :=
  ⟨hpos, h ▸ Nat.one_pos⟩

/-- The state after a read that ran out of bits: every bit there was is consumed, and `OutOfRange` names the stream (R133,
R262). -/
def State.runDry (s : State) (k : CurId) : State :=
  (s.setCur k ((s.cur k).at (8 * (s.cur k).buf.length))).takeFault .outOfRange k.num
    (8 * (s.cur k).buf.length) (8 * (s.cur k).buf.length)

theorem rdBits_of_short {s : State} {k : CurId} {n : Nat} (h : (s.cur k).ShortOf n) :
    rdBits k n s = .raised (s.runDry k) := by
  have hshort := h.short
  rw [Cursor.rest_length] at hshort
  rw [rdBits_cases k n s h.inside, if_neg (by omega), Nat.mul_comm _ 8]
  rfl

/-- With no bit ahead a read of one bit consumes nothing (R132). -/
theorem rdBits_one_of_short {s : State} {k : CurId} (h : (s.cur k).ShortOf 1) :
    rdBits k 1 s =
      .raised (s.takeFault .outOfRange k.num (8 * (s.cur k).buf.length) (8 * (s.cur k).buf.length)) := by
  have hend : (s.cur k).pos = 8 * (s.cur k).buf.length := by
    obtain ⟨hin, hshort⟩ := h
    rw [Cursor.rest_length] at hshort
    omega
  rw [rdBits_of_short h, State.runDry, ← hend, Cursor.at_self, State.setCur_cur]

/-! ### The first missing field bit (R205) -/

section
variable {s : State} {m : Bool}

theorem record_of_count_short (h : s.cn.ShortOf 1) : record s =
    .raised (s.takeFault .outOfRange 1 (8 * s.cn.buf.length) (8 * s.cn.buf.length)) := by
  have hcn : rdBits .cn 1 s = _ := rdBits_one_of_short h
  rw [record, hcn, Res.bind_raised]
  rfl

theorem record_of_chroma_short (hm : s.cn.peek 1 = some [m]) (h : s.ch.ShortOf 1) :
    record s =
      .raised ((s.skip .cn 1).takeFault .outOfRange 0 (8 * s.ch.buf.length) (8 * s.ch.buf.length)) := by
  have hcn : rdBits .cn 1 s = _ := rdBits_of_peek (by decide) hm
  have hch : rdBits .ch 1 (s.skip .cn 1) = _ := rdBits_one_of_short h
  rw [record, hcn, Res.bind_ok, hch, Res.bind_raised]
  rfl

theorem record_of_colourType_short (hm : s.cn.peek 1 = some [m]) (hc : s.ch.peek 1 = some [true]) (h : s.ct.ShortOf 1) :
    record s = .raised
      (((s.skip .cn 1).skip .ch 1).takeFault .outOfRange 2 (8 * s.ct.buf.length) (8 * s.ct.buf.length)) := by
  have hcn : rdBits .cn 1 s = _ := rdBits_of_peek (by decide) hm
  have hch : rdBits .ch 1 (s.skip .cn 1) = _ := rdBits_of_peek (by decide) hc
  have hct : rdBits .ct 1 ((s.skip .cn 1).skip .ch 1) = _ := rdBits_one_of_short h
  rw [record, hcn, Res.bind_ok, hch, Res.bind_ok, if_pos (by decide), hct, Res.bind_raised]
  rfl

end

/-! ### A body cut off (R205) -/

section
variable {s : State} {c m f : Bool}

/-- The length payload is cut off. -/
theorem FlagsAhead.record_of_length_short (h : FlagsAhead s true c f) (hf : c = false → f = false)
    (hshort : s.bd.ShortOf 8) : Machine.record s = .raised ((s.skipFlags c).runDry .bd) := by
  rw [← s.skipFlags_bd c] at hshort
  have hbd : rdBits .bd 8 (s.skipFlags c) = _ := rdBits_of_short hshort
  rw [h.record hf, if_pos rfl, hbd, Res.bind_raised, Res.bind_raised]

/-- The length payload is there, whatever its value, and the colour follows it. -/
theorem FlagsAhead.record_of_length (h : FlagsAhead s true c f) (hf : c = false → f = false)
    (hroom : 8 ≤ s.bd.rest.length) : ∃ l, Machine.record s = recordColour c f l ((s.skipFlags c).skip .bd 8) := by
  rw [← s.skipFlags_bd c, Cursor.rest_length] at hroom
  have hbd : rdBits .bd 8 (s.skipFlags c) = _ := rdBits_cases .bd 8 _ (by rw [State.cur_bd]; omega)
  rw [if_pos (by rw [State.cur_bd]; omega)] at hbd
  rw [h.record hf, if_pos rfl, hbd, Res.bind_ok, Res.bind_ok]
  exact ⟨_, rfl⟩

/-- The index is cut off; `NF` is set before a palette index is read (log 20). -/
theorem recordColour_of_short (h : s.bd.ShortOf (recordBodyBits true false f)) (l : Nat) :
    recordColour true f l s = .raised ({ s with nf := s.nf || !f }.runDry .bd) := by
  cases f with
  | true =>
    have hbd : rdBits .bd Config.favIdxBits s = _ := rdBits_of_short h
    rw [recordColour, if_pos rfl, if_pos rfl, hbd, Res.bind_raised, Bool.not_true, Bool.or_false]
  | false =>
    have hbd : rdBits .bd Config.palIdxBits { s with nf := true } = _ := rdBits_of_short h
    rw [recordColour, if_pos rfl, if_neg Bool.false_ne_true, hbd, Res.bind_raised, Bool.not_false, Bool.or_true]

/-- Behind `n` bits read, a context short of `n + r` bits is short of `r`. -/
theorem Cursor.ShortOf.at_add {c : Cursor} {n r : Nat} (h : c.ShortOf (n + r)) (hroom : n ≤ c.rest.length) :
    (c.at (c.pos + n)).ShortOf r := by
  obtain ⟨hin, hshort⟩ := h
  rw [Cursor.rest_length] at hroom hshort
  constructor
  · rw [Cursor.at_pos, Cursor.at_buf]
    omega
  · rw [Cursor.rest_length, Cursor.at_pos, Cursor.at_buf]
    omega

/-- A length payload comes before the index (R105). -/
theorem recordBodyBits_length (f : Bool) : recordBodyBits true true f = 8 + recordBodyBits true false f := by
  cases f <;> rfl

/-- A coloured record's body is cut off in its length or in its index. -/
theorem FlagsAhead.record_of_body_short (h : FlagsAhead s m true f) (hshort : s.bd.ShortOf (recordBodyBits true m f)) :
    Machine.record s = .raised ({ s.skipFlags true with
      nf := s.nf || !f && (!m || decide (8 ≤ s.bd.rest.length)) }.runDry .bd) := by
  cases m with
  | false =>
    have hcolour := recordColour_of_short (s := s.skipFlags true) hshort 1
    rw [h.record_single nofun, hcolour, Bool.not_false, Bool.true_or, Bool.and_true]
    rfl
  | true =>
    by_cases hroom : 8 ≤ s.bd.rest.length
    · have hrest : (s.bd.at (s.bd.pos + 8)).ShortOf (recordBodyBits true false f) :=
        .at_add (recordBodyBits_length f ▸ hshort) hroom
      obtain ⟨l, hrecord⟩ := h.record_of_length nofun hroom
      rw [hrecord, recordColour_of_short hrest, decide_eq_true hroom, Bool.or_true, Bool.and_true]
      rfl
    · rw [h.record_of_length_short nofun ⟨hshort.inside, not_le.1 hroom⟩, decide_eq_false hroom, Bool.not_true,
        Bool.or_false, Bool.and_false, Bool.or_false]
      rfl

end

theorem Cursor.exists_peek_one {c : Cursor} (h : c.rest ≠ []) : ∃ b, c.peek 1 = some [b] :=
  ⟨_, Cursor.peek_one_of_head (List.head?_eq_some_head h)⟩

/-- Settles O38: the streams in the order of the reads, the first of them that is short of its bits. -/
theorem truncatedRecordNamesItsStream : Obligations.TruncatedRecordNamesItsStream := by
  intro s _ hpos
  refine ⟨fun hcn => ?_, fun hcn hch => ?_, fun hcn hch hct => ?_, fun m f hm hc hf hbd => ?_, fun hm hc hbd => ?_⟩
  · rw [record_of_count_short (.of_rest_nil (hpos .cn) hcn)]
    rfl
  · obtain ⟨m, hm⟩ := Cursor.exists_peek_one hcn
    rw [record_of_chroma_short hm (.of_rest_nil (hpos .ch) hch)]
    rfl
  · obtain ⟨m, hm⟩ := Cursor.exists_peek_one hcn
    rw [record_of_colourType_short hm (Cursor.peek_one_of_head hch) (.of_rest_nil (hpos .ct) hct)]
    rfl
  · have hflags : FlagsAhead s m true f :=
      ⟨Cursor.peek_one_of_head hm, Cursor.peek_one_of_head hc, fun _ => Cursor.peek_one_of_head hf⟩
    rw [hflags.record_of_body_short ⟨hpos .bd, hbd⟩]
    rfl
  · have hflags : FlagsAhead s true false false := ⟨Cursor.peek_one_of_head hm, Cursor.peek_one_of_head hc, nofun⟩
    rw [hflags.record_of_length_short (fun _ => rfl) ⟨hpos .bd, hbd⟩]
    rfl

end Sys2Proof.Machine


/-! `RLE_DECODE` as a whole (R201): the state after the records ahead, the one terminal check (R215), and the stop at the
first record step that takes a fault (R270). -/

namespace Sys2Proof.Machine

/-! ### The state after the records ahead (R201, R212) -/

/-- The streams begin with the bits of these records (R100). -/
structure StreamsBegin (s : State) (records : List Instr) : Prop where
  chroma : chromaBits records <+: bytesBits s.ch.buf
  count : countBits records <+: bytesBits s.cn.buf
  colourType : colourTypeBits records <+: bytesBits s.ct.buf
  body : bodyBits records <+: bytesBits s.bd.buf

/-- Rewound, the streams have those records ahead (R203). -/
theorem StreamsBegin.recordsAhead {s : State} {records : List Instr} (h : StreamsBegin s records) :
    RecordsAhead (decodeStart s) records := ⟨h.chroma, h.count, h.colourType, h.body⟩

/-- The state of `RLE_DECODE` in front of the record behind these ones. -/
def State.decoded (s : State) (records : List Instr) : State :=
  { (decodeStart s).replayed records with ri := records.length }

theorem Cursor.at_openR_pos_add (c : Cursor) (n : Nat) : c.openR.at (c.openR.pos + n) = c.openR.at n :=
  congrArg c.openR.at (Nat.zero_add n)

theorem State.decoded_eq (s : State) (records : List Instr) : s.decoded records = { s with
    ch := s.ch.openR.at (chromaBits records).length
    cn := s.cn.openR.at (countBits records).length
    ct := s.ct.openR.at (colourTypeBits records).length
    bd := s.bd.openR.at (bodyBits records).length
    out := records.flatMap (recordPixels s.pal)
    ri := records.length
    nf := records.any isNonFavourite } := by
  rw [← s.ch.at_openR_pos_add, ← s.cn.at_openR_pos_add, ← s.ct.at_openR_pos_add, ← s.bd.at_openR_pos_add,
    ← Bool.or_false (records.any isNonFavourite)]
  rfl

theorem State.decoded_area (s : State) (records : List Instr) : (s.decoded records).area = s.w.toNat * s.h.toNat := rfl

theorem exec_rleDecode_of_noFault {s : State} (hfk : s.fk = 0) : exec .rleDecode s = .next (rleDecode s).state :=
  (command_next rleDecode s).trans (by rw [if_pos hfk])

/-- Settles O39: the records are replayed, and then the total is checked once. -/
theorem rleDecodeReplaysRecords : Obligations.RleDecodeReplaysRecords := by
  intro s records hfk hsc hfits hch hcn hct hbd
  have hstreams : StreamsBegin s records := ⟨hch, hcn, hct, hbd⟩
  have hrun : exec .rleDecode s = .next (decodeEnd (s.decoded records)).state := by
    rw [exec_rleDecode_of_noFault hfk, rleDecode_of_ahead hsc hstreams.recordsAhead hfits, State.decoded]
  refine ⟨s.decoded records, s.decoded_eq records, fun htotal => ?_, fun htotal => ?_⟩
  · rw [hrun, decodeEnd, State.decoded_area, if_neg (not_not.2 htotal)]
    rfl
  · rw [hrun, decodeEnd, State.decoded_area, if_pos htotal]
    rfl

/-! ### A record step that takes a fault (R205, R270) -/

theorem Res.settled.bind {α β : Type} {r : Res α} (hr : r.settled) {f : α → State → Res β}
    (hf : ∀ a s, s.fk = 0 → (f a s).settled) : (r.bind f).settled := by
  cases r with
  | ok a s => exact hf a s hr
  | raised s => exact hr

theorem Res.settled.eq_raised {α : Type} {r : Res α} (hr : r.settled) (hfk : r.state.fk ≠ 0) : r = .raised r.state := by
  cases r with
  | ok a s => exact absurd hr hfk
  | raised s => rfl

theorem rdBits_settled (k : CurId) (n : Nat) {s : State} (h : s.fk = 0) : (rdBits k n s).settled := by
  unfold rdBits
  split
  · exact (State.setCur_fk _ _ _).trans h
  · exact raise_settled _ _ _ _ _

theorem favouriteRun_settled (i l : Nat) {s : State} (h : s.fk = 0) : (favouriteRun i l s).settled := by
  rw [favouriteRun_cases]
  split
  · exact h
  · exact raise_settled _ _ _ _ _

theorem paletteRun_settled (j l : Nat) {s : State} (h : s.fk = 0) : (paletteRun j l s).settled := by
  rw [paletteRun_cases]
  split
  · exact h
  · exact raise_settled _ _ _ _ _

theorem recordColour_settled (c f : Bool) (l : Nat) {s : State} (h : s.fk = 0) : (recordColour c f l s).settled := by
  unfold recordColour
  split_ifs
  · exact (rdBits_settled _ _ h).bind fun i t ht => favouriteRun_settled i l ht
  · have hread := rdBits_settled .bd Config.palIdxBits (s := { s with nf := true }) h
    exact hread.bind fun j t ht => paletteRun_settled j l ht
  · exact h

/-- The record step goes on without a fault or is cut short by one. -/
theorem record_settled {s : State} (h : s.fk = 0) : (record s).settled := by
  refine (rdBits_settled .cn 1 h).bind fun m t ht => (rdBits_settled .ch 1 ht).bind fun c t ht => ?_
  refine Res.settled.bind ?colourType fun f t ht => Res.settled.bind ?length fun l t ht => recordColour_settled _ _ l ht
  case colourType =>
    split
    · exact rdBits_settled .ct 1 ht
    · exact ht
  case length =>
    split
    · exact (rdBits_settled .bd _ ht).bind fun p t ht => ht
    · exact ht

/-! ### The stop at a bad record (R201, R270) -/

theorem decodeLoop_add (m n : Nat) (s : State) :
    decodeLoop (m + n) s = (decodeLoop m s).bind fun _ t => decodeLoop n t := by
  induction m generalizing s with
  | zero => rw [Nat.zero_add, decodeLoop, Res.bind_ok]
  | succ m ih =>
    rw [Nat.add_right_comm, decodeLoop, decodeLoop]
    cases record s with
    | ok _ t => exact ih _
    | raised t => rfl

/-- After the records ahead the loop runs the next record's step, and its fault is where `RleDecode()` stops. -/
theorem rleDecode_of_bad_record {s t : State} {records : List Instr} (hsc : records.length < s.sc.toNat)
    (h : StreamsBegin s records) (hfits : ∀ i ∈ records, recordFits s.pal i = true)
    (hbad : record (s.decoded records) = .raised t) : rleDecode s = .raised t := by
  obtain ⟨n, hn⟩ := Nat.exists_eq_add_of_lt hsc
  have hloop : decodeLoop records.length (decodeStart s) = .ok () (s.decoded records) := by
    rw [decodeLoop_of_ahead h.recordsAhead hfits, show (decodeStart s).ri = 0 from rfl, Nat.zero_add]
    rfl
  rw [rleDecode, hn, Nat.add_assoc, decodeLoop_add, hloop, Res.bind_ok, decodeLoop, hbad, Res.bind_raised, Res.bind_raised]

/-- Settles O55: the step of the bad record ends the loop. -/
theorem rleDecodeStopsAtTheFirstBadRecord : Obligations.RleDecodeStopsAtTheFirstBadRecord := by
  intro s t records hfk hsc hfits hch hcn hct hbd ht hbad
  rw [← State.decoded_eq] at ht
  subst ht
  have hsettled : (record (s.decoded records)).settled := record_settled hfk
  rw [exec_rleDecode_of_noFault hfk, rleDecode_of_bad_record hsc ⟨hch, hcn, hct, hbd⟩ hfits (hsettled.eq_raised hbad),
    Res.state_raised]

end Sys2Proof.Machine


/-! The checks of `TAL_SERIALIZE` (R232, R253): the first that fails is the whole of what the command does. -/

namespace Sys2Proof.Machine

theorem streamTooLong_iff {s : State} :
    streamTooLong s = true ↔ ∃ k, k ≠ .fr ∧ 2 ^ 32 ≤ (s.cur k).buf.length := by
  simp only [streamTooLong, Bool.or_eq_true, decide_eq_true_eq]
  constructor
  · rintro (((hch | hcn) | hct) | hbd)
    exacts [⟨.ch, by decide, hch⟩, ⟨.cn, by decide, hcn⟩, ⟨.ct, by decide, hct⟩, ⟨.bd, by decide, hbd⟩]
  · rintro ⟨k, hk, hlong⟩
    cases k with
    | ch => exact .inl (.inl (.inl hlong))
    | cn => exact .inl (.inl (.inr hlong))
    | ct => exact .inl (.inr hlong)
    | bd => exact .inr hlong
    | fr => exact absurd rfl hk

theorem talSerialize_of_wide (cw : Word) {s : State} (h : Config.dimMax < s.w.toNat) :
    talSerialize cw s = raise .imageSize 1 Config.dimMax s.w.toNat s := if_pos h

theorem talSerialize_of_high (cw : Word) {s : State} (hw : s.w.toNat ≤ Config.dimMax) (h : Config.dimMax < s.h.toNat) :
    talSerialize cw s = raise .imageSize 2 Config.dimMax s.h.toNat s :=
  (if_neg (not_lt.2 hw)).trans (if_pos h)

theorem talSerialize_of_too_large (cw : Word) {s : State} (hw : s.w.toNat ≤ Config.dimMax)
    (hh : s.h.toNat ≤ Config.dimMax) (h : Config.frameMax < s.pal.length ∨ streamTooLong s = true) :
    talSerialize cw s = refuse cw s := by
  rw [talSerialize, if_neg (not_lt.2 hw), if_neg (not_lt.2 hh)]
  split_ifs with hpal hlong
  · rfl
  · rfl
  · exact (h.elim hpal hlong).elim

/-- Settles O42: each check is the first test the command makes, after those before it have passed. -/
theorem serializeChecksInOrder : Obligations.SerializeChecksInOrder := by
  intro s hfk
  refine ⟨fun hw => ?_, fun hw hh => ?_, fun hw hh hlarge => ?_⟩
  · exact command_of_raise _ hfk (talSerialize_of_wide Instr.talSerialize.word hw)
  · exact command_of_raise _ hfk (talSerialize_of_high Instr.talSerialize.word hw hh)
  · exact command_of_raise _ hfk
      (talSerialize_of_too_large Instr.talSerialize.word hw hh (hlarge.imp_right streamTooLong_iff.2))

end Sys2Proof.Machine


/-! The checks of `TAL_PARSE` (R236 to R242, R253): they read nothing but the file, and the first that fails decides the
fault. -/

namespace Sys2Proof.Machine

/-! ### The checks as a function of the file -/

/-- A fault with its `INFO`, as a check of R236 raises it. -/
structure ParseFault where
  kind : FaultKind
  sub : Nat
  expected : Nat
  actual : Nat

/-- Where the header of a file ends, by its count byte (R110). -/
def headerEnd (b : List Byte) : Nat := 29 + 4 * (b.getD 12 0).toNat

/-- Where the three fields of a file end, by its length registers, as a natural number (R241). -/
def fieldsEnd (b : List Byte) : Nat :=
  headerEnd b + be32Nat b (13 + 4 * (b.getD 12 0).toNat) + be32Nat b (17 + 4 * (b.getD 12 0).toNat) +
    be32Nat b (21 + 4 * (b.getD 12 0).toNat)

/-- How many bytes the streak count of a file asks of each field with a bit per record (R242). -/
def streakBytes (b : List Byte) : Nat := ceil8 (be32Nat b (25 + 4 * (b.getD 12 0).toNat))

/-- The fault of the first check that a file fails of those behind its dimensions (R240 to R242). -/
def fieldsFault (b : List Byte) : Option ParseFault :=
  if b.length < headerEnd b then some ⟨.corruptStream, 3, headerEnd b, b.length⟩
  else if b.length < fieldsEnd b then some ⟨.corruptStream, 4, fieldsEnd b, b.length⟩
  else if be32Nat b (13 + 4 * (b.getD 12 0).toNat) < streakBytes b then
    some ⟨.corruptStream, 5, streakBytes b, be32Nat b (13 + 4 * (b.getD 12 0).toNat)⟩
  else if be32Nat b (17 + 4 * (b.getD 12 0).toNat) < streakBytes b then
    some ⟨.corruptStream, 6, streakBytes b, be32Nat b (17 + 4 * (b.getD 12 0).toNat)⟩
  else none

/-- The fault of the first check of R236 that a file fails, in the order of R253. -/
def parseFault (b : List Byte) : Option ParseFault :=
  if b.length < 19 then some ⟨.imageSize, 0, 19, b.length⟩
  else if b.take 3 ≠ Config.signature then
    some ⟨.unrecognizedSignature, 0, 0x080903,
      (b.getD 0 0).toNat * 65536 + (b.getD 1 0).toNat * 256 + (b.getD 2 0).toNat⟩
  else if b.getD 3 0 ≠ Config.version then some ⟨.versionMismatch, 0, 1, (b.getD 3 0).toNat⟩
  else if 8192 < be32Nat b 4 then some ⟨.imageSize, 1, 8192, be32Nat b 4⟩
  else if 8192 < be32Nat b 8 then some ⟨.imageSize, 2, 8192, be32Nat b 8⟩
  else fieldsFault b

/-- What `TAL_PARSE` commits of a file that passes its checks (R236, R245). -/
def State.withParsed (s : State) (b : List Byte) : State :=
  let n := (b.getD 12 0).toNat
  { s with
    w := be32At b 4, h := be32At b 8, pal := parsePalette b n
    lch := be32At b (13 + 4 * n), lcn := be32At b (17 + 4 * n), lct := be32At b (21 + 4 * n), sc := be32At b (25 + 4 * n)
    ch := Cursor.loaded (slice b (headerEnd b) (be32Nat b (13 + 4 * n)))
    cn := Cursor.loaded (slice b (headerEnd b + be32Nat b (13 + 4 * n)) (be32Nat b (17 + 4 * n)))
    ct := Cursor.loaded (slice b (headerEnd b + be32Nat b (13 + 4 * n) + be32Nat b (17 + 4 * n)) (be32Nat b (21 + 4 * n)))
    bd := Cursor.loaded (b.drop (fieldsEnd b)) }

/-- A big-endian word is the number of R12. -/
theorem be32At_toNat (b : List Byte) (a : Nat) : (be32At b a).toNat = be32Nat b a := by
  have h (x y z u : Byte) : (x ++ y ++ z ++ u).toNat =
      x.toNat * 2 ^ 24 + y.toNat * 2 ^ 16 + z.toNat * 2 ^ 8 + u.toNat := by
    simp only [BitVec.toNat_append]
    rw [← Nat.shiftLeft_add_eq_or_of_lt y.isLt, ← Nat.shiftLeft_add_eq_or_of_lt z.isLt,
      ← Nat.shiftLeft_add_eq_or_of_lt u.isLt]
    omega
  exact h _ _ _ _

/-- How `TalParse()` ends on a file `b`: with this fault, or with the commit (R236, R270). -/
def State.endParse (s : State) (b : List Byte) : Option ParseFault → Res Unit
  | some f => raise f.kind f.sub f.expected f.actual s
  | none => .ok () (s.withParsed b)

/-- `TalParse()` rewinds `cur[4]` and then raises the first failing check's fault or commits (R236). -/
theorem talParse_eq (s : State) : talParse s = (openR .fr s).endParse s.fr.buf (parseFault s.fr.buf) := by
  have hopen : (openR .fr s).fr.buf = s.fr.buf := rfl
  unfold talParse parseFault fieldsFault
  simp only [apply_ite (State.endParse _ _), hopen, be32At_toNat]
  rfl

theorem exec_talParse_of_noFault {s : State} (hfk : s.fk = 0) : exec .talParse s = .next (talParse s).state :=
  (command_next talParse s).trans (by rw [if_pos hfk])

/-- A failing check: `cur[4]` is rewound and the fault taken, and that is all (R236, R270). -/
theorem exec_talParse_of_fault {s : State} {f : ParseFault} (hfk : s.fk = 0) (h : parseFault s.fr.buf = some f) :
    exec .talParse s = .next ((openR .fr s).takeFault f.kind f.sub f.expected f.actual) := by
  rw [exec_talParse_of_noFault hfk, talParse_eq, h]
  rfl

/-! ### Their order (R253) -/

section
variable {b : List Byte}

theorem parseFault_of_short (h : b.length < 19) : parseFault b = some ⟨.imageSize, 0, 19, b.length⟩ := if_pos h

theorem parseFault_of_signature (hlen : 19 ≤ b.length) (h : b.take 3 ≠ Config.signature) : parseFault b =
    some ⟨.unrecognizedSignature, 0, 0x080903,
      (b.getD 0 0).toNat * 65536 + (b.getD 1 0).toNat * 256 + (b.getD 2 0).toNat⟩ := by
  rw [parseFault, if_neg (not_lt.2 hlen), if_pos h]

theorem parseFault_of_version (hlen : 19 ≤ b.length) (hsig : b.take 3 = Config.signature)
    (h : b.getD 3 0 ≠ Config.version) : parseFault b = some ⟨.versionMismatch, 0, 1, (b.getD 3 0).toNat⟩ := by
  rw [parseFault, if_neg (not_lt.2 hlen), if_neg (not_not.2 hsig), if_pos h]

/-- The file begins as a container of this version. -/
structure ContainerBegins (b : List Byte) : Prop where
  size : 19 ≤ b.length
  signature : b.take 3 = Config.signature
  version : b.getD 3 0 = Config.version

/-- The checks behind those of the first four bytes. -/
theorem ContainerBegins.parseFault_eq (h : ContainerBegins b) : parseFault b =
    if 8192 < be32Nat b 4 then some ⟨.imageSize, 1, 8192, be32Nat b 4⟩
    else if 8192 < be32Nat b 8 then some ⟨.imageSize, 2, 8192, be32Nat b 8⟩
    else fieldsFault b := by
  rw [parseFault, if_neg (not_lt.2 h.size), if_neg (not_not.2 h.signature), if_neg (not_not.2 h.version)]

/-- The checks of the extents and the streak count, behind those of the dimensions. -/
theorem ContainerBegins.parseFault_of_size (h : ContainerBegins b) (hw : be32Nat b 4 ≤ 8192) (hh : be32Nat b 8 ≤ 8192) :
    parseFault b = fieldsFault b := by
  rw [h.parseFault_eq, if_neg (not_lt.2 hw), if_neg (not_lt.2 hh)]

theorem headerEnd_le_fieldsEnd (b : List Byte) : headerEnd b ≤ fieldsEnd b := by
  rw [fieldsEnd]
  omega

theorem fieldsFault_of_chroma (hend : fieldsEnd b ≤ b.length)
    (h : be32Nat b (13 + 4 * (b.getD 12 0).toNat) < streakBytes b) :
    fieldsFault b = some ⟨.corruptStream, 5, streakBytes b, be32Nat b (13 + 4 * (b.getD 12 0).toNat)⟩ := by
  rw [fieldsFault, if_neg (not_lt.2 ((headerEnd_le_fieldsEnd b).trans hend)), if_neg (not_lt.2 hend), if_pos h]

theorem fieldsFault_of_count (hend : fieldsEnd b ≤ b.length)
    (hch : streakBytes b ≤ be32Nat b (13 + 4 * (b.getD 12 0).toNat))
    (h : be32Nat b (17 + 4 * (b.getD 12 0).toNat) < streakBytes b) :
    fieldsFault b = some ⟨.corruptStream, 6, streakBytes b, be32Nat b (17 + 4 * (b.getD 12 0).toNat)⟩ := by
  rw [fieldsFault, if_neg (not_lt.2 ((headerEnd_le_fieldsEnd b).trans hend)), if_neg (not_lt.2 hend),
    if_neg (not_lt.2 hch), if_pos h]

end

/-- Settles O44: the fault is that of the first failing check. -/
theorem parseChecksInOrder : Obligations.ParseChecksInOrder := by
  intro s b n o0 o3 hfk hb hn ho0 ho3
  subst ho3 ho0 hn hb
  have raises {f : ParseFault} := exec_talParse_of_fault (s := s) (f := f) hfk
  refine ⟨openR .fr s, rfl, fun hlen => ?size, fun hlen hsig => ?signature, fun hlen hsig =>
    ⟨fun hver => ?version, fun hver => ?fields⟩⟩
  case size => exact raises (parseFault_of_short hlen)
  case signature => exact raises (parseFault_of_signature hlen hsig)
  case version => exact raises (parseFault_of_version hlen hsig hver)
  case fields =>
    have hbegins : ContainerBegins s.fr.buf := ⟨hlen, hsig, hver⟩
    refine ⟨fun hw => ?_, fun hw hh => ?_, fun hw hh => ?_⟩
    · exact raises (hbegins.parseFault_eq.trans (if_pos hw))
    · exact raises (hbegins.parseFault_eq.trans ((if_neg (not_lt.2 hw)).trans (if_pos hh)))
    have hfields := hbegins.parseFault_of_size hw hh
    refine ⟨fun hhead => ?_, fun hhead hext => ?_, fun hext hch => ?_, fun hext hch hcn => ?_⟩
    · exact raises (hfields.trans (if_pos hhead))
    · exact raises (hfields.trans ((if_neg (not_lt.2 hhead)).trans (if_pos hext)))
    · exact raises (hfields.trans (fieldsFault_of_chroma hext hch))
    · exact raises (hfields.trans (fieldsFault_of_count hext hch hcn))

end Sys2Proof.Machine


/-! `TAL_PARSE` and `TAL_SERIALIZE` undo each other (R246): a run that goes on passed all its checks, so what was written is
a container, and a file that parses is the container of its own fields. -/

namespace Sys2Proof.Machine

/-! ### A serialisation that goes on (R231) -/

theorem Res.settled.eq_ok {r : Res Unit} (hr : r.settled) (hfk : r.state.fk = 0) : r = .ok () r.state := by
  cases r with
  | ok a s => rfl
  | raised s => exact absurd hfk hr

theorem wrSeq_settled (cw : Word) (k : CurId) (bits : List Bool) {s : State} (h : s.fk = 0) :
    (wrSeq cw k bits s).settled :=
  (SameButWord.wrSeq (cw' := cw) k bits h).settled

theorem talSerialize_settled (cw : Word) {s : State} (h : s.fk = 0) : (talSerialize cw s).settled := by
  unfold talSerialize
  split_ifs
  iterate 4 exact raise_settled _ _ _ _ _
  exact (wrSeq_settled cw .fr _ (s := openW .fr s) h).bind fun _ t ht => wrSeq_settled cw .fr _ (s := t.setLengths) ht

/-- Whole bytes that went behind whole bytes. -/
theorem wrSeq_bytes_ok {cw : Word} {k : CurId} {done more : List Byte} {s t : State} {a : Unit}
    (hcur : s.cur k = writeCursor (bytesBits done)) (h : wrSeq cw k (bytesBits more) s = .ok a t) :
    t = s.setCur k (writeCursor (bytesBits (done ++ more))) := by
  rw [wrSeq_cases cw k _ _ s hcur] at h
  split at h
  · cases h
    rw [bytesBits_append]
  · cases h

/-- Past its checks no test of `TalSerialize()` is left but the capacity's (R232, R146). -/
theorem talSerialize_ok_serializable {cw : Word} {s t : State} {a : Unit} (h : talSerialize cw s = .ok a t) :
    serializable s := by
  unfold talSerialize at h
  split_ifs at h with hw hh hpal hlong
  iterate 4 cases h
  exact ⟨not_lt.1 hw, not_lt.1 hh, not_lt.1 hpal, Bool.eq_false_of_not_eq_true hlong⟩

/-- `TalSerialize()` that goes on has written the container (R231, R233). -/
theorem talSerialize_ok {cw : Word} {s t : State} {a : Unit} {file : List Byte} (h : talSerialize cw s = .ok a t)
    (hfile : file = containerBytes s.w s.h s.pal s.sc s.ch.buf s.cn.buf s.ct.buf s.bd.buf) :
    t = s.setLengths.setCur .fr ⟨file, file.length, 0, .writing⟩ := by
  rw [talSerialize_of_serializable cw s (talSerialize_ok_serializable h), headerGroups_eq_containerHeader] at h
  obtain ⟨_, u, hheader, hpayload⟩ := Res.bind_eq_ok h
  obtain rfl := wrSeq_bytes_ok (done := []) rfl hheader
  rw [payloadGroups_eq_containerPayload] at hpayload
  rw [wrSeq_bytes_ok (done := containerHeader s.w s.h s.pal) rfl hpayload, hfile, containerBytes_eq, ← writeCursor_bytes]
  rfl

theorem serializable.stream_length {s : State} (h : serializable s) {k : CurId} (hk : k ≠ .fr) :
    (s.cur k).buf.length < 2 ^ 32 := by
  obtain ⟨-, -, -, hlong⟩ := h
  by_contra hk'
  rw [streamTooLong_iff.2 ⟨k, hk, not_lt.1 hk'⟩] at hlong
  cases hlong

/-! ### The file of a parse (R110, R236) -/

section
variable {b : List Byte}

theorem slice_length {a n : Nat} (h : a + n ≤ b.length) : (slice b a n).length = n := by
  rw [slice, List.length_take, List.length_drop]
  omega

theorem slice_append_drop {a n c : Nat} (h : a + n = c) : slice b a n ++ b.drop c = b.drop a := by
  rw [slice, ← h, ← List.drop_drop, List.take_append_drop]

theorem slice_add (a m n : Nat) : slice b a (m + n) = slice b a m ++ slice b (a + m) n := by
  rw [slice, List.take_add, List.drop_drop, slice, slice]

theorem slice_one {a : Nat} (h : a < b.length) : slice b a 1 = [byteAt b a] := by
  rw [slice, List.drop_eq_getElem_cons h, byteAt, List.getD_eq_getElem _ _ h]
  rfl

/-- The bytes of a word put together from four bytes are those bytes (R64). -/
theorem be32_append (x y z u : Byte) : be32 (x ++ y ++ z ++ u) = [x, y, z, u] := by
  have skip (n : Nat) {w : Nat} (v : BitVec w) (b : Byte) : (v ++ b).extractLsb' (n + 8) 8 = v.extractLsb' n 8 := by
    rw [BitVec.extractLsb'_append_eq_of_le (Nat.le_add_left 8 n), Nat.add_sub_cancel]
  simp only [be32, List.cons.injEq, and_true]
  exact ⟨(skip 16 _ u).trans ((skip 8 _ z).trans BitVec.extractLsb'_append_eq_left),
    (skip 8 _ u).trans ((skip 0 _ z).trans BitVec.extractLsb'_append_eq_right),
    (skip 0 _ u).trans BitVec.extractLsb'_append_eq_right, BitVec.extractLsb'_append_eq_right⟩

theorem be32_be32At {a : Nat} (h : a + 4 ≤ b.length) : be32 (be32At b a) = slice b a 4 := by
  rw [be32At, be32_append, slice_add a 3 1, slice_add a 2 1, slice_add a 1 1, slice_one (by omega), slice_one (by omega),
    slice_one (by omega), slice_one (by omega)]
  rfl

theorem flatMap_be32_parsePalette {n : Nat} (h : 13 + 4 * n ≤ b.length) :
    (parsePalette b n).flatMap be32 = slice b 13 (4 * n) := by
  induction n with
  | zero => rfl
  | succ n ih =>
    rw [parsePalette, List.range_succ, List.map_append, List.flatMap_append, ← parsePalette, ih (by omega), Nat.mul_succ,
      slice_add, List.map_singleton, List.flatMap_singleton, be32_be32At (by omega)]

/-- A file that passes the checks of R236. -/
structure Parses (b : List Byte) : Prop extends ContainerBegins b where
  width : be32Nat b 4 ≤ 8192
  height : be32Nat b 8 ≤ 8192
  extent : fieldsEnd b ≤ b.length
  chroma : streakBytes b ≤ be32Nat b (13 + 4 * (b.getD 12 0).toNat)
  count : streakBytes b ≤ be32Nat b (17 + 4 * (b.getD 12 0).toNat)

theorem Parses.of_no_fault (h : parseFault b = none) : Parses b := by
  unfold parseFault fieldsFault at h
  split_ifs at h with hlen hsig hver hw hh hhead hext hch hcn
  exact ⟨⟨not_lt.1 hlen, not_not.1 hsig, not_not.1 hver⟩, not_lt.1 hw, not_lt.1 hh, not_lt.1 hext, not_lt.1 hch,
    not_lt.1 hcn⟩

/-- The first four bytes (R112, R113). -/
theorem ContainerBegins.slice_eq (h : ContainerBegins b) : slice b 0 4 = [0x08#8, 0x09#8, 0x03#8, 0x01#8] := by
  have hsig : slice b 0 3 = Config.signature := h.signature
  have hver : byteAt b 3 = Config.version := h.version
  have hsize := h.size
  rw [slice_add 0 3 1, hsig, slice_one (by omega), hver]
  rfl

theorem ofNat_be32Nat (b : List Byte) (a : Nat) : BitVec.ofNat 32 (be32Nat b a) = be32At b a := by
  rw [← be32At_toNat, BitVec.ofNat_toNat, BitVec.setWidth_eq]

section
variable (h : Parses b)
include h

/-- The three fields stand inside the file (R241). -/
theorem Parses.field_lengths :
    (slice b (headerEnd b) (be32Nat b (13 + 4 * (b.getD 12 0).toNat))).length =
      be32Nat b (13 + 4 * (b.getD 12 0).toNat) ∧
    (slice b (headerEnd b + be32Nat b (13 + 4 * (b.getD 12 0).toNat))
      (be32Nat b (17 + 4 * (b.getD 12 0).toNat))).length = be32Nat b (17 + 4 * (b.getD 12 0).toNat) ∧
    (slice b (headerEnd b + be32Nat b (13 + 4 * (b.getD 12 0).toNat) + be32Nat b (17 + 4 * (b.getD 12 0).toNat))
      (be32Nat b (21 + 4 * (b.getD 12 0).toNat))).length = be32Nat b (21 + 4 * (b.getD 12 0).toNat) := by
  have hext := h.extent
  rw [fieldsEnd] at hext
  exact ⟨slice_length (by omega), slice_length (by omega), slice_length (by omega)⟩

/-- A file that parses is the container of the fields found in it. -/
theorem Parses.containerBytes_withParsed {s t : State} (ht : t = s.withParsed b) :
    containerBytes t.w t.h t.pal t.sc t.ch.buf t.cn.buf t.ct.buf t.bd.buf = b := by
  obtain ⟨n, hn⟩ : ∃ n, n = (b.getD 12 0).toNat := ⟨_, rfl⟩
  obtain ⟨hch, hcn, hct⟩ := h.field_lengths
  have hsize := h.size
  have hext := h.extent
  have hhead : headerEnd b = 29 + 4 * n := hn ▸ rfl
  have hend : fieldsEnd b = headerEnd b + be32Nat b (13 + 4 * n) + be32Nat b (17 + 4 * n) + be32Nat b (21 + 4 * n) :=
    hn ▸ rfl
  have hcount : [BitVec.ofNat 8 n] = slice b 12 1 := by
    rw [slice_one (by omega), hn, BitVec.ofNat_toNat, BitVec.setWidth_eq]
    rfl
  rw [← hn] at hch hcn hct
  rw [ht]
  simp only [State.withParsed, Cursor.loaded, ← hn, containerBytes, hch, hcn, hct, parsePalette_length, ofNat_be32Nat,
    hcount]
  rw [← h.slice_eq, be32_be32At (by omega), be32_be32At (by omega), be32_be32At (by omega), be32_be32At (by omega),
    be32_be32At (by omega), be32_be32At (by omega), flatMap_be32_parsePalette (by omega)]
  simp (disch := omega) only [List.append_assoc, slice_append_drop]
  rfl

end

end

/-- `TAL_PARSE` without a fault has committed the fields of a file that passes its checks. -/
theorem exec_talParse_ok {s t : State} (hfk : s.fk = 0) (h : exec .talParse s = .next t) (htfk : t.fk = 0) :
    Parses s.fr.buf ∧ t = (openR .fr s).withParsed s.fr.buf := by
  cases hfault : parseFault s.fr.buf with
  | none =>
    rw [exec_talParse_of_noFault hfk, talParse_eq, hfault] at h
    exact ⟨.of_no_fault hfault, (Host.Outcome.next.inj h).symm⟩
  | some f =>
    rw [exec_talParse_of_fault hfk hfault] at h
    cases h
    exact absurd htfk f.kind.code_ne_zero

/-- A parse leaves dimensions and a palette that a serialisation takes (R115, R232). -/
theorem Parses.limits {b : List Byte} (h : Parses b) {s t : State} (ht : t = s.withParsed b) :
    t.w.toNat ≤ 8192 ∧ t.h.toNat ≤ 8192 ∧ t.pal.length ≤ 255 := by
  have hw : t.w = be32At b 4 := ht ▸ rfl
  have hh : t.h = be32At b 8 := ht ▸ rfl
  have hpal : t.pal = parsePalette b (b.getD 12 0).toNat := ht ▸ rfl
  have hcount := (b.getD 12 0).isLt
  rw [hw, hh, hpal, be32At_toNat, be32At_toNat, parsePalette_length]
  exact ⟨h.width, h.height, by omega⟩

/-- A parse leaves streams that a serialisation takes, where the body is not too long (R232). -/
theorem Parses.stream_lengths {b : List Byte} (h : Parses b) {s t : State} (ht : t = s.withParsed b)
    (hbd : t.bd.buf.length < 2 ^ 32) : ∀ k, k ≠ .fr → (t.cur k).buf.length < 2 ^ 32 := by
  obtain ⟨hch, hcn, hct⟩ := h.field_lengths
  have hword (a : Nat) : be32Nat b a < 2 ^ 32 := be32At_toNat b a ▸ (be32At b a).isLt
  intro k hk
  cases k with
  | ch => rw [ht]; exact hch.trans_lt (hword _)
  | cn => rw [ht]; exact hcn.trans_lt (hword _)
  | ct => rw [ht]; exact hct.trans_lt (hword _)
  | bd => exact hbd
  | fr => exact absurd rfl hk

/-! ### There and back (R246) -/

/-- `TAL_SERIALIZE` without a fault has written the container. -/
theorem exec_talSerialize_ok {s t : State} (hfk : s.fk = 0) (h : exec .talSerialize s = .next t) (htfk : t.fk = 0) :
    talSerialize Instr.talSerialize.word s = .ok () t := by
  obtain rfl := command_run hfk h
  exact (talSerialize_settled Instr.talSerialize.word hfk).eq_ok htfk

theorem parse_undoes_serialize {s t : State} (hfk : s.fk = 0) (hser : exec .talSerialize s = .next t) (htfk : t.fk = 0)
    (hch : ceil8 s.sc.toNat ≤ s.ch.buf.length) (hcn : ceil8 s.sc.toNat ≤ s.cn.buf.length) :
    ∃ u, exec .talParse t = .next u ∧ u.fk = 0 ∧ u.w = s.w ∧ u.h = s.h ∧ u.pal = s.pal ∧ u.sc = s.sc ∧
      u.lch = BitVec.ofNat 32 s.ch.buf.length ∧ u.lcn = BitVec.ofNat 32 s.cn.buf.length ∧
      u.lct = BitVec.ofNat 32 s.ct.buf.length ∧ (∀ k, k ≠ .fr → (u.cur k).buf = (s.cur k).buf) := by
  have hok := exec_talSerialize_ok hfk hser htfk
  have hshort {k : CurId} (hk : k ≠ .fr) := (talSerialize_ok_serializable hok).stream_length hk
  obtain ⟨hw, hh, hpal, -⟩ := talSerialize_ok_serializable hok
  have hfile : t.fr.buf = containerBytes s.w s.h s.pal s.sc s.ch.buf s.cn.buf s.ct.buf s.bd.buf := by
    rw [talSerialize_ok hok rfl]
    rfl
  refine ⟨_, parseReadsContainer t _ _ _ _ _ _ _ _ htfk hw hh hpal (hshort (k := .ch) (by decide))
    (hshort (k := .cn) (by decide)) (hshort (k := .ct) (by decide)) hch hcn hfile,
    htfk, rfl, rfl, rfl, rfl, rfl, rfl, rfl, fun k hk => ?_⟩
  cases k with
  | fr => exact absurd rfl hk
  | _ => rfl

theorem serialize_undoes_parse {s t : State} (hfk : s.fk = 0) (hparse : exec .talParse s = .next t) (htfk : t.fk = 0)
    (hbd : t.bd.buf.length < 2 ^ 32) (hcap : capAtLeast s s.fr.buf.length) :
    ∃ u, exec .talSerialize t = .next u ∧ u.fk = 0 ∧ u.fr.buf = s.fr.buf := by
  obtain ⟨hparses, ht⟩ := exec_talParse_ok hfk hparse htfk
  obtain ⟨hw, hh, hpal⟩ := hparses.limits ht
  have hown := talParse_ownFields s
  rw [← command_run hfk hparse] at hown
  have hparams : t.params = s.params := congrArg Prod.fst hown
  obtain ⟨file, hfile, -, hexec⟩ := serializeWritesLayout t htfk hw hh hpal (hparses.stream_lengths ht hbd)
  rw [hparses.containerBytes_withParsed ht] at hfile
  subst hfile
  exact ⟨_, hexec (by rw [capAtLeast, hparams]; exact hcap), htfk, rfl⟩

/-- Settles O45: what was written is a container, and a file that parses is the container of its fields. -/
theorem parseAndSerializeAreInverse : Obligations.ParseAndSerializeAreInverse :=
  ⟨fun _ _ => parse_undoes_serialize, fun _ _ => serialize_undoes_parse⟩

end Sys2Proof.Machine


/-! `TAL_DECODE` of a container of records (R251), and the round trip through the file `TAL_ENCODE` leaves (R252). -/

namespace Sys2Proof.Machine

/-! ### A bit per record (R100, R242) -/

theorem encode_of_fits {pal : List Pixel} {i : Instr} (h : recordFits pal i = true) : ∃ r, encode i = .record r := by
  cases i with
  | stT1 | stTR l | stF1 i | stFR l i | stP1 j | stPR l j => exact ⟨_, rfl⟩
  | _ => cases h

theorem recordBitsOf_length {pal : List Pixel} {records : List Instr} (h : ∀ i ∈ records, recordFits pal i = true) :
    (recordBitsOf records).length = records.length := by
  induction records with
  | nil => rfl
  | cons i records ih =>
    obtain ⟨hi, hrecords⟩ := List.forall_mem_cons.1 h
    obtain ⟨r, hr⟩ := encode_of_fits hi
    rw [← List.singleton_append, recordBitsOf_append, List.length_append, List.length_append, recordBitsOf_singleton hr,
      ih hrecords]
    rfl

/-- Bytes that begin with a bit per record are enough of them for the records. -/
theorem ceil8_le_of_prefix {bits : List Bool} {bytes : List Byte} {n : Nat} (hlen : bits.length = n)
    (h : bits <+: bytesBits bytes) : ceil8 n ≤ bytes.length :=
  ceil8_le_of_le (hlen ▸ bytesBits_length bytes ▸ h.length_le)

/-! ### Decoding a container (R251) -/

/-- What `TAL_PARSE` leaves of a container of these fields (R236, R245). -/
def State.withContainer (s : State) (w h sc : Word) (pal : List Pixel) (ch cn ct bd : List Byte) : State :=
  { s with
    w := w, h := h, pal := pal, sc := sc
    lch := BitVec.ofNat 32 ch.length, lcn := BitVec.ofNat 32 cn.length, lct := BitVec.ofNat 32 ct.length
    ch := Cursor.loaded ch, cn := Cursor.loaded cn, ct := Cursor.loaded ct, bd := Cursor.loaded bd
    fr := Cursor.loaded s.fr.buf }

/-- R251: past the parse `TAL_DECODE` is `RLE_DECODE`. -/
theorem exec_talDecode_of_parse {s t : State} (hfk : s.fk = 0) (h : exec .talParse { s with nf := false } = .next t)
    (htfk : t.fk = 0) : exec .talDecode s = exec .rleDecode t :=
  (pipelinesAreTheirStages.1 s t hfk h).trans (if_pos htfk)

/-- Settles O48: the parse commits the container's fields, and the decoder replays the records at the start of its streams. -/
theorem talDecodeReadsFile : Obligations.TalDecodeReadsFile := by
  intro s w h sc pal ch cn ct bd records hfk hw hh hpal hch hcn hct hbuf hsc hfits hchroma hcount hcolourType hbody htotal
  have hbits := recordBitsOf_length hfits
  have hparse : exec .talParse { s with nf := false } =
      .next (State.withContainer { s with nf := false } w h sc pal ch cn ct bd) :=
    parseReadsContainer { s with nf := false } w h sc pal ch cn ct bd hfk hw hh hpal hch hcn hct
      (hsc ▸ ceil8_le_of_prefix ((List.length_map _).trans hbits) hchroma)
      (hsc ▸ ceil8_le_of_prefix ((List.length_map _).trans hbits) hcount) hbuf
  obtain ⟨t, ht, hrun, -⟩ := rleDecodeReplaysRecords (State.withContainer { s with nf := false } w h sc pal ch cn ct bd)
    records hfk hsc hfits hchroma hcount hcolourType hbody
  rw [exec_talDecode_of_parse hfk hparse hfk, hrun (by rw [ht]; exact htotal), ht]
  rfl

/-! ### What an encoding that goes on has done (R250) -/

theorem SameButWord.eq_of_ok {α : Type} {cw cw' : Word} {r r' : Res α} (h : SameButWord cw cw' r r') {a : α} {s : State}
    (hr : r = .ok a s) : r' = .ok a s := by
  cases h with
  | ok a' s' _ => exact hr
  | refused s' => cases hr

theorem talEncode_settled (cw : Word) {s : State} (h : s.fk = 0) : (talEncode cw s).settled := by
  unfold talEncode
  split_ifs
  iterate 3 exact raise_settled _ _ _ _ _
  have hpalette : (palBuild { s with nf := false }).settled := palBuild_settled h
  exact hpalette.bind fun _ t ht => (SameButWord.rleEncode (cw' := cw) ht).settled.bind fun _ u hu =>
    talSerialize_settled cw hu

/-- The stages of a `TAL_ENCODE` that goes on: each went on, from a raster within the size limits. -/
structure EncodeStages (s t u v : State) : Prop where
  width : s.w.toNat ≤ 8192
  height : s.h.toNat ≤ 8192
  raster : s.pix.length = s.area
  palette : palBuild { s with nf := false } = .ok () t
  records : rleEncode Instr.talEncode.word t = .ok () u
  file : talSerialize Instr.talEncode.word u = .ok () v

theorem exec_talEncode_ok {s v : State} (hfk : s.fk = 0) (h : exec .talEncode s = .next v) (hvfk : v.fk = 0) :
    ∃ t u, EncodeStages s t u v := by
  obtain rfl := command_run hfk h
  have hok := (talEncode_settled Instr.talEncode.word hfk).eq_ok hvfk
  generalize (talEncode Instr.talEncode.word s).state = v at hok
  unfold talEncode at hok
  split_ifs at hok with hw hh hraster
  iterate 3 cases hok
  obtain ⟨_, t, hpalette, hok⟩ := Res.bind_eq_ok hok
  obtain ⟨_, u, hrecords, hfile⟩ := Res.bind_eq_ok hok
  exact ⟨t, u, not_lt.1 hw, not_lt.1 hh, not_not.1 (not_or.1 hraster).1, hpalette, hrecords, hfile⟩

section
variable {s t u v : State} (h : EncodeStages s t u v)
include h

/-- Within the size limits the pixels are few enough for `SC` to count their records (R32, R250). -/
theorem EncodeStages.raster_small : s.pix.length < 2 ^ 32 :=
  h.raster.trans_lt ((Nat.mul_le_mul h.width h.height).trans_lt (by decide))

theorem EncodeStages.paletteBuilt (hfk : s.fk = 0) : PaletteBuilt s t := by
  obtain ⟨t', hexec, hbuilt⟩ := execPalBuild_paletteBuilt hfk h.raster
  have hrun := (exec_palBuild_of_raster (s := { s with nf := false }) hfk h.raster).symm.trans hexec
  rw [h.palette] at hrun
  obtain rfl := Host.Outcome.next.inj hrun
  have htfk : t.fk = 0 := by
    have hsettled := palBuild_settled (s := { s with nf := false }) hfk
    rwa [h.palette] at hsettled
  exact hbuilt.resolve_right fun hfault => hfault.1 htfk

theorem EncodeStages.recordsWritten (hfk : s.fk = 0) :
    ∃ streaks, RecordsWritten t u streaks ∧ u.nf = (recordsOf t streaks).any isNonFavourite := by
  have hbuilt := h.paletteBuilt hfk
  exact rleEncode_ok_recordsWritten hbuilt.fk (hbuilt.pix ▸ h.raster_small)
    ((SameButWord.rleEncode hbuilt.fk).eq_of_ok h.records)

end

/-! ### The round trip (R252) -/

/-- What was written is at the start of the buffer it was written to. -/
theorem prefix_bytesBits_of_writeCursor {c : Cursor} {bits : List Bool} (h : c = writeCursor bits) :
    bits <+: bytesBits c.buf := by
  rw [h, writeCursor_buf, bytesBits_packBits]
  exact List.prefix_append _ _

/-- `TAL_DECODE` of the container of written records that stand for the raster's streaks gives the raster. -/
theorem RecordsWritten.exec_talDecode {s u v : State} {streaks : List (Pixel × Nat)} (h : RecordsWritten s u streaks)
    (hstand : RecordsStandFor s streaks) (hraster : s.pix.length = s.area) (hsmall : s.pix.length < 2 ^ 32)
    (hu : serializable u) (hvfk : v.fk = 0)
    (hfile : v.fr.buf = containerBytes u.w u.h u.pal u.sc u.ch.buf u.cn.buf u.ct.buf u.bd.buf) :
    ∃ x, exec .talDecode v = .next x ∧ x.fk = 0 ∧ x.w = s.w ∧ x.h = s.h ∧ x.out = s.pix ∧
      x.nf = (recordsOf s streaks).any isNonFavourite := by
  have hshort {k : CurId} (hk : k ≠ .fr) := hu.stream_length hk
  obtain ⟨hw, hh, hpal, -⟩ := hu
  have hcount := length_le_expand fun r hr => (h.maximal.1 r hr).1
  rw [h.pixels] at hcount
  have hsc : u.sc.toNat = (recordsOf s streaks).length := by
    rw [h.sc, BitVec.toNat_ofNat, Nat.mod_eq_of_lt (hcount.trans_lt hsmall), recordsOf, List.length_map]
  have hout : (recordsOf s streaks).flatMap (recordPixels u.pal) = s.pix := by rw [h.pal, hstand.pixels, h.pixels]
  have htotal : ((recordsOf s streaks).flatMap (recordPixels u.pal)).length = u.w.toNat * u.h.toNat := by
    rw [hout, hraster, h.w, h.h, State.area]
  exact ⟨_, talDecodeReadsFile v _ _ _ _ _ _ _ _ _ hvfk hw hh hpal (hshort (k := .ch) (by decide))
    (hshort (k := .cn) (by decide)) (hshort (k := .ct) (by decide)) hfile hsc (h.pal ▸ hstand.fits)
    (prefix_bytesBits_of_writeCursor h.ch) (prefix_bytesBits_of_writeCursor h.cn) (prefix_bytesBits_of_writeCursor h.ct)
    (prefix_bytesBits_of_writeCursor h.bd) htotal, hvfk, h.w, h.h, hout, rfl⟩

/-- Settles O49: the file is the container of the raster's records, and they stand for its streaks. -/
theorem talEncodeDecodeRoundTrip : Obligations.TalEncodeDecodeRoundTrip := by
  intro s t v hfk hencode htfk hnonfav hvfk hfile
  obtain ⟨p, u, hstages⟩ := exec_talEncode_ok hfk hencode htfk
  have hbuilt := hstages.paletteBuilt hfk
  obtain ⟨streaks, hwritten, hnf⟩ := hstages.recordsWritten hfk
  have hu := talSerialize_ok_serializable hstages.file
  rw [talSerialize_ok hstages.file rfl] at hnonfav hfile ⊢
  have hpal : p.pal.length ≤ 256 := by
    obtain ⟨-, -, hpal, -⟩ := hu
    exact hwritten.pal ▸ hpal.trans (by decide)
  have hstand : RecordsStandFor p streaks := hwritten.standFor
    (fun q hq h0 => (hbuilt.colours q).2 ⟨h0, hbuilt.pix ▸ hq⟩) hpal (hbuilt.params ▸ hnf ▸ hnonfav)
  have hraster : p.pix.length = p.area := by
    rw [hbuilt.pix, hstages.raster, State.area, State.area, hbuilt.w, hbuilt.h]
  obtain ⟨x, hdecode, hxfk, hxw, hxh, hxout, hxnf⟩ := hwritten.exec_talDecode hstand hraster
    (hbuilt.pix ▸ hstages.raster_small) hu hvfk hfile
  exact ⟨x, hdecode, hxfk, hxw.trans hbuilt.w, hxh.trans hbuilt.h, hxout.trans hbuilt.pix, hxnf.trans hnf.symm⟩

end Sys2Proof.Machine


/-! The fault kinds of R262 by command: each part of a command is said to leave no fault or one of a list of codes, and each
instruction is assembled from its parts under the list R262 and R264 give for it. No list holds R263's code 2. -/

namespace Sys2Proof.Machine

/-- No fault stands, or one of `codes` does. -/
def State.faultWithin (codes : List (BitVec 4)) (s : State) : Prop := s.fk = 0 ∨ s.fk ∈ codes

section
variable {codes : List (BitVec 4)}

theorem State.faultWithin.of_fk {s t : State} (h : s.faultWithin codes) (hfk : t.fk = s.fk) : t.faultWithin codes := by
  rw [State.faultWithin, hfk]
  exact h

theorem State.faultWithin.mono {more : List (BitVec 4)} {s : State} (h : s.faultWithin codes) (hsub : codes ⊆ more) :
    s.faultWithin more :=
  h.imp_right fun hmem => hsub hmem

/-- A fault that is taken replaces what stood before (R270). -/
theorem State.faultWithin_takeFault {kind : FaultKind} (hkind : kind.code ∈ codes) (s : State)
    (sub expected actual : Nat) : (s.takeFault kind sub expected actual).faultWithin codes :=
  .inr hkind

theorem State.faultWithin_setCur {s : State} (h : s.faultWithin codes) (k : CurId) (c : Cursor) :
    (s.setCur k c).faultWithin codes :=
  h.of_fk (State.setCur_fk s k c)

/-- What follows a settled part runs with no fault standing. -/
theorem Res.settled.bind_faultWithin {α β : Type} {r : Res α} {f : α → State → Res β} (hr : r.settled)
    (hcodes : r.state.faultWithin codes) (hf : ∀ a t, t.fk = 0 → (f a t).state.faultWithin codes) :
    (r.bind f).state.faultWithin codes := by
  cases r with
  | ok a t => exact hf a t hr
  | raised t => exact hcodes

/-! ### Reading (R132 to R135) -/

theorem rdBits_faultWithin (h7 : 7 ∈ codes) (k : CurId) (n : Nat) {s : State} (h : s.faultWithin codes) :
    (rdBits k n s).state.faultWithin codes := by
  unfold rdBits
  split
  · exact State.faultWithin_setCur h k _
  · exact State.faultWithin_takeFault h7 _ _ _ _

theorem rdBytes_faultWithin (h7 : 7 ∈ codes) (k : CurId) (m : Nat) {s : State} (h : s.faultWithin codes) :
    (rdBytes k m s).state.faultWithin codes := by
  unfold rdBytes
  split
  · exact State.faultWithin_setCur h k _
  · exact State.faultWithin_takeFault h7 _ _ _ _

theorem readIntoRes_faultWithin (h7 : 7 ∈ codes) (k : CurId) (n : Nat) {s : State} (h : s.faultWithin codes) :
    (readIntoRes k n s).state.faultWithin codes :=
  Res.bind_keeps (State.faultWithin codes) _ _ (rdBits_faultWithin h7 k n h) fun _ _ _ ht => ht

/-! ### Records (R205 to R216) -/

/-- A record can run dry or be corrupt, and no more. -/
theorem keptByRecords_faultWithin (h6 : 6 ∈ codes) (h7 : 7 ∈ codes) : KeptByRecords (State.faultWithin codes) where
  read k n _ _ h := rdBits_faultWithin h7 k n h
  out _ _ h := h
  setNf _ h := h
  setRi _ _ h := h
  fault _ _ _ s _ := State.faultWithin_takeFault h6 s _ _ _

theorem consume_faultWithin (h7 : 7 ∈ codes) (k : CurId) (n : Nat) {s : State} (h : s.faultWithin codes) :
    (consume k n s).state.faultWithin codes :=
  Res.bind_keeps (State.faultWithin codes) _ _ (rdBits_faultWithin h7 k n h) fun _ _ _ ht => ht

/-- The field bits of a transparent record can only run dry. -/
theorem consumeFlags_false_faultWithin (h7 : 7 ∈ codes) {s : State} (h : s.faultWithin codes) :
    (consumeFlags false s).state.faultWithin codes :=
  Res.bind_keeps (State.faultWithin codes) _ _ (consume_faultWithin h7 .cn 1 h) fun _ _ _ ht =>
    Res.bind_keeps (State.faultWithin codes) _ _ (consume_faultWithin h7 .ch 1 ht) fun _ _ _ hu => hu

theorem rleDecode_faultWithin (h6 : 6 ∈ codes) (h7 : 7 ∈ codes) {s : State} (h : s.faultWithin codes) :
    (rleDecode s).state.faultWithin codes := by
  have hstart : (decodeStart s).faultWithin codes := h
  have hloop := (keptByRecords_faultWithin h6 h7).decodeLoop s.sc.toNat hstart
  refine Res.bind_keeps (State.faultWithin codes) _ _ hloop fun _ t _ ht => ?_
  unfold decodeEnd
  split
  · exact State.faultWithin_takeFault h6 t _ _ _
  · exact ht

/-! ### Encoding (R161 to R184, R231, R250) -/

theorem palBuild_faultWithin (h1 : 1 ∈ codes) {s : State} (h : s.faultWithin codes) :
    (palBuild s).state.faultWithin codes := by
  unfold palBuild
  split
  · exact h
  · exact State.faultWithin_takeFault h1 _ _ _ _

/-- A part that runs alike under every word can only be refused (R264). -/
theorem SameButWord.faultWithin {α : Type} {cw cw' : Word} {r r' : Res α} (h : SameButWord cw cw' r r') (h8 : 8 ∈ codes) :
    r.state.faultWithin codes := by
  rcases h.refused_or_ok with ⟨t, rfl⟩ | ⟨_, t, rfl, hfk⟩
  · exact State.faultWithin_takeFault h8 t _ _ _
  · exact .inl hfk

theorem rleEncode_faultWithin (h8 : 8 ∈ codes) (cw : Word) {s : State} (hfk : s.fk = 0) :
    (rleEncode cw s).state.faultWithin codes :=
  (SameButWord.rleEncode (cw' := cw) hfk).faultWithin h8

/-- Beyond the two size checks `TalSerialize()` can only be refused (R232). -/
theorem talSerialize_faultWithin (h5 : 5 ∈ codes) (h8 : 8 ∈ codes) (cw : Word) {s : State} (hfk : s.fk = 0) :
    (talSerialize cw s).state.faultWithin codes := by
  by_cases hw : s.w.toNat ≤ 8192
  · by_cases hh : s.h.toNat ≤ 8192
    · exact (SameButWord.talSerialize (cw' := cw) hfk hw hh).faultWithin h8
    · rw [talSerialize_of_high cw hw (not_le.1 hh)]
      exact State.faultWithin_takeFault h5 s _ _ _
  · rw [talSerialize_of_wide cw (not_le.1 hw)]
    exact State.faultWithin_takeFault h5 s _ _ _

/-- R250's checks and the kinds of its three stages. -/
theorem talEncode_faultWithin (h1 : 1 ∈ codes) (h5 : 5 ∈ codes) (h8 : 8 ∈ codes) (cw : Word) {s : State}
    (hfk : s.fk = 0) : (talEncode cw s).state.faultWithin codes := by
  unfold talEncode
  split_ifs
  · exact State.faultWithin_takeFault h5 s _ _ _
  · exact State.faultWithin_takeFault h5 s _ _ _
  · exact State.faultWithin_takeFault h8 s _ _ _
  · have hpalette : (palBuild { s with nf := false }).settled := palBuild_settled hfk
    refine hpalette.bind_faultWithin (palBuild_faultWithin h1 (.inl hfk)) fun _ t ht => ?_
    have hrecords : (rleEncode cw t).settled := (SameButWord.rleEncode (cw' := cw) ht).settled
    exact hrecords.bind_faultWithin (rleEncode_faultWithin h8 cw ht) fun _ u hu => talSerialize_faultWithin h5 h8 cw hu

/-! ### Decoding a container (R236, R251) -/

/-- The kinds of R236's nine checks. -/
theorem talParse_faultWithin {s : State} (hfk : s.fk = 0) : (talParse s).state.faultWithin [3, 4, 5, 6] := by
  unfold talParse
  dsimp only
  split_ifs
  iterate 9 exact State.faultWithin_takeFault (by decide) _ _ _ _
  exact .inl hfk

theorem talDecode_faultWithin {s : State} (hfk : s.fk = 0) : (talDecode s).state.faultWithin [3, 4, 5, 6, 7] := by
  have hparse : (talParse { s with nf := false }).state.faultWithin [3, 4, 5, 6] := talParse_faultWithin hfk
  exact Res.bind_keeps (State.faultWithin _) _ _ (hparse.mono (by decide)) fun _ t _ ht =>
    rleDecode_faultWithin (by decide) (by decide) ht

end

/-! ### Every instruction (R262, R264) -/

/-- A transition that, where it goes on from `FK = 0`, leaves no fault or one of `codes`. -/
def LeavesWithin (codes : List (BitVec 4)) (transition : State → Out) : Prop :=
  ∀ s t, s.fk = 0 → transition s = .next t → t.faultWithin codes

theorem command_leavesWithin {codes : List (BitVec 4)} {body : State → Res Unit}
    (hbody : ∀ s, s.fk = 0 → (body s).state.faultWithin codes) : LeavesWithin codes (command body) := by
  intro s t hfk ht
  obtain rfl := command_run hfk ht
  exact hbody s hfk

/-- A cursor read command can be refused or run dry (R130, R132). -/
theorem readCommand_leavesWithin {body : State → Res Unit}
    (hbody : ∀ s, s.fk = 0 → (body s).state.faultWithin [7, 8]) (cw : Word) (legal : Bool) (k : CurId) :
    LeavesWithin [7, 8] (readCommand cw legal k body) := by
  intro s t hfk ht
  rcases readCommand_inv ht with rfl | rfl | ⟨-, rfl⟩
  · exact .inl hfk
  · exact State.faultWithin_takeFault (by decide) _ _ _ _
  · exact hbody s hfk

/-- A cursor write command can only be refused (R130, R146). -/
theorem writeCommand_leavesWithin (cw : Word) (legal : Bool) (k : CurId) (bits : State → List Bool) :
    LeavesWithin [8] (writeCommand cw legal k fun s => wrSeq cw k (bits s) s) := by
  intro s t hfk ht
  rcases writeCommand_inv ht with rfl | rfl | ⟨-, -, rfl⟩
  · exact .inl hfk
  · exact State.faultWithin_takeFault (by decide) _ _ _ _
  · exact (SameButWord.wrSeq (cw' := cw) k (bits s) hfk).faultWithin (by decide)

/-- A transparent form, whose run names no colour, can only run dry (R206, R207). -/
theorem transparentForm_leavesWithin {payload : State → Res Unit}
    (hpayload : ∀ s, s.faultWithin [7] → (payload s).state.faultWithin [7]) :
    LeavesWithin [7] (command fun s => (consumeFlags false s).bind fun _ s => payload s) :=
  command_leavesWithin fun _ hfk =>
    Res.bind_keeps (State.faultWithin [7]) _ _ (consumeFlags_false_faultWithin (by decide) (.inl hfk)) fun _ t _ ht =>
      hpayload t ht

theorem exec_leavesWithin (i : Instr) : LeavesWithin (faultsOf i) (exec i) := by
  cases i with
  | reset => intro s t _ ht; cases ht; exact .inl rfl
  | curOpenR k | curOpenW k => exact command_leavesWithin fun s hfk => State.faultWithin_setCur (.inl hfk) k _
  | rdbit k =>
    exact readCommand_leavesWithin (fun _ hfk => readIntoRes_faultWithin (by decide) k 1 (.inl hfk)) _ _ _
  | rdbits k n =>
    exact readCommand_leavesWithin (fun _ hfk => readIntoRes_faultWithin (by decide) k n.toNat (.inl hfk)) _ _ _
  | rdbyte k =>
    exact readCommand_leavesWithin (fun _ hfk => readIntoRes_faultWithin (by decide) k 8 (.inl hfk)) _ _ _
  | rdbytes k =>
    refine readCommand_leavesWithin (fun s hfk => ?_) _ _ _
    have hread := rdBytes_faultWithin (codes := [7, 8]) (by decide) k s.opd.toNat (.inl hfk)
    exact Res.bind_keeps (State.faultWithin [7, 8]) _ _ hread fun _ _ _ ht => ht
  | wrbit k v => exact writeCommand_leavesWithin _ _ k fun _ => bitsOf 1 v.toNat
  | wrbits k n => exact writeCommand_leavesWithin _ _ k fun s => bitsOf n.toNat s.opd.toNat
  | wrbyte k b => exact writeCommand_leavesWithin _ _ k fun _ => bitsOf 8 b.toNat
  | wrbytes k => exact writeCommand_leavesWithin _ _ k fun s => groupBits (byteGroups s.xb)
  | palBuild =>
    refine command_leavesWithin fun s hfk => ?_
    split
    · exact State.faultWithin_takeFault (by decide) s _ _ _
    · exact palBuild_faultWithin (by decide) (.inl hfk)
  | rleEncode => exact command_leavesWithin fun _ hfk => rleEncode_faultWithin (by decide) _ hfk
  | rleDecode => exact command_leavesWithin fun _ hfk => rleDecode_faultWithin (by decide) (by decide) (.inl hfk)
  | talSerialize => exact command_leavesWithin fun _ hfk => talSerialize_faultWithin (by decide) (by decide) _ hfk
  | talParse => exact command_leavesWithin fun _ hfk => talParse_faultWithin hfk
  | talEncode =>
    exact command_leavesWithin fun _ hfk => talEncode_faultWithin (by decide) (by decide) (by decide) _ hfk
  | talDecode => exact command_leavesWithin fun _ hfk => talDecode_faultWithin hfk
  | stT1 => exact transparentForm_leavesWithin fun _ hs => hs
  | stTR len =>
    exact transparentForm_leavesWithin fun _ hs =>
      Res.bind_keeps (State.faultWithin [7]) _ _ (consume_faultWithin (by decide) .bd 8 hs) fun _ _ _ ht => ht
  | stF1 | stFR | stP1 | stPR =>
    exact fun _ _ hfk => (keptByRecords_faultWithin (codes := [6, 7]) (by decide) (by decide)).exec rfl (.inl hfk)

/-- Settles O13: each instruction's parts leave no fault or one of its kinds. -/
theorem faultKindsByCommand : Obligations.FaultKindsByCommand := fun i s t => exec_leavesWithin i s t

/-! ### The code that is never set (R263) -/

theorem two_not_mem_faultsOf (i : Instr) : 2 ∉ faultsOf i := by
  cases i <;> simp [faultsOf]

theorem State.faultWithin.fk_ne_two {codes : List (BitVec 4)} {s : State} (h : s.faultWithin codes) (h2 : 2 ∉ codes) :
    s.fk ≠ 2 := by
  intro hfk
  rcases h with h0 | hmem
  · rw [hfk] at h0
    exact absurd h0 (by decide)
  · exact h2 (hfk ▸ hmem)

theorem leaveFault_fk_ne_two (s : State) : s.leaveFault.fk ≠ 2 := by
  change (0 : BitVec 4) ≠ 2
  decide

/-- A command whose body leaves other kinds only does not set `FK = 2`. -/
theorem command_fk_ne_two {body : State → Res Unit} {codes : List (BitVec 4)} (h2 : 2 ∉ codes)
    (hbody : ∀ s, s.fk = 0 → (body s).state.faultWithin codes) {s t : State} (h : command body s = .next t)
    (hs : s.fk ≠ 2) : t.fk ≠ 2 := by
  rcases command_inv h with rfl | ⟨hfk, rfl⟩
  · exact hs
  · exact (hbody s hfk).fk_ne_two h2

theorem exec_fk_ne_two {i : Instr} {s t : State} (h : exec i s = .next t) (hs : s.fk ≠ 2) : t.fk ≠ 2 := by
  by_cases hfk : s.fk = 0
  · exact (exec_leavesWithin i s t hfk h).fk_ne_two (two_not_mem_faultsOf i)
  · by_cases hi : i = .reset
    · subst hi
      cases h
      exact leaveFault_fk_ne_two s
    · rw [exec_of_fault hi hfk] at h
      cases h
      exact hs

/-- Settles O14: by O13 no instruction sets it, and an illegal word, a cut-off record and the host do not either. -/
theorem neverRaisesFileAlreadyExists : Obligations.NeverRaisesFileAlreadyExists := by
  intro s t h hs
  rcases step_cases s _ h with ⟨-, hidle⟩ | ⟨a, rest, -, hdo⟩
  · cases hidle; exact hs
  have hrest : ({ s with inbox := rest } : State).fk ≠ 2 := hs
  rcases hdo with ⟨_, i, -, -, ho⟩ | ⟨cw, _, -, -, ho⟩ | ⟨w, -, ho⟩ | ⟨-, ho⟩ | ⟨i, -, -, ho⟩ | ⟨-, -, ho⟩
  · exact exec_fk_ne_two ho.symm hrest
  · exact command_fk_ne_two (codes := [8]) (by decide)
      (fun _ _ => State.faultWithin_takeFault (by decide) _ _ _ _) ho.symm hrest
  · rw [(hostWrite_fault ho.symm).1]
    exact hrest
  · cases ho
    exact leaveFault_fk_ne_two _
  · exact exec_fk_ne_two ho.symm hrest
  · exact command_fk_ne_two (codes := [6, 7]) (by decide)
      (fun _ hfk => (keptByRecords_faultWithin (by decide) (by decide)).record (.inl hfk)) ho.symm hrest

/-! ### The words of opcode 0x01 (R93, R275) -/

/-- The opcode is the high byte of the word (R90). -/
theorem opcode_of_ushiftRight {cw : Word} {op : BitVec 8} (h : cw >>> (24 : Nat) = op.setWidth 32) :
    cw.extractLsb' 24 8 = op := by
  have hnat : cw.toNat >>> 24 = op.toNat := by
    have hval := congrArg BitVec.toNat h
    rw [BitVec.toNat_ushiftRight, BitVec.toNat_setWidth] at hval
    have := op.isLt
    omega
  apply BitVec.eq_of_toNat_eq
  rw [BitVec.extractLsb'_toNat, hnat, Nat.mod_eq_of_lt op.isLt]

/-- Of the words with opcode 0x01 only `RESET`'s own decodes. -/
theorem decode_opcode_one_error {cw : Word} (hop : cw >>> (24 : Nat) = 1#32) (hne : cw ≠ 0x01000000#32) :
    ∃ e, decode (.command cw) = .error e := by
  refine decodeCommand_error fun ⟨i, hdec⟩ => hne ?_
  obtain ⟨shape, hshape, hbuilds, -, -⟩ := decodeCommand_eq_ok hdec
  rw [opcode_of_ushiftRight (op := 1) hop] at hshape
  cases hshape
  cases hbuilds
  exact decode_eq_reset hdec

/-- Settles O10: an opcode 0x01 with a non-zero field does not decode, so it is an illegal word. -/
theorem resetCommandRestoresReset : Obligations.ResetCommandRestoresReset := by
  refine ⟨fun _ => rfl, by decide, fun s cw rest hinbox hop hne => ?_⟩
  obtain ⟨e, he⟩ := decode_opcode_one_error hop hne
  rw [step_perform s _ rest hinbox]
  exact issue_illegal cw e { s with inbox := rest } he

end Sys2Proof.Machine
